-- ==== Sys2Proof/Word.lean ====
section
/-! DEFINITION. The word types of the codec (R10 of 00_scope.md) and the closed sets of names its rules use. -/

namespace Sys2Proof

/-- A byte, `b[7:0]` (R10): an original byte, a packed byte, a payload, the DATA field. -/
abbrev Byte := BitVec 8

/-- A 32-bit value: a command word or the value of a host register (R10, R31). -/
abbrev Word := BitVec 32

/-- A code word, `cw[9:0]` (R10, R100). -/
abbrev CodeWord := BitVec 10

/-- A slot of a history window's storage, in [0, 256) (R60, R61). -/
abbrev Slot := BitVec 8

/-- The two engines; the ENG bit of a command word names one (R20, R110, R259). -/
inductive Engine where
  /-- the encoder, ENG = 0 -/
  | enc
  /-- the decoder, ENG = 1 -/
  | dec
  deriving DecidableEq, Repr

/-- The two encodings: the 10-bit code word and the 32-bit command word (30_encoding.md, R100 and R110). -/
inductive Format where
  /-- a code word of the compressed stream -/
  | cw10
  /-- a command word written to `CMD` -/
  | cmd32
  deriving DecidableEq, Repr

/-- The only copy lengths (R7 `MATCH_LENGTHS`, R146). -/
inductive CopyLength where
  | four
  | eight
  | sixteen
  deriving DecidableEq, Repr

end Sys2Proof
end

