-- ==== Sys2Proof/Config.lean ====
section
/-! DEFINITION. The block's fixed parameters (R7, R9 of 00_scope.md) and the parameters the spec leaves OPEN
(92_eei_decisions.md). -/

namespace Sys2Proof

/-- `WIN_CAP`: entries in each history window (R7). -/
@[reducible] def Config.winCap : Nat := 256

/-- `LA_CAP`: entries in the lookahead queue (R7). -/
@[reducible] def Config.laCap : Nat := 16

/-- `CW_BITS`: bits of a code word (R7). -/
@[reducible] def Config.cwBits : Nat := 10

/-- `OUT_UNIT`: bits of a packed byte (R7). -/
@[reducible] def Config.outUnit : Nat := 8

/-- `MATCH_LENGTHS`, in the order in which the encoder tries them (R7, R146). -/
def Config.matchLengths : List CopyLength := [.sixteen, .eight, .four]

/-- What a storage slot holds that nothing has written since reset or INIT (R48, R67: 0x00). -/
@[reducible] def Config.unwritten : Byte := 0x00#8

/-- The values of the OPEN parameter `MALFORMED_REF_POLICY` (92_eei_decisions.md, R219, D13). -/
inductive MalformedRefPolicy where
  /-- set REF_OOR and perform the copy by R215: the default, this spec's behaviour -/
  | copy
  /-- stop at the dispatch, with no defined output -/
  | fault
  deriving DecidableEq, Repr

/-- DESIGN CHOICE (log entry 4): the model takes the spec's default value `copy` of `MALFORMED_REF_POLICY`
(R219, D13). The operations take the policy as an argument; only the meanings in `exec` read this one. -/
def Config.malformedRefPolicy : MalformedRefPolicy := .copy

/-- `CORE_BASE` divided by 4: OPEN, so it has no value here (R31, R77, 92_eei_decisions.md; DESIGN CHOICE of the form, log entry 5). -/
opaque Config.coreBaseWord : Nat

/-- `CORE_BASE`: the bus address of the register space, 4-byte aligned and otherwise the platform's (R31, R77, 92_eei_decisions.md). -/
def Config.coreBase : Nat := 4 * Config.coreBaseWord

end Sys2Proof
end

