-- ==== Sys2Proof/Machine/Access.lean ====
section
/-! DEFINITION. A host access to the register space (R31, R44, R75 and R76). -/

namespace Sys2Proof.Machine

/-- What an access does. -/
inductive AccessKind where
  /-- a register read -/
  | read
  /-- a register write of a value -/
  | write (value : Word)
  deriving DecidableEq, Repr

/-- One access as it reaches the block: its kind, its byte offset from `CORE_BASE`, and its width in bits. An access
outside the interface can be written down, so that refusing it (R76) is part of the model. -/
structure Access where
  kind : AccessKind
  offset : Nat
  width : Nat
  deriving DecidableEq, Repr

end Sys2Proof.Machine
end

