-- ==== Sys2Proof/Syntax.lean ====
section
/-! DEFINITION. The instructions: one constructor for each row of opcode_table.json. -/

namespace Sys2Proof

/-- The four code words the decoder dispatches (R101) and the six commands the host writes to `CMD` (R112). INIT and END keep
their DATA byte although it is ignored (R114; DESIGN CHOICE, log entry 9). -/
inductive Instr where
  /-- `LIT v`, TAG 00: one original byte (R214). -/
  | lit (v : Byte)
  /-- `COPY4 p`, TAG 01: copy 4 bytes from window index `p` (R216). -/
  | copy4 (p : Byte)
  /-- `COPY8 p`, TAG 10: copy 8 bytes from window index `p` (R217). -/
  | copy8 (p : Byte)
  /-- `COPY16 p`, TAG 11: copy 16 bytes from window index `p` (R218). -/
  | copy16 (p : Byte)
  /-- `ENC.INIT`; DATA is ignored (R140, R114). -/
  | encInit (data : Byte)
  /-- `ENC.BYTE d`: feed one original byte (R141). -/
  | encByte (d : Byte)
  /-- `ENC.END`; DATA is ignored (R151, R114). -/
  | encEnd (data : Byte)
  /-- `DEC.INIT`; DATA is ignored (R210, R114). -/
  | decInit (data : Byte)
  /-- `DEC.BYTE d`: feed one packed byte (R211). -/
  | decByte (d : Byte)
  /-- `DEC.END`; DATA is ignored (R212, R114). -/
  | decEnd (data : Byte)
  deriving DecidableEq, Repr

/-- The fields of a command word (R110), before any check of them. -/
structure CommandFields where
  /-- `[31:12]`, must be 0 -/
  rsvd : BitVec 20
  /-- `[11]` -/
  eng : Engine
  /-- `[10:8]` -/
  op : BitVec 3
  /-- `[7:0]` -/
  data : Byte
  deriving DecidableEq, Repr

/-- The fields of a code word (R100). -/
structure CodeFields where
  /-- `cw[9:8]` -/
  tag : BitVec 2
  /-- `cw[7:0]` -/
  payload : Byte
  deriving DecidableEq, Repr

end Sys2Proof
end

