-- ==== Sys2Proof/WellFormed.lean ====
section
/-! DEFINITION. Which command words, code words and host accesses the encodings admit (R108, R113, R76). -/

namespace Sys2Proof

/-- A command word is not reserved: RSVD = 0 and OP is 001, 010 or 011 (R113). -/
def CommandFields.wf (c : CommandFields) : Bool :=
  c.rsvd = 0 && (c.op = 0b001#3 || c.op = 0b010#3 || c.op = 0b011#3)

/-- Every code word is an instruction: all four tags, every payload (R108). -/
def CodeFields.wf (_ : CodeFields) : Bool := true

/-- The encoding an instruction is written in. -/
def Instr.format : Instr → Format
  | .lit _ => .cw10
  | .copy4 _ => .cw10
  | .copy8 _ => .cw10
  | .copy16 _ => .cw10
  | .encInit _ => .cmd32
  | .encByte _ => .cmd32
  | .encEnd _ => .cmd32
  | .decInit _ => .cmd32
  | .decByte _ => .cmd32
  | .decEnd _ => .cmd32

/-- The fields an instruction is encoded with (R101, R112). -/
def Instr.fields : Instr → CodeFields ⊕ CommandFields
  | .lit v => .inl ⟨0b00#2, v⟩
  | .copy4 p => .inl ⟨0b01#2, p⟩
  | .copy8 p => .inl ⟨0b10#2, p⟩
  | .copy16 p => .inl ⟨0b11#2, p⟩
  | .encInit d => .inr ⟨0#20, .enc, 0b001#3, d⟩
  | .encByte d => .inr ⟨0#20, .enc, 0b010#3, d⟩
  | .encEnd d => .inr ⟨0#20, .enc, 0b011#3, d⟩
  | .decInit d => .inr ⟨0#20, .dec, 0b001#3, d⟩
  | .decByte d => .inr ⟨0#20, .dec, 0b010#3, d⟩
  | .decEnd d => .inr ⟨0#20, .dec, 0b011#3, d⟩

/-- An instruction's fields are admitted by its encoding. The operand types leave nothing else to check: a payload and a
DATA field are any byte (R102, R114). -/
def Instr.wf (i : Instr) : Bool :=
  match i.fields with
  | .inl c => c.wf
  | .inr c => c.wf

/-- An access of the block's interface: aligned, 32 bits, at an offset in [0x00, 0x3C] (R44, R75, R76). -/
def Machine.Access.inInterface (a : Machine.Access) : Bool :=
  a.width = 32 && a.offset % 4 = 0 && a.offset ≤ 0x3C

end Sys2Proof
end

