-- ==== Sys2Proof/Decode.lean ====
section
/-! DEFINITION. Decoding code words and command words, and after it the encoder (30_encoding.md). -/

namespace Sys2Proof

/-- Why a number is no instruction of a format. -/
inductive DecodeError where
  /-- a command word with RSVD ≠ 0 (R113) -/
  | reservedBits (eng : Engine)
  /-- a command word with OP 000 or 100 to 111 (R113) -/
  | reservedOp (eng : Engine)
  /-- a number of more bits than the format has (R109) -/
  | tooWide (f : Format)
  deriving DecidableEq, Repr

/-! ### Fields -/

/-- TAG, `cw[9:8]` (R100). -/
def codeTag (cw : CodeWord) : BitVec 2 := cw.extractLsb' 8 2

/-- PAYLOAD, `cw[7:0]` (R100, R102). -/
def codePayload (cw : CodeWord) : Byte := cw.extractLsb' 0 8

/-- A code word from its fields (R100). -/
def CodeFields.word (c : CodeFields) : CodeWord := c.tag ++ c.payload

/-- RSVD, `[31:12]` (R110). -/
def commandRsvd (w : Word) : BitVec 20 := w.extractLsb' 12 20

/-- ENG, `[11]`: 0 the encoder, 1 the decoder (R110). -/
def commandEngine (w : Word) : Engine := if w.getLsbD 11 then .dec else .enc

/-- OP, `[10:8]` (R110). -/
def commandOp (w : Word) : BitVec 3 := w.extractLsb' 8 3

/-- DATA, `[7:0]` (R110). -/
def commandData (w : Word) : Byte := w.extractLsb' 0 8

/-- The ENG bit that names an engine (R110). -/
def Engine.bit : Engine → BitVec 1
  | .enc => 0#1
  | .dec => 1#1

/-- A command word from its fields (R110). -/
def CommandFields.word (c : CommandFields) : Word := c.rsvd ++ c.eng.bit ++ c.op ++ c.data

/-- The fields of a command word (R110). -/
def commandFields (w : Word) : CommandFields := ⟨commandRsvd w, commandEngine w, commandOp w, commandData w⟩

/-! ### Decoding -/

/-- The instruction a code word is (R101, R108): total, one case for each tag. -/
def decodeCode (cw : CodeWord) : Instr :=
  if codeTag cw = 0b00#2 then .lit (codePayload cw)
  else if codeTag cw = 0b01#2 then .copy4 (codePayload cw)
  else if codeTag cw = 0b10#2 then .copy8 (codePayload cw)
  else .copy16 (codePayload cw)

/-- The command a command word issues, or why it is reserved (R112, R113). -/
def decodeCommand (w : Word) : Except DecodeError Instr :=
  if commandRsvd w ≠ 0 then .error (.reservedBits (commandEngine w))
  else
    match commandEngine w with
    | .enc =>
      if commandOp w = 0b001#3 then .ok (.encInit (commandData w))
      else if commandOp w = 0b010#3 then .ok (.encByte (commandData w))
      else if commandOp w = 0b011#3 then .ok (.encEnd (commandData w))
      else .error (.reservedOp .enc)
    | .dec =>
      if commandOp w = 0b001#3 then .ok (.decInit (commandData w))
      else if commandOp w = 0b010#3 then .ok (.decByte (commandData w))
      else if commandOp w = 0b011#3 then .ok (.decEnd (commandData w))
      else .error (.reservedOp .dec)

/-- Decode a number in a format: total, refusing by name. The format is never in doubt: a code word is what the
decoder's accumulator completes, a command word what the host writes to `CMD` (R107, R109, R111). -/
def decode (f : Format) (w : Nat) : Except DecodeError Instr :=
  match f with
  | .cw10 => if w < 2 ^ 10 then .ok (decodeCode (BitVec.ofNat 10 w)) else .error (.tooWide .cw10)
  | .cmd32 => if w < 2 ^ 32 then decodeCommand (BitVec.ofNat 32 w) else .error (.tooWide .cmd32)

/-- The format of an opcode table row of `nbits` bits, counted in whole bytes: a 10-bit code word takes 2 bytes, a command
word 4. -/
def tableFormat (nbits : Nat) : Option Format :=
  if nbits ≤ 16 then some .cw10 else if nbits ≤ 32 then some .cmd32 else none

/-- The instruction the decoder reads from an opcode table word. -/
def decodeTableWord (nbits w : Nat) : Option Instr :=
  match tableFormat nbits with
  | none => none
  | some f => (decode f w).toOption

/-! ### Encoding -/

/-- The number an instruction is encoded as, in its own format (R103, R112). -/
def encode (i : Instr) : Nat :=
  match i.fields with
  | .inl c => c.word.toNat
  | .inr c => c.word.toNat

end Sys2Proof
end

