-- ==== Sys2Proof/Machine/State.lean ====
section
/-! DEFINITION. The machine's state as plain data (10_state.md) and the state after reset (R48). -/

namespace Sys2Proof.Machine

/-- Why the machine stops with a fault. The block itself raises no exception (R250). -/
inductive Fault where
  /-- Raised by `underPolicy` (COPY4, COPY8, COPY16 and DEC.BYTE) at a malformed back-reference, only under the value
  `fault` of `MALFORMED_REF_POLICY` (R219), which this model does not take. Safe: it stops where the spec's default goes on. -/
  | malformedRef
  deriving DecidableEq, Repr

/-- Why the machine has no step. -/
inductive Refusal where
  /-- Raised by an arm of `exec` for an instruction that has no meaning yet; no arm does. Safe. -/
  | notModelled (mnemonic : String)
  /-- Raised by the host port for an access that is not an aligned 32-bit access to an offset in [0x00, 0x3C]: the block
  gives it no meaning and a model refuses it (R76, D23, V6). Safe. -/
  | outsideInterface (a : Access)
  deriving DecidableEq, Repr

/-- A storage array as the list of its slots that do not hold 0x00, by strictly rising slot number (R60, R67). -/
abbrev Memory := List Host.Cell

/-- The run state of an engine (R23). -/
inductive RunState where
  /-- BYTE and END are accepted; read as 0 -/
  | ready
  /-- the session has ended, only INIT is performed; read as 1 -/
  | done
  deriving DecidableEq, Repr

/-- The decoder's dispatch phase (R24). -/
inductive Phase where
  | accumulating
  /-- the code accumulator holds ten bits, a whole code word -/
  | dispatch
  deriving DecidableEq, Repr

/-- A history window `(W, wp, n)` (R25, R61). -/
structure Window where
  /-- storage, slots 0 to 255 -/
  W : Memory
  /-- write pointer: the slot the next append writes -/
  wp : BitVec 8
  /-- size: the number of valid entries, in [0, 256] -/
  n : BitVec 9
  deriving DecidableEq, Repr

/-- The lookahead queue `(Q, ri, wi, ls)` (R26, R68). -/
structure Lookahead where
  /-- storage, slots 0 to 15 -/
  Q : Memory
  /-- read index: the oldest unclassified byte -/
  ri : BitVec 4
  /-- write index: the next free slot -/
  wi : BitVec 4
  /-- size, in [0, 16] -/
  ls : BitVec 5
  deriving DecidableEq, Repr

/-- The bit packer `(acc, cnt)` (R27). -/
structure Packer where
  acc : BitVec 8
  cnt : BitVec 3
  deriving DecidableEq, Repr

/-- The code accumulator `(dacc, dcnt)` (R28). -/
structure CodeAcc where
  dacc : BitVec 10
  dcnt : BitVec 4
  deriving DecidableEq, Repr

/-- The encoder engine's state (R23, R25 to R27, R29, R30) and its output stream (R45). -/
structure Encoder where
  run : RunState
  ew : Window
  la : Lookahead
  pk : Packer
  /-- `ENC_IN_COUNT` -/
  inCount : BitVec 32
  /-- `ENC_OUT_COUNT` -/
  outCount : BitVec 32
  errSeq : Bool
  errCmd : Bool
  /-- `ENC_OUT`: every packed byte emitted so far, oldest first -/
  out : List Byte
  deriving DecidableEq, Repr

/-- The decoder engine's state (R23 to R25, R28 to R30) and its output stream (R45). -/
structure Decoder where
  run : RunState
  phase : Phase
  dw : Window
  ca : CodeAcc
  /-- `DEC_IN_COUNT` -/
  inCount : BitVec 32
  /-- `DEC_OUT_COUNT` -/
  outCount : BitVec 32
  errSeq : Bool
  errCmd : Bool
  refOor : Bool
  /-- `DEC_OUT`: every original byte emitted so far, oldest first -/
  out : List Byte
  deriving DecidableEq, Repr

/-- The block (R20) and its host port (R284, R286, R290). -/
structure State where
  enc : Encoder
  dec : Decoder
  /-- the host's accesses not yet performed, oldest first (DEDUCED, log entry 1) -/
  pending : List Access
  /-- the values register reads have returned to the host, oldest first (DESIGN CHOICE, log entry 3) -/
  reads : List Word
  /-- the reset input is asserted and not yet acted on (DEDUCED, log entry 2) -/
  rst : Bool
  deriving DecidableEq, Repr

/-- An empty window (R48). -/
def Window.empty : Window := { W := [], wp := 0, n := 0 }

/-- An empty lookahead (R48). -/
def Lookahead.empty : Lookahead := { Q := [], ri := 0, wi := 0, ls := 0 }

/-- The encoder after reset (R48). -/
def Encoder.reset : Encoder :=
  { run := .ready, ew := Window.empty, la := Lookahead.empty, pk := { acc := 0, cnt := 0 }, inCount := 0, outCount := 0,
    errSeq := false, errCmd := false, out := [] }

/-- The decoder after reset (R48). -/
def Decoder.reset : Decoder :=
  { run := .ready, phase := .accumulating, dw := Window.empty, ca := { dacc := 0, dcnt := 0 }, inCount := 0,
    outCount := 0, errSeq := false, errCmd := false, refOor := false, out := [] }

/-- The machine right after reset (R48, R281): nothing emitted, nothing asked for, nothing read
(DESIGN CHOICE for the streams and the port, log entry 3). -/
def State.reset : State :=
  { enc := Encoder.reset, dec := Decoder.reset, pending := [], reads := [], rst := false }

end Sys2Proof.Machine
end

