-- ==== Sys2Proof/Machine/Ops.lean ====
section
/-! DEFINITION. The named operations over storage, windows, the lookahead, the output streams and reset
(20_memory.md, R45 of 10_state.md, R280 of 70_reset_and_hazards.md). -/

namespace Sys2Proof.Machine

/-! ### Storage -/

/-- `MemRead(S, a, 1)` (R11): a slot that is not listed holds 0x00 (R67). -/
def Memory.read : Memory → Nat → Byte
  | [], _ => Config.unwritten
  | (x, c) :: m, a => if x = a then c else Memory.read m a

/-- A byte that is not 0x00 put in its place in the list. -/
def Memory.put : Memory → Nat → Byte → Memory
  | [], a, b => [(a, b)]
  | (x, c) :: m, a, b =>
    if a < x then (a, b) :: (x, c) :: m
    else if x = a then (a, b) :: m
    else (x, c) :: Memory.put m a b

/-- `MemWrite(S, a, 1, b)` (R11), keeping the canonical form: slots rising, none listed that holds 0x00. -/
def Memory.write (m : Memory) (a : Nat) (b : Byte) : Memory :=
  if b = Config.unwritten then m.filter fun c => c.1 != a else m.put a b

/-- Canonical form from slot `lo` up, in a storage of `cap` slots. -/
def Memory.wfFrom (cap : Nat) : Nat → Memory → Bool
  | _, [] => true
  | lo, (x, c) :: m => lo ≤ x && x < cap && c != Config.unwritten && Memory.wfFrom cap (x + 1) m

/-- The canonical form of a storage of `cap` slots: strictly rising slots below `cap`, none holding 0x00. -/
def Memory.wf (cap : Nat) (m : Memory) : Bool := Memory.wfFrom cap 0 m

/-! ### History windows -/

/-- `WinAppend(X, b)` (R62). -/
def Window.append (w : Window) (b : Byte) : Window :=
  { W := w.W.write w.wp.toNat b
    wp := w.wp + 1
    n := if w.n.toNat < Config.winCap then w.n + 1 else w.n }

/-- `WinOldest(X) = (X.wp - X.n) mod 256` (R63). -/
def Window.oldest (w : Window) : Slot := w.wp - w.n.setWidth 8

/-- The slot of window index `i`: `(WinOldest(X) + i) mod 256` (R64, C2). -/
def Window.slot (w : Window) (i : Nat) : Slot := w.oldest + BitVec.ofNat 8 i

/-- `WinRead(X, i)` (R64). -/
def Window.read (w : Window) (i : Nat) : Byte := w.W.read (w.slot i).toNat

/-! ### The lookahead queue -/

/-- `LaPush(b)` (R69). -/
def Lookahead.push (l : Lookahead) (b : Byte) : Lookahead :=
  { Q := l.Q.write l.wi.toNat b, ri := l.ri, wi := l.wi + 1, ls := l.ls + 1 }

/-- `LaPeek(k)` (R71). -/
def Lookahead.peek (l : Lookahead) (k : Nat) : Byte := l.Q.read (l.ri + BitVec.ofNat 4 k).toNat

/-- The byte `LaPop()` returns (R70). -/
def Lookahead.front (l : Lookahead) : Byte := l.Q.read l.ri.toNat

/-- What `LaPop()` leaves (R70). -/
def Lookahead.pop (l : Lookahead) : Lookahead := { l with ri := l.ri + 1, ls := l.ls - 1 }

/-! ### Output streams -/

/-- `Emit(ENC_OUT, b)` and its count (R45, R180, R183). -/
def Encoder.emit (e : Encoder) (b : Byte) : Encoder := { e with out := e.out ++ [b], outCount := e.outCount + 1 }

/-- `Emit(DEC_OUT, b)` and its count (R45, R214, R215). -/
def Decoder.emit (d : Decoder) (b : Byte) : Decoder := { d with out := d.out ++ [b], outCount := d.outCount + 1 }

/-- Emit an original byte and append it to the decoder's window (R214, and once a byte in R215). -/
def Decoder.output (d : Decoder) (b : Byte) : Decoder := { d.emit b with dw := d.dw.append b }

/-! ### Reset -/

/-- The element values of `ENC.INIT` (R140) and of reset (R48); the output stream is not an element of the table. -/
def Encoder.init (e : Encoder) : Encoder :=
  { run := .ready
    ew := { W := [], wp := 0, n := 0 }
    la := { Q := [], ri := 0, wi := 0, ls := 0 }
    pk := { acc := 0, cnt := 0 }
    inCount := 0
    outCount := 0
    errSeq := false
    errCmd := false
    out := e.out }

/-- The element values of `DEC.INIT` (R210) and of reset (R48); the output stream is not an element of the table. -/
def Decoder.init (d : Decoder) : Decoder :=
  { run := .ready
    phase := .accumulating
    dw := { W := [], wp := 0, n := 0 }
    ca := { dacc := 0, dcnt := 0 }
    inCount := 0
    outCount := 0
    errSeq := false
    errCmd := false
    refOor := false
    out := d.out }

/-- An access is a command: a write of `CMD` (R32, R44). -/
def Access.isCommand (a : Access) : Bool :=
  match a.kind with
  | .read => false
  | .write _ => a.inInterface && a.offset = 0

/-- The reset input (R280): both engines as after INIT, nothing emitted, every command not yet performed discarded.
Accesses that are no commands stay (DESIGN CHOICE, log entry 2). -/
def State.hardReset (s : State) : State :=
  { enc := s.enc.init
    dec := s.dec.init
    pending := s.pending.filter fun a => !a.isCommand
    reads := s.reads
    rst := false }

/-- The first pending access is taken from the port. -/
def State.popAccess (s : State) : State := { s with pending := s.pending.tail }

end Sys2Proof.Machine
end

