-- ==== Sys2Proof/Machine/BitPacking.lean ====
section
/-! DEFINITION. The bit packer of the encoder (41_bit_packing.md, R180 to R184) and the compressed stream as a sequence of
bits (30_encoding.md, R104 to R106). -/

namespace Sys2Proof.Machine

/-- `PackBit(x)` (R180). `cnt` never holds 8: the eighth bit emits the byte and empties the accumulator. -/
def Encoder.packBit (e : Encoder) (x : Bool) : Encoder :=
  let acc := (e.pk.acc <<< 1) ||| (BitVec.ofBool x).setWidth 8
  if e.pk.cnt.toNat + 1 = Config.outUnit then { e.emit acc with pk := { acc := 0, cnt := 0 } }
  else { e with pk := { acc := acc, cnt := e.pk.cnt + 1 } }

/-- The bits of a code word in the order in which they are packed, `cw[9]` first (R104, R181). -/
def codeBits (cw : CodeWord) : List Bool := [9, 8, 7, 6, 5, 4, 3, 2, 1, 0].map fun i => cw.getLsbD i

/-- The bits of a packed byte in stream order, `b[7]` first (R104, R185). -/
def byteBits (b : Byte) : List Bool := [7, 6, 5, 4, 3, 2, 1, 0].map fun i => b.getLsbD i

/-- `PackCode(cw)` (R181). -/
def Encoder.packCode (e : Encoder) (cw : CodeWord) : Encoder := (codeBits cw).foldl Encoder.packBit e

/-- `PackFlush()` (R183, R184). -/
def Encoder.packFlush (e : Encoder) : Encoder :=
  if 0 < e.pk.cnt.toNat then
    { e.emit (e.pk.acc <<< (8 - e.pk.cnt.toNat)) with pk := { acc := 0, cnt := 0 } }
  else e

/-! ### The stream as a whole (a notation for building and reading streams: R104, R105, `.cw` of R116) -/

/-- The byte whose bits, most significant first, are the given ones; fewer than 8 are the low ones. -/
def byteOfBits (bits : List Bool) : Byte := bits.foldl (fun acc x => (acc <<< 1) ||| (BitVec.ofBool x).setWidth 8) 0

/-- Stream bits as packed bytes, the last one zero-padded on the low-order side (R104, R105). -/
def packBits : List Bool → List Byte
  | b7 :: b6 :: b5 :: b4 :: b3 :: b2 :: b1 :: b0 :: rest =>
    byteOfBits [b7, b6, b5, b4, b3, b2, b1, b0] :: packBits rest
  | [] => []
  | short => [byteOfBits (short ++ List.replicate (8 - short.length) false)]

/-- The code word whose bits, most significant first, are the given ones (R104). -/
def codeOfBits (bits : List Bool) : CodeWord := bits.foldl (fun acc x => (acc <<< 1) ||| (BitVec.ofBool x).setWidth 10) 0

/-- The code words among stream bits: the first ten bits, the next ten, and so on; fewer than ten that remain form none
(R104, R107). -/
def codeGroups : List Bool → List CodeWord
  | b9 :: b8 :: b7 :: b6 :: b5 :: b4 :: b3 :: b2 :: b1 :: b0 :: rest =>
    codeOfBits [b9, b8, b7, b6, b5, b4, b3, b2, b1, b0] :: codeGroups rest
  | _ => []

/-- Code words as packed bytes, from an empty accumulator (R104, R105, R106, and `.cw` of R116). -/
def packStream (cws : List CodeWord) : List Byte := packBits (cws.flatMap codeBits)

/-- The packer's pending bits `acc[cnt-1:0]`, the oldest first (R27). -/
def Packer.bits (p : Packer) : List Bool := (List.range p.cnt.toNat).map fun i => p.acc.getLsbD (p.cnt.toNat - 1 - i)

/-- The accumulated bits `dacc[dcnt-1:0]`, the oldest first (R28). -/
def CodeAcc.bits (c : CodeAcc) : List Bool := (List.range c.dcnt.toNat).map fun i => c.dacc.getLsbD (c.dcnt.toNat - 1 - i)

end Sys2Proof.Machine
end

