-- ==== Sys2Proof/Machine/Flags.lean ====
section
/-! DEFINITION. The sticky error flags (R30, R251), how the spec's `set F` sets one, and how MALFORMED_REF_POLICY is
applied. The block takes no trap (R250, R254): setting a flag is all that stands in its place. -/

namespace Sys2Proof.Machine

/-- The rows of the table of R251. -/
inductive ErrFlag where
  | encErrSeq
  | encErrCmd
  | decErrSeq
  | decErrCmd
  | decRefOor
  deriving DecidableEq, Repr

/-- The spec's code of a row of R251; no register holds it. -/
def ErrFlag.code : ErrFlag → Nat
  | .encErrSeq => 1
  | .encErrCmd => 2
  | .decErrSeq => 3
  | .decErrCmd => 4
  | .decRefOor => 5

/-- The value of a flag. -/
def State.flag (s : State) : ErrFlag → Bool
  | .encErrSeq => s.enc.errSeq
  | .encErrCmd => s.enc.errCmd
  | .decErrSeq => s.dec.errSeq
  | .decErrCmd => s.dec.errCmd
  | .decRefOor => s.dec.refOor

/-- `set F` (R11): the flag becomes 1 and nothing else changes (R251). -/
def State.setFlag (s : State) : ErrFlag → State
  | .encErrSeq => { s with enc := { s.enc with errSeq := true } }
  | .encErrCmd => { s with enc := { s.enc with errCmd := true } }
  | .decErrSeq => { s with dec := { s.dec with errSeq := true } }
  | .decErrCmd => { s with dec := { s.dec with errCmd := true } }
  | .decRefOor => { s with dec := { s.dec with refOor := true } }

/-- The flag a reserved command word sets: ERR_CMD of the engine ENG names (R113). -/
def errCmdOf : Engine → ErrFlag
  | .enc => .encErrCmd
  | .dec => .decErrCmd

/-- The engine a flag belongs to (R30). -/
def ErrFlag.engine : ErrFlag → Engine
  | .encErrSeq => .enc
  | .encErrCmd => .enc
  | .decErrSeq => .dec
  | .decErrCmd => .dec
  | .decRefOor => .dec

/-- What a step that may dispatch a malformed back-reference (`bad`) and leads to `t` by R215 answers, under a value of
`MALFORMED_REF_POLICY` (R219, D13). -/
def underPolicy (policy : MalformedRefPolicy) (bad : Bool) (t : State) : Host.Outcome State Fault Refusal :=
  match policy with
  | .copy => .next t
  | .fault => if bad then .fault .malformedRef else .next t

end Sys2Proof.Machine
end

