-- ==== Sys2Proof/Machine/Operands.lean ====
section
/-! DEFINITION. The operand forms of code words: literals, window indices and copy lengths (30_encoding.md, R101 to R103). -/

namespace Sys2Proof.Machine

/-- The number of bytes a copy length stands for (R7, R101). -/
def copyBytes : CopyLength → Nat
  | .four => 4
  | .eight => 8
  | .sixteen => 16

/-- The tag that encodes a copy length (R101, R148). -/
def copyTag : CopyLength → BitVec 2
  | .four => 0b01#2
  | .eight => 0b10#2
  | .sixteen => 0b11#2

/-- The code word `LIT v` (R103, R149). -/
def litCode (v : Byte) : CodeWord := (⟨0b00#2, v⟩ : CodeFields).word

/-- The code word `{TAG(L), p[7:0]}` (R103, R148). -/
def copyCode (L : CopyLength) (p : Byte) : CodeWord := (⟨copyTag L, p⟩ : CodeFields).word

/-- A back-reference names entries the window does not hold: `p + L > n` (R219). -/
def malformed (w : Window) (L : CopyLength) (p : Byte) : Bool := w.n.toNat < p.toNat + copyBytes L

/-- A code word is a malformed back-reference for the window it is dispatched on; a literal never is (R213, R219). -/
def codeMalformed (cw : CodeWord) (w : Window) : Bool :=
  if codeTag cw = 0b00#2 then false
  else if codeTag cw = 0b01#2 then malformed w .four (codePayload cw)
  else if codeTag cw = 0b10#2 then malformed w .eight (codePayload cw)
  else malformed w .sixteen (codePayload cw)

/-- The slot a back-reference starts reading at (R215). -/
def startSlot (w : Window) (p : Byte) : Slot := w.slot p.toNat

end Sys2Proof.Machine
end

