-- ==== Sys2Proof/Machine/CodeWords.lean ====
section
/-! DEFINITION. The code words LIT, COPY4, COPY8 and COPY16 as the decoder dispatches them (42_decoder_dispatch.md, R213 to
R219). -/

namespace Sys2Proof.Machine

/-! ### What a code word does to the decoder -/

/-- `Lit(v)` (R214). -/
def Decoder.lit (d : Decoder) (v : Byte) : Decoder := d.output v

/-- The loop of `Copy`: `k` bytes from slot `s` on; each is read, emitted and appended before the next is read (R215). -/
def Decoder.copyFrom : Nat → Slot → Decoder → Decoder
  | 0, _, d => d
  | k + 1, s, d => Decoder.copyFrom k (s + 1) (d.output (d.dw.W.read s.toNat))

/-- REF_OOR is set when the reference is malformed, and never cleared here (R215, R219, R30). -/
def Decoder.checkRef (d : Decoder) (L : CopyLength) (p : Byte) : Decoder :=
  { d with refOor := d.refOor || malformed d.dw L p }

/-- `Copy(L, p)` (R215): the start slot is fixed before any append. -/
def Decoder.copy (d : Decoder) (L : CopyLength) (p : Byte) : Decoder :=
  Decoder.copyFrom (copyBytes L) (startSlot d.dw p) (d.checkRef L p)

/-- `Copy(4, p)` (R216). -/
def Decoder.copy4 (d : Decoder) (p : Byte) : Decoder := d.copy .four p

/-- `Copy(8, p)` (R217). -/
def Decoder.copy8 (d : Decoder) (p : Byte) : Decoder := d.copy .eight p

/-- `Copy(16, p)` (R218). -/
def Decoder.copy16 (d : Decoder) (p : Byte) : Decoder := d.copy .sixteen p

/-- `Dispatch(tag, pl)` (R213): closed and total over the four tags. -/
def Decoder.dispatch (d : Decoder) (cw : CodeWord) : Decoder :=
  if codeTag cw = 0b00#2 then d.lit (codePayload cw)
  else if codeTag cw = 0b01#2 then d.copy4 (codePayload cw)
  else if codeTag cw = 0b10#2 then d.copy8 (codePayload cw)
  else d.copy16 (codePayload cw)

/-- The end of a dispatch: the accumulator is emptied and the phase is ACCUMULATING again (R24, R185). -/
def Decoder.endDispatch (d : Decoder) : Decoder :=
  { d with ca := { dacc := 0, dcnt := 0 }, phase := .accumulating }

/-! ### Meanings -/

/-- LIT (R214). -/
def execLit (v : Byte) (s : State) : Host.Outcome State Fault Refusal := .next { s with dec := s.dec.lit v }

/-- `Copy(L, p)` as an instruction, under a value of `MALFORMED_REF_POLICY` (R215, R219, D13). -/
def execCopyUnder (policy : MalformedRefPolicy) (L : CopyLength) (p : Byte) (s : State) :
    Host.Outcome State Fault Refusal :=
  underPolicy policy (malformed s.dec.dw L p) { s with dec := s.dec.copy L p }

/-- COPY4 (R216, R219). -/
def execCopy4 (p : Byte) (s : State) : Host.Outcome State Fault Refusal :=
  execCopyUnder Config.malformedRefPolicy .four p s

/-- COPY8 (R217, R219). -/
def execCopy8 (p : Byte) (s : State) : Host.Outcome State Fault Refusal :=
  execCopyUnder Config.malformedRefPolicy .eight p s

/-- COPY16 (R218, R219). -/
def execCopy16 (p : Byte) (s : State) : Host.Outcome State Fault Refusal :=
  execCopyUnder Config.malformedRefPolicy .sixteen p s

end Sys2Proof.Machine
end

