-- ==== Sys2Proof/Machine/Decoder.lean ====
section
/-! DEFINITION. The decoder family: the code accumulator (41_bit_packing.md, R185 to R188) and the meanings of DEC.INIT,
DEC.BYTE and DEC.END (42_decoder_dispatch.md, R210 to R212). -/

namespace Sys2Proof.Machine

/-- The code accumulator with one more bit (R185). -/
def CodeAcc.shift (c : CodeAcc) (x : Bool) : CodeAcc :=
  { dacc := (c.dacc <<< 1) ||| (BitVec.ofBool x).setWidth 10, dcnt := c.dcnt + 1 }

/-- One turn of the loop of `UnpackByte` (R185): the tenth bit dispatches the code word at once (R186). -/
def Decoder.shiftBit (d : Decoder) (x : Bool) : Decoder :=
  let shifted := { d with ca := d.ca.shift x }
  if shifted.ca.dcnt.toNat = Config.cwBits then
    (Decoder.dispatch { shifted with phase := .dispatch } shifted.ca.dacc).endDispatch
  else shifted

/-- `UnpackByte(b)` (R185). -/
def Decoder.unpackByte (d : Decoder) (b : Byte) : Decoder := (byteBits b).foldl Decoder.shiftBit d

/-- `DEC.BYTE` in state READY (R211). -/
def Decoder.acceptByte (d : Decoder) (b : Byte) : Decoder :=
  Decoder.unpackByte { d with inCount := d.inCount + 1 } b

/-- The code word a packed byte completes, if it does: the accumulator lacks `k = 10 - dcnt` bits, and the byte's `k`
highest bits fill it (R185 to R187). -/
def CodeAcc.completes (c : CodeAcc) (b : Byte) : Option CodeWord :=
  if 2 ≤ c.dcnt.toNat ∧ c.dcnt.toNat ≤ 9 then
    some ((c.dacc <<< (10 - c.dcnt.toNat)) ||| (b >>> (c.dcnt.toNat - 2)).setWidth 10)
  else none

/-- The byte completes a code word that is a malformed back-reference for the window at its dispatch (R186, R219). -/
def Decoder.dispatchesMalformed (d : Decoder) (b : Byte) : Bool :=
  match d.ca.completes b with
  | some cw => codeMalformed cw d.dw
  | none => false

/-- `DEC.END` in state READY: the leftover bits are discarded (R188, R212). -/
def Decoder.finish (d : Decoder) : Decoder := { d with ca := { dacc := 0, dcnt := 0 }, run := .done }

/-- DEC.INIT (R210): performed in READY and DONE; DATA is ignored (R114). -/
def execDecInit (_data : Byte) (s : State) : Host.Outcome State Fault Refusal :=
  .next { s with dec := s.dec.init }

/-- DEC.BYTE under a value of `MALFORMED_REF_POLICY` (R211, R219, D13); in DONE only ERR_SEQ is set (R226). -/
def execDecByteUnder (policy : MalformedRefPolicy) (b : Byte) (s : State) : Host.Outcome State Fault Refusal :=
  match s.dec.run with
  | .done => .next (s.setFlag .decErrSeq)
  | .ready => underPolicy policy (s.dec.dispatchesMalformed b) { s with dec := s.dec.acceptByte b }

/-- DEC.BYTE (R211, R219). -/
def execDecByte (b : Byte) (s : State) : Host.Outcome State Fault Refusal :=
  execDecByteUnder Config.malformedRefPolicy b s

/-- DEC.END (R212); in DONE only ERR_SEQ is set (R226); DATA is ignored (R114). -/
def execDecEnd (_data : Byte) (s : State) : Host.Outcome State Fault Refusal :=
  match s.dec.run with
  | .done => .next (s.setFlag .decErrSeq)
  | .ready => .next { s with dec := s.dec.finish }

end Sys2Proof.Machine
end

