-- ==== Sys2Proof/Machine/Encoder.lean ====
section
/-! DEFINITION. The encoder family: the match search, the decision and the drain, and the meanings of ENC.INIT, ENC.BYTE
and ENC.END (40_encoder.md). -/

namespace Sys2Proof.Machine

/-! ### Match search -/

/-- The `len` window entries from index `p` equal the `len` oldest lookahead bytes (R144). -/
def Encoder.matchesAt (e : Encoder) (len p : Nat) : Bool :=
  (List.range len).all fun k => e.ew.read (p + k) == e.la.peek k

/-- `Search(L)` (R144, R145, R147): the candidates are `0 .. n - len`, none when `n < len`; the smallest match is taken. -/
def Encoder.search (e : Encoder) (len : Nat) : Option Nat :=
  (List.range (e.ew.n.toNat + 1 - len)).find? fun p => e.matchesAt len p

/-! ### Actions -/

/-- `WinAppend(EW, LaPop())` (R148). -/
def Encoder.moveByte (e : Encoder) : Encoder := { e with la := e.la.pop, ew := e.ew.append e.la.front }

/-- The loop of `MatchAction`: move the `k` oldest lookahead bytes into the window, oldest first (R148, C1). -/
def Encoder.moveBytes : Nat → Encoder → Encoder
  | 0, e => e
  | k + 1, e => Encoder.moveBytes k e.moveByte

/-- `MatchAction(L, p)` (R148). -/
def Encoder.matchAction (e : Encoder) (L : CopyLength) (p : Nat) : Encoder :=
  Encoder.moveBytes (copyBytes L) (e.packCode (copyCode L (BitVec.ofNat 8 p)))

/-- `LiteralAction()` (R149). -/
def Encoder.literalAction (e : Encoder) : Encoder :=
  let v := e.la.front
  let popped := { e with la := e.la.pop }
  let packed := popped.packCode (litCode v)
  { packed with ew := packed.ew.append v }

/-- The loop of `Decide()` over the lengths left to try (R143, R146). -/
def Encoder.tryLengths : List CopyLength → Encoder → Encoder
  | [], e => e.literalAction
  | L :: rest, e =>
    match e.search (copyBytes L) with
    | some p => e.matchAction L p
    | none => Encoder.tryLengths rest e

/-- `Decide()` (R143). -/
def Encoder.decision (e : Encoder) : Encoder := Encoder.tryLengths Config.matchLengths e

/-! ### Commands -/

/-- A byte is counted and pushed (R141). -/
def Encoder.push (e : Encoder) (d : Byte) : Encoder := { e with inCount := e.inCount + 1, la := e.la.push d }

/-- `ENC.BYTE` in state READY (R141, R142). -/
def Encoder.acceptByte (e : Encoder) (d : Byte) : Encoder :=
  let pushed := e.push d
  if pushed.la.ls.toNat = Config.laCap then pushed.decision else pushed

/-- The drain of `k` lookahead bytes as literals, without a search (R151, R152). -/
def Encoder.drain : Nat → Encoder → Encoder
  | 0, e => e
  | k + 1, e => Encoder.drain k e.literalAction

/-- `ENC.END` in state READY (R151). -/
def Encoder.finish (e : Encoder) : Encoder := { (Encoder.drain e.la.ls.toNat e).packFlush with run := .done }

/-- ENC.INIT (R140): performed in READY and DONE; DATA is ignored (R114). -/
def execEncInit (_data : Byte) (s : State) : Host.Outcome State Fault Refusal :=
  .next { s with enc := s.enc.init }

/-- ENC.BYTE (R141); in DONE only ERR_SEQ is set (R153). -/
def execEncByte (d : Byte) (s : State) : Host.Outcome State Fault Refusal :=
  match s.enc.run with
  | .done => .next (s.setFlag .encErrSeq)
  | .ready => .next { s with enc := s.enc.acceptByte d }

/-- ENC.END (R151); in DONE only ERR_SEQ is set (R153); DATA is ignored (R114). -/
def execEncEnd (_data : Byte) (s : State) : Host.Outcome State Fault Refusal :=
  match s.enc.run with
  | .done => .next (s.setFlag .encErrSeq)
  | .ready => .next { s with enc := s.enc.finish }

end Sys2Proof.Machine
end

