-- ==== Sys2Proof/Machine/Dispatch.lean ====
section
/-! DEFINITION. What each instruction does: one arm for each constructor of Instr. -/

namespace Sys2Proof.Machine

def exec (i : Instr) (s : State) : Host.Outcome State Fault Refusal :=
  match i with
  | .lit v => Sys2Proof.Machine.execLit v s
  | .copy4 p => Sys2Proof.Machine.execCopy4 p s
  | .copy8 p => Sys2Proof.Machine.execCopy8 p s
  | .copy16 p => Sys2Proof.Machine.execCopy16 p s
  | .encInit data => Sys2Proof.Machine.execEncInit data s
  | .encByte d => Sys2Proof.Machine.execEncByte d s
  | .encEnd data => Sys2Proof.Machine.execEncEnd data s
  | .decInit data => Sys2Proof.Machine.execDecInit data s
  | .decByte d => Sys2Proof.Machine.execDecByte d s
  | .decEnd data => Sys2Proof.Machine.execDecEnd data s

end Sys2Proof.Machine
end

