-- ==== Sys2Proof/Machine/Registers.lean ====
section
/-! DEFINITION. The host register map: what each register reads as (R31 to R43), and the bus addresses of the register
space (R31, R77). -/

namespace Sys2Proof.Machine

/-- DONE: READY = 0, DONE = 1 (R23). -/
def RunState.bit : RunState → BitVec 1
  | .ready => 0#1
  | .done => 1#1

/-- `ENC_STATUS` (R33): [24:16] WIN_SIZE, [15:13] PEND_BITS, [12:8] LA_SIZE, [2] ERR_CMD, [1] ERR_SEQ, [0] DONE. -/
def State.encStatus (s : State) : Word :=
  0#7 ++ s.enc.ew.n ++ s.enc.pk.cnt ++ s.enc.la.ls ++ 0#5 ++ BitVec.ofBool s.enc.errCmd ++ BitVec.ofBool s.enc.errSeq
    ++ s.enc.run.bit

/-- `ENC_ACC` (R36): [7:0] PK.acc. -/
def State.encAcc (s : State) : Word := 0#24 ++ s.enc.pk.acc

/-- `ENC_PTR` (R37): [15:12] LA.wi, [11:8] LA.ri, [7:0] EW.wp. -/
def State.encPtr (s : State) : Word := 0#16 ++ s.enc.la.wi ++ s.enc.la.ri ++ s.enc.ew.wp

/-- `DEC_STATUS` (R38): [24:16] WIN_SIZE, [11:8] ACC_BITS, [3] REF_OOR, [2] ERR_CMD, [1] ERR_SEQ, [0] DONE. -/
def State.decStatus (s : State) : Word :=
  0#7 ++ s.dec.dw.n ++ 0#4 ++ s.dec.ca.dcnt ++ 0#4 ++ BitVec.ofBool s.dec.refOor ++ BitVec.ofBool s.dec.errCmd
    ++ BitVec.ofBool s.dec.errSeq ++ s.dec.run.bit

/-- `DEC_ACC` (R41): [9:0] CA.dacc. -/
def State.decAcc (s : State) : Word := 0#22 ++ s.dec.ca.dacc

/-- `DEC_PTR` (R42): [7:0] DW.wp. -/
def State.decPtr (s : State) : Word := 0#24 ++ s.dec.dw.wp

/-- The value a register read returns, by offset (R31, R286). `CMD` and the reserved offsets read 0 (R32, R43). -/
def State.readRegister (s : State) (offset : Nat) : Word :=
  match offset with
  | 0x04 => s.encStatus
  | 0x08 => s.enc.inCount
  | 0x0C => s.enc.outCount
  | 0x10 => s.encAcc
  | 0x14 => s.encPtr
  | 0x18 => s.decStatus
  | 0x1C => s.dec.inCount
  | 0x20 => s.dec.outCount
  | 0x24 => s.decAcc
  | 0x28 => s.decPtr
  | _ => 0

/-- The access the block sees when bus address `addr` is accessed: none if the address is outside its 64 bytes, which
begin at `CORE_BASE` (R31, R77). -/
def busAccess (kind : AccessKind) (addr width : Nat) : Option Access :=
  if Config.coreBase ≤ addr ∧ addr < Config.coreBase + 64 then
    some { kind := kind, offset := addr - Config.coreBase, width := width }
  else none

end Sys2Proof.Machine
end

