-- ==== Sys2Proof/Machine/Fetch.lean ====
section
/-! DEFINITION. What the next step performs: the reset input, the code word whose dispatch is in progress, or the host's
first pending access (R31, R44, R76, R111, R253, R280, R284, R286). The block fetches no instructions from a store (R22, R82). -/

namespace Sys2Proof.Machine

/-- What the next step is about. -/
inductive Fetched where
  /-- a command, performed on the state from which its access has been taken -/
  | command (i : Instr) (s : State)
  /-- the code word in the accumulator, whose dispatch is in progress -/
  | codeWord (i : Instr) (s : State)
  /-- no instruction: the step's outcome -/
  | other (o : Host.Outcome State Fault Refusal)

/-- A write of `CMD` (R32, R111). A reserved word is checked first of all: it sets ERR_CMD of the engine ENG names and has
no other effect (R113, R253). -/
def writeCommand (w : Word) (s : State) : Fetched :=
  match decodeCommand w with
  | .ok i => .command i s
  | .error _ => .other (.next (s.setFlag (errCmdOf (commandEngine w))))

/-- A register read returns the between-command value and changes nothing else (R44, R286). -/
def State.readTo (s : State) (offset : Nat) : State := { s with reads := s.reads ++ [s.readRegister offset] }

/-- One access of the host, on the state from which it has been taken. A write anywhere but `CMD` is ignored (R43, R44); an
access outside the interface is refused (R76). -/
def performAccess (a : Access) (s : State) : Fetched :=
  if a.inInterface then
    match a.kind with
    | .read => .other (.next (s.readTo a.offset))
    | .write w => if a.offset = 0 then writeCommand w s else .other (.next s)
  else .other (.refused (.outsideInterface a))

/-- What the next step performs. The reset input may be asserted at any time (R290) and comes first; a dispatch in progress
(which no state between two commands has, R24 and R46) is completed next; then the oldest pending access. With nothing to
do the block holds its state (R261). -/
def fetch (s : State) : Fetched :=
  if s.rst then .other (.next s.hardReset)
  else
    match s.dec.phase with
    | .dispatch => .codeWord (decodeCode s.dec.ca.dacc) s
    | .accumulating =>
      match s.pending with
      | [] => .other (.next s)
      | a :: _ => performAccess a s.popAccess

/-- After a code word that a step dispatched by itself: the dispatch ends (R24, R185). -/
def completeDispatch (o : Host.Outcome State Fault Refusal) : Host.Outcome State Fault Refusal :=
  match o with
  | .next t => .next { t with dec := t.dec.endDispatch }
  | .fault r => .fault r
  | .refused r => .refused r

/-- The port and the accumulator set so that the next step runs one opcode table word: a command word is the first pending
write of `CMD`; a code word is the accumulator's ten bits, in phase DISPATCH (R22, R24; DESIGN CHOICE, log entry 8). -/
def State.placeWord (s : State) (f : Format) (w : Nat) : State :=
  match f with
  | .cw10 =>
    { s with rst := false, dec := { s.dec with phase := .dispatch, ca := { dacc := BitVec.ofNat 10 w, dcnt := 10 } } }
  | .cmd32 =>
    { s with
      rst := false
      dec := { s.dec with phase := .accumulating }
      pending := { kind := .write (BitVec.ofNat 32 w), offset := 0, width := 32 } :: s.pending }

end Sys2Proof.Machine
end

