-- ==== Sys2Proof/Machine/Step.lean ====
section
/-! DEFINITION. One step: one command, one register access or one reset, whole (R5, R111). -/

namespace Sys2Proof.Machine

/-- One step of the block. -/
def step (s : State) : Host.Outcome State Fault Refusal :=
  match fetch s with
  | .command i t => exec i t
  | .codeWord i t => completeDispatch (exec i t)
  | .other o => o

/-- The state with an opcode table word placed where the next step takes its instruction from. -/
def State.withFetchWord (s : State) (nbits w : Nat) : State :=
  match tableFormat nbits with
  | none => s
  | some f => s.placeWord f w

end Sys2Proof.Machine
end

