-- ==== Sys2Proof/Machine/Pseudo.lean ====
section
/-! DEFINITION. The notation of 30_encoding.md for writing command sequences: mnemonics and operands (R115), the
pseudo-operations and their expansions (R116), and the host issuing command words (R111, R290). -/

namespace Sys2Proof.Machine

/-- The 32-bit value the host writes to `CMD` for a command (R112). -/
def commandWord (i : Instr) : Word := BitVec.ofNat 32 (encode i)

/-- The pseudo-operations of R116 that issue commands, and the raw command word of R115. (`.cw` is `packStream`.) -/
inductive Pseudo where
  /-- `ENC.STREAM b0, ..., bk` -/
  | encStream (bytes : List Byte)
  /-- `DEC.STREAM b0, ..., bk` -/
  | decStream (bytes : List Byte)
  /-- `ENC.REPEAT b, m` -/
  | encRepeat (b : Byte) (m : Nat)
  /-- `ENCODE b0, ..., bk` -/
  | encode (bytes : List Byte)
  /-- `DECODE b0, ..., bk` -/
  | decode (bytes : List Byte)
  /-- `.word w` -/
  | word (w : Word)
  deriving DecidableEq, Repr

/-- The commands of `ENCODE` (R116). -/
def encodeCommands (bytes : List Byte) : List Instr := .encInit 0 :: bytes.map .encByte ++ [.encEnd 0]

/-- The commands of `DECODE` (R116). -/
def decodeCommands (bytes : List Byte) : List Instr := .decInit 0 :: bytes.map .decByte ++ [.decEnd 0]

/-- The command words a pseudo-operation expands to, in the order in which the host writes them (R115, R116). -/
def Pseudo.expand : Pseudo → List Word
  | .encStream bytes => bytes.map fun b => commandWord (.encByte b)
  | .decStream bytes => bytes.map fun b => commandWord (.decByte b)
  | .encRepeat b m => List.replicate m (commandWord (.encByte b))
  | .encode bytes => (encodeCommands bytes).map commandWord
  | .decode bytes => (decodeCommands bytes).map commandWord
  | .word w => [w]

/-- A write of `CMD` (R32). -/
def commandAccess (w : Word) : Access := { kind := .write w, offset := 0, width := 32 }

/-- The host writes command words to `CMD`, after every access it has already made (R290). -/
def State.issue (s : State) (ws : List Word) : State := { s with pending := s.pending ++ ws.map commandAccess }

/-- An operand byte in hexadecimal (R115). -/
def hexByte (b : Byte) : String := "0x" ++ String.ofList [(Nat.digitChar (b.toNat / 16)).toUpper, (Nat.digitChar (b.toNat % 16)).toUpper]

/-- An instruction in assembler notation (R115). -/
def asm : Instr → String
  | .lit v => "LIT " ++ hexByte v
  | .copy4 p => "COPY4 " ++ hexByte p
  | .copy8 p => "COPY8 " ++ hexByte p
  | .copy16 p => "COPY16 " ++ hexByte p
  | .encInit _ => "ENC.INIT"
  | .encByte d => "ENC.BYTE " ++ hexByte d
  | .encEnd _ => "ENC.END"
  | .decInit _ => "DEC.INIT"
  | .decByte d => "DEC.BYTE " ++ hexByte d
  | .decEnd _ => "DEC.END"

end Sys2Proof.Machine
end

