-- ==== Sys2Proof/Safety.lean ====
section
/-! DEFINITION. The terms claims are made in: the between-command invariant (R46), the contents of the windows, the
lookahead and the streams as lists, runs of commands (R291) and well-formed streams (R220). -/

namespace Sys2Proof.Machine

/-! ### Contents as lists -/

/-- A window's valid entries, oldest first (R64). -/
def Window.contents (w : Window) : List Byte := (List.range w.n.toNat).map w.read

/-- The lookahead's bytes, oldest first (R71, R72). -/
def Lookahead.contents (l : Lookahead) : List Byte := (List.range l.ls.toNat).map l.peek

/-- Every bit the encoder has packed: those of the bytes it has emitted, then those pending (R27, R104). -/
def Encoder.stream (e : Encoder) : List Bool := e.out.flatMap byteBits ++ e.pk.bits

/-- Bytes appended one after the other to a window (R62). -/
def Window.appendAll (w : Window) (bytes : List Byte) : Window := bytes.foldl Window.append w

/-- A match of length `len` at window index `p`: the candidate lies inside the valid window and its entries equal the
oldest lookahead bytes (R144, R145). -/
def Encoder.RunMatches (e : Encoder) (len p : Nat) : Prop :=
  p + len ≤ e.ew.n.toNat ∧ ∀ k < len, e.ew.read (p + k) = e.la.peek k

/-! ### The between-command invariant -/

/-- R46 and R65 for a window, R67 for the slots outside its valid entries, and the canonical form of its storage. -/
def Window.Inv (w : Window) : Prop :=
  w.W.wf Config.winCap = true ∧ w.n.toNat ≤ Config.winCap ∧ (w.n.toNat < Config.winCap → w.wp.toNat = w.n.toNat) ∧
    ∀ a, w.n.toNat ≤ a → w.W.read a = Config.unwritten

/-- R46 and R72 for the lookahead, and the canonical form of its storage. -/
def Lookahead.Inv (l : Lookahead) : Prop :=
  l.Q.wf Config.laCap = true ∧ l.ls.toNat ≤ 15 ∧ l.wi.toNat = (l.ri.toNat + l.ls.toNat) % Config.laCap

/-- R46 for the bit packer; `cnt ≤ 7` is its width. -/
def Packer.Inv (p : Packer) : Prop := p.acc.toNat < 2 ^ p.cnt.toNat

/-- R46 for the code accumulator. -/
def CodeAcc.Inv (c : CodeAcc) : Prop := c.dcnt.toNat ≤ 9 ∧ c.dacc.toNat < 2 ^ c.dcnt.toNat

/-- R46 for the encoder. -/
def Encoder.Inv (e : Encoder) : Prop :=
  e.ew.Inv ∧ e.la.Inv ∧ e.pk.Inv ∧ (e.run = .done → e.la.ls = 0 ∧ e.pk.cnt = 0 ∧ e.pk.acc = 0)

/-- R46 for the decoder. -/
def Decoder.Inv (d : Decoder) : Prop :=
  d.dw.Inv ∧ d.ca.Inv ∧ d.phase = .accumulating ∧ (d.run = .done → d.ca.dcnt = 0 ∧ d.ca.dacc = 0)

/-- What holds between any two commands (R46). -/
def State.Inv (s : State) : Prop := s.enc.Inv ∧ s.dec.Inv

/-- The pending-bit counts are even, as in every stream that started from INIT (R183, R187). -/
def State.EvenCounts (s : State) : Prop := s.enc.pk.cnt.toNat % 2 = 0 ∧ s.dec.ca.dcnt.toNat % 2 = 0

/-! ### Runs -/

/-- The engine an instruction belongs to; the decoder dispatches the code words (R112, R213). -/
def engineOf : Instr → Engine
  | .lit _ => .dec
  | .copy4 _ => .dec
  | .copy8 _ => .dec
  | .copy16 _ => .dec
  | .encInit _ => .enc
  | .encByte _ => .enc
  | .encEnd _ => .enc
  | .decInit _ => .dec
  | .decByte _ => .dec
  | .decEnd _ => .dec

/-- The instruction is the INIT of an engine (R140, R210). -/
def isInitOf (i : Instr) (g : Engine) : Bool :=
  match i with
  | .encInit _ => g = .enc
  | .decInit _ => g = .dec
  | .lit _ => false
  | .copy4 _ => false
  | .copy8 _ => false
  | .copy16 _ => false
  | .encByte _ => false
  | .encEnd _ => false
  | .decByte _ => false
  | .decEnd _ => false

/-- Instructions performed one after the other (R79), stopping where one does not answer a next state. -/
def execAll : List Instr → State → Host.Outcome State Fault Refusal
  | [], s => .next s
  | i :: rest, s =>
    match exec i s with
    | .next t => execAll rest t
    | .fault r => .fault r
    | .refused r => .refused r

/-- Several steps, stopping where one does not answer a next state. -/
def stepMany : Nat → State → Host.Outcome State Fault Refusal
  | 0, s => .next s
  | k + 1, s =>
    match step s with
    | .next t => stepMany k t
    | .fault r => .fault r
    | .refused r => .refused r

/-- Code words dispatched one after the other by the decoder (R107, R213). -/
def Decoder.dispatchAll (d : Decoder) (cws : List CodeWord) : Decoder := cws.foldl Decoder.dispatch d

/-- No code word of the list is a copy with `p + L > DW.n` for the window as it stands at its dispatch (R219). -/
def Decoder.dispatchesWellFormed : List CodeWord → Decoder → Bool
  | [], _ => true
  | cw :: rest, d => !codeMalformed cw d.dw && Decoder.dispatchesWellFormed rest (d.dispatch cw)

/-- A well-formed stream (R220): of the code words among its bits, ten at a time, none is malformed at its dispatch from
INIT. No flag is read. -/
def WellFormedStream (bytes : List Byte) : Bool :=
  Decoder.dispatchesWellFormed (codeGroups (bytes.flatMap byteBits)) Decoder.reset

/-- A packed byte completes, with its `k` highest bits, a code word that decodes to COPY4, COPY8 or COPY16 `p` with
`p + L > DW.n` (R186, R219). -/
def Decoder.CompletesMalformed (d : Decoder) (b : Byte) : Prop :=
  ∃ (k len : Nat) (p : Byte) (i : Instr), d.ca.dcnt.toNat + k = 10 ∧ 1 ≤ k ∧ k ≤ 8 ∧
    decode .cw10 ((d.ca.dacc <<< k) ||| (b >>> (8 - k)).setWidth 10).toNat = .ok i ∧
    (len, i) ∈ [(4, .copy4 p), (8, .copy8 p), (16, .copy16 p)] ∧ d.dw.n.toNat < p.toNat + len

/-- The block is between commands and the host's oldest access is `a` (R284, R286). -/
def State.First (s : State) (a : Access) (rest : List Access) : Prop :=
  s.rst = false ∧ s.dec.phase = .accumulating ∧ s.pending = a :: rest

/-- The block is between commands and the host has asked for nothing. -/
def State.Quiet (s : State) : Prop := s.rst = false ∧ s.dec.phase = .accumulating ∧ s.pending = []

/-- A command word is reserved (R113): RSVD ≠ 0, or OP is 000, 100, 101, 110 or 111. -/
def Reserved (w : Word) : Prop :=
  w.extractLsb' 12 20 ≠ 0 ∨ w.extractLsb' 8 3 ∈ [0b000#3, 0b100#3, 0b101#3, 0b110#3, 0b111#3]

/-- The machine makes a step: it neither faults nor refuses. -/
def Steps (o : Host.Outcome State Fault Refusal) : Prop := ∃ t, o = .next t

end Sys2Proof.Machine
end

