-- ==== Sys2Proof/Certificates/Slice0/Obligations.lean ====
section
/-! DEFINITION. The statements for the provers, from the numbered rules of spec/. -/

open Sys2Proof Sys2Proof.Machine

/-! ### Encodings (30_encoding.md) -/

/-- R100, R101, R110, R112: decoding what an instruction is encoded as gives the instruction back, for every instruction and
every operand, also from an opcode table word. Of INIT and END the operand is the DATA byte that `Instr` keeps (log entry 9). -/
def Obligations.DecodeOfEncode : Prop :=
  ∀ i : Instr, decode i.format (encode i) = .ok i ∧
    decodeTableWord (match i.format with | .cw10 => 16 | .cmd32 => 32) (encode i) = some i

/-- R100, R101, R110, R112, R113: what decodes to an instruction is that instruction's own encoding, so no two words of a
format decode to the same value of `Instr`. That this holds for INIT and END rests on a choice of the model: `Instr` keeps
their DATA byte, which the spec ignores (R114); the words of one INIT or END all have the same effect (CommandWordNumbers;
log entry 9). -/
def Obligations.EncodeOfDecode : Prop :=
  ∀ (f : Format) (w : Nat) (i : Instr), decode f w = .ok i → i.format = f ∧ encode i = w

/-- The numeric values of the four code words, with R103's examples. R103 is an inference the spec marks as its own
("[derived: from rule R100]"). -/
def Obligations.CodeWordNumbers : Prop :=
  (∀ v : Byte,
    encode (.lit v) = 0x000 ||| v.toNat ∧ encode (.copy4 v) = 0x100 ||| v.toNat ∧
    encode (.copy8 v) = 0x200 ||| v.toNat ∧ encode (.copy16 v) = 0x300 ||| v.toNat ∧
    decode .cw10 (0x000 ||| v.toNat) = .ok (.lit v) ∧ decode .cw10 (0x100 ||| v.toNat) = .ok (.copy4 v) ∧
    decode .cw10 (0x200 ||| v.toNat) = .ok (.copy8 v) ∧ decode .cw10 (0x300 ||| v.toNat) = .ok (.copy16 v)) ∧
  encode (.lit 0x41) = 0b00_0100_0001 ∧ encode (.copy4 0x00) = 0b01_0000_0000 ∧ encode (.copy16 0xFF) = 0x3FF

/-- R112, R114: the six commands and their command words, for every DATA byte; for INIT and END every DATA byte has the same
effect. -/
def Obligations.CommandWordNumbers : Prop :=
  (∀ d : Byte,
    encode (.encInit d) = 0x00000100 ||| d.toNat ∧ encode (.encByte d) = 0x00000200 ||| d.toNat ∧
    encode (.encEnd d) = 0x00000300 ||| d.toNat ∧ encode (.decInit d) = 0x00000900 ||| d.toNat ∧
    encode (.decByte d) = 0x00000A00 ||| d.toNat ∧ encode (.decEnd d) = 0x00000B00 ||| d.toNat ∧
    decode .cmd32 (0x00000100 ||| d.toNat) = .ok (.encInit d) ∧
    decode .cmd32 (0x00000200 ||| d.toNat) = .ok (.encByte d) ∧
    decode .cmd32 (0x00000300 ||| d.toNat) = .ok (.encEnd d) ∧
    decode .cmd32 (0x00000900 ||| d.toNat) = .ok (.decInit d) ∧
    decode .cmd32 (0x00000A00 ||| d.toNat) = .ok (.decByte d) ∧
    decode .cmd32 (0x00000B00 ||| d.toNat) = .ok (.decEnd d)) ∧
  ∀ (d d' : Byte) (s : State),
    exec (.encInit d) s = exec (.encInit d') s ∧ exec (.encEnd d) s = exec (.encEnd d') s ∧
    exec (.decInit d) s = exec (.decInit d') s ∧ exec (.decEnd d) s = exec (.decEnd d') s

/-- 95_test_vectors.md S1 and 2.8, 30_encoding.md: a few words written out from the encodings decode to the instructions
they stand for, and reserved words to none. -/
def Obligations.SpecWordsDecode : Prop :=
  decode .cw10 0b00_0100_0001 = .ok (.lit 0x41) ∧ decode .cw10 0b01_1111_1100 = .ok (.copy4 0xFC) ∧
  decode .cw10 0b10_0000_0000 = .ok (.copy8 0x00) ∧ decode .cw10 0b11_0001_0000 = .ok (.copy16 0x10) ∧
  decode .cmd32 0x00000241 = .ok (.encByte 0x41) ∧ decode .cmd32 0x00000A10 = .ok (.decByte 0x10) ∧
  decode .cmd32 0x00000400 = .error (.reservedOp .enc) ∧ decode .cmd32 0x80000A41 = .error (.reservedBits .dec)

/-! ### Steps: the host port (10_state.md section 3, 60_exceptions.md, 70_reset_and_hazards.md) -/

/-- R111: when the host's oldest access is a write of `CMD` with a word that decodes to an instruction, the step is that one
instruction's meaning on the state from which the access has been taken, and the instruction is one of the engine ENG
names. -/
def Obligations.StepRunsCommand : Prop :=
  ∀ (s : State) (rest : List Access) (w : Word) (i : Instr),
    s.First ⟨.write w, 0x00, 32⟩ rest → decode .cmd32 w.toNat = .ok i →
    step s = exec i { s with pending := rest } ∧ engineOf i = if w.getLsbD 11 then .dec else .enc

/-- R24, R185: in phase DISPATCH the step is the meaning of the accumulated code word, after which the accumulator is empty
and the phase ACCUMULATING. That a dispatch can stand between two steps at all is the model's (log entry 8). -/
def Obligations.StepRunsCodeWord : Prop :=
  ∀ (s t : State) (i : Instr), s.rst = false → s.dec.phase = .dispatch → decode .cw10 s.dec.ca.dacc.toNat = .ok i →
    exec i s = .next t →
    step s = .next { t with dec := { t.dec with ca := { dacc := 0, dcnt := 0 }, phase := .accumulating } }

/-- The placing of an opcode table word makes the next step run exactly that instruction (the model's, log entry 8). -/
def Obligations.PlacedWordRunsNext : Prop :=
  ∀ (s : State) (i : Instr),
    match i.format with
    | .cmd32 => step (s.withFetchWord 32 (encode i))
        = exec i { s with rst := false, dec := { s.dec with phase := .accumulating } }
    | .cw10 => ∃ t, exec i { s with rst := false } = .next t ∧
        step (s.withFetchWord 16 (encode i))
          = .next { t with dec := { t.dec with ca := { dacc := 0, dcnt := 0 }, phase := .accumulating } }

/-- R113, and the order of the checks of one `CMD` write (R253). A reserved word sets ERR_CMD of the engine ENG names and has
no other effect, whatever the state; then INIT is performed in any run state; then DONE rejects BYTE and END; then the command
is performed. -/
def Obligations.CommandCheckOrder : Prop :=
  ∀ (s : State) (rest : List Access) (w : Word), s.First ⟨.write w, 0x00, 32⟩ rest →
    let s' := { s with pending := rest }
    let op := w.extractLsb' 8 3
    let data := w.extractLsb' 0 8
    (Reserved w → step s = .next (if w.getLsbD 11 then { s' with dec := { s.dec with errCmd := true } }
      else { s' with enc := { s.enc with errCmd := true } })) ∧
    (¬Reserved w → w.getLsbD 11 = false →
      (op = 0b001#3 → step s = .next { s' with enc := { Encoder.reset with out := s.enc.out } }) ∧
      (op ≠ 0b001#3 → s.enc.run = .done → step s = .next { s' with enc := { s.enc with errSeq := true } }) ∧
      (op ≠ 0b001#3 → s.enc.run = .ready → step s = exec (if op = 0b010#3 then .encByte data else .encEnd data) s')) ∧
    (¬Reserved w → w.getLsbD 11 = true →
      (op = 0b001#3 → step s = .next { s' with dec := { Decoder.reset with out := s.dec.out } }) ∧
      (op ≠ 0b001#3 → s.dec.run = .done → step s = .next { s' with dec := { s.dec with errSeq := true } }) ∧
      (op ≠ 0b001#3 → s.dec.run = .ready → step s = exec (if op = 0b010#3 then .decByte data else .decEnd data) s'))

/-- No command sets two flags, and the flag REF_OOR never prevents a copy: a DEC.BYTE that sets it has emitted the 4, 8 or 16
bytes of one. "A command never sets two flags" is an inference the spec marks as its own (R253, "[derived: from the order
above and 41_bit_packing.md rule R187]"). -/
def Obligations.NoCommandSetsTwoFlags : Prop :=
  (∀ (s t : State) (f g : ErrFlag), step s = .next t → s.flag f = false → t.flag f = true → s.flag g = false →
    t.flag g = true → f = g) ∧
  ∀ (s t : State) (b : Byte), s.dec.Inv → s.dec.run = .ready → exec (.decByte b) s = .next t → s.dec.refOor = false →
    t.dec.refOor = true → ∃ bytes : List Byte, t.dec.out = s.dec.out ++ bytes ∧ bytes.length ∈ [4, 8, 16]

/-- R79, R111: the commands the host writes are performed one at a time, in the order in which it wrote them. -/
def Obligations.IssuedCommandsRunInOrder : Prop :=
  ∀ (s : State) (is : List Instr), s.Quiet → (∀ i ∈ is, i.format = .cmd32) →
    stepMany is.length (s.issue (is.map commandWord)) = execAll is s

/-- R44, R286: a register read returns the between-command value and has no side effect on any other state. -/
def Obligations.RegisterReadReturnsValue : Prop :=
  ∀ (s : State) (rest : List Access) (o : Nat), s.First ⟨.read, o, 32⟩ rest → o % 4 = 0 → o ≤ 0x3C →
    step s = .next { s with pending := rest, reads := s.reads ++ [s.readRegister o] }

/-- R33 to R42: what the ten registers hold, bit field by bit field as one number each, the ranges the fields have between
commands, that all read 0 at reset, and that none can be written. -/
def Obligations.RegisterMap : Prop :=
  (∀ s : State,
    (s.readRegister 0x04).toNat = (if s.enc.run = .done then 1 else 0) + 2 * s.enc.errSeq.toNat + 4 * s.enc.errCmd.toNat
      + 2 ^ 8 * s.enc.la.ls.toNat + 2 ^ 13 * s.enc.pk.cnt.toNat + 2 ^ 16 * s.enc.ew.n.toNat ∧
    s.readRegister 0x08 = s.enc.inCount ∧ s.readRegister 0x0C = s.enc.outCount ∧
    (s.readRegister 0x10).toNat = s.enc.pk.acc.toNat ∧
    (s.readRegister 0x14).toNat = s.enc.ew.wp.toNat + 2 ^ 8 * s.enc.la.ri.toNat + 2 ^ 12 * s.enc.la.wi.toNat ∧
    (s.readRegister 0x18).toNat = (if s.dec.run = .done then 1 else 0) + 2 * s.dec.errSeq.toNat + 4 * s.dec.errCmd.toNat
      + 8 * s.dec.refOor.toNat + 2 ^ 8 * s.dec.ca.dcnt.toNat + 2 ^ 16 * s.dec.dw.n.toNat ∧
    s.readRegister 0x1C = s.dec.inCount ∧ s.readRegister 0x20 = s.dec.outCount ∧
    (s.readRegister 0x24).toNat = s.dec.ca.dacc.toNat ∧ (s.readRegister 0x28).toNat = s.dec.dw.wp.toNat) ∧
  (∀ s : State, s.Inv → s.enc.la.ls.toNat ≤ 15 ∧ s.enc.pk.cnt.toNat ≤ 7 ∧ s.enc.ew.n.toNat ≤ 256 ∧
    s.dec.ca.dcnt.toNat ≤ 9 ∧ s.dec.dw.n.toNat ≤ 256) ∧
  (∀ o, State.reset.readRegister o = 0) ∧
  ∀ (s : State) (rest : List Access) (o : Nat) (w : Word), s.First ⟨.write w, o, 32⟩ rest → o % 4 = 0 → 0x04 ≤ o →
    o ≤ 0x28 → step s = .next { s with pending := rest }

/-- R43: the reserved offsets (and `CMD`) and the reserved bits of the read-only registers read 0, and a write anywhere but
`CMD` changes no state of the block. -/
def Obligations.ReservedReadZeroWritesIgnored : Prop :=
  (∀ s : State, ∀ o ∈ [0x00, 0x2C, 0x30, 0x34, 0x38, 0x3C], s.readRegister o = 0) ∧
  (∀ s : State,
    (s.readRegister 0x04).extractLsb' 3 5 = 0 ∧ (s.readRegister 0x04).extractLsb' 25 7 = 0 ∧
    (s.readRegister 0x10).extractLsb' 8 24 = 0 ∧ (s.readRegister 0x14).extractLsb' 16 16 = 0 ∧
    (s.readRegister 0x18).extractLsb' 4 4 = 0 ∧ (s.readRegister 0x18).extractLsb' 12 4 = 0 ∧
    (s.readRegister 0x18).extractLsb' 25 7 = 0 ∧ (s.readRegister 0x24).extractLsb' 10 22 = 0 ∧
    (s.readRegister 0x28).extractLsb' 8 24 = 0) ∧
  ∀ (s : State) (rest : List Access) (o : Nat) (w : Word), s.First ⟨.write w, o, 32⟩ rest → o % 4 = 0 → 0x04 ≤ o →
    o ≤ 0x3C → step s = .next { s with pending := rest }

/-- R76: an access that is not an aligned 32-bit access to an offset in [0x00, 0x3C] is refused. -/
def Obligations.OutsideAccessRefused : Prop :=
  ∀ (s : State) (rest : List Access) (a : Access), s.First a rest →
    a.width ≠ 32 ∨ a.offset % 4 ≠ 0 ∨ 0x3C < a.offset → step s = .refused (.outsideInterface a)

/-- R31, R77: for every base address `CORE_BASE`, the block's 64 bytes are its own, and a bus access is in its interface
exactly when the bus address is 4-byte aligned and the access 32 bits wide. That the base address is itself aligned is
the parameter table's constraint (92_eei_decisions.md, log entry 5). -/
def Obligations.BusAddressesOfTheBlock : Prop :=
  ∀ (k : AccessKind) (addr width : Nat),
    (busAccess k addr width = none ↔ addr < Config.coreBase ∨ Config.coreBase + 64 ≤ addr) ∧
    ∀ a, busAccess k addr width = some a → a.kind = k ∧ Config.coreBase + a.offset = addr ∧
      (a.inInterface = true ↔ width = 32 ∧ addr % 4 = 0)

/-- R48: every element of both engines at reset, every storage slot 0x00; INIT of an engine gives that engine the same state
and leaves the other alone, and so does the reset input for both. -/
def Obligations.ResetValues : Prop :=
  (State.reset.enc.run = .ready ∧ State.reset.enc.ew.wp = 0 ∧ State.reset.enc.ew.n = 0 ∧ State.reset.enc.la.ri = 0 ∧
    State.reset.enc.la.wi = 0 ∧ State.reset.enc.la.ls = 0 ∧ State.reset.enc.pk.acc = 0 ∧ State.reset.enc.pk.cnt = 0 ∧
    State.reset.enc.inCount = 0 ∧ State.reset.enc.outCount = 0 ∧ State.reset.enc.errSeq = false ∧
    State.reset.enc.errCmd = false) ∧
  (State.reset.dec.run = .ready ∧ State.reset.dec.phase = .accumulating ∧ State.reset.dec.dw.wp = 0 ∧
    State.reset.dec.dw.n = 0 ∧ State.reset.dec.ca.dacc = 0 ∧ State.reset.dec.ca.dcnt = 0 ∧
    State.reset.dec.inCount = 0 ∧ State.reset.dec.outCount = 0 ∧ State.reset.dec.errSeq = false ∧
    State.reset.dec.errCmd = false ∧ State.reset.dec.refOor = false) ∧
  (∀ a, State.reset.enc.ew.W.read a = 0x00 ∧ State.reset.enc.la.Q.read a = 0x00 ∧ State.reset.dec.dw.W.read a = 0x00) ∧
  (∀ (s : State) (d : Byte), exec (.encInit d) s = .next { s with enc := { State.reset.enc with out := s.enc.out } } ∧
    exec (.decInit d) s = .next { s with dec := { State.reset.dec with out := s.dec.out } }) ∧
  ∀ s : State, s.rst = true → ∃ t, step s = .next t ∧ t.enc = { State.reset.enc with out := s.enc.out } ∧
    t.dec = { State.reset.dec with out := s.dec.out }

/-- R280: the reset input, in any state, puts both engines into exactly the state ENC.INIT and DEC.INIT produce, the reset
state; it emits nothing and discards every command not yet performed. -/
def Obligations.ResetInput : Prop :=
  ∀ s : State, s.rst = true → ∃ t, step s = .next t ∧
    (∀ d u v, exec (.encInit d) s = .next u → exec (.decInit d) s = .next v → t.enc = u.enc ∧ t.dec = v.dec) ∧
    t.enc = { State.reset.enc with out := s.enc.out } ∧ t.dec = { State.reset.dec with out := s.dec.out } ∧
    ∀ a ∈ t.pending, a.isCommand = false

/-- R261: with nothing to do the block holds its state. -/
def Obligations.IdleHoldsState : Prop := ∀ s : State, s.Quiet → step s = .next s

/-- R250: no command and no code word stops an engine, and none leaves it in a state from which INIT does not recover. -/
def Obligations.EveryInstructionGoesOn : Prop :=
  ∀ (i : Instr) (s : State), ∃ t, exec i s = .next t ∧ ∀ d,
    exec (.encInit d) t = .next { t with enc := { Encoder.reset with out := t.enc.out } } ∧
    exec (.decInit d) t = .next { t with dec := { Decoder.reset with out := t.dec.out } }

/-! ### Invariants (10_state.md section 5) -/

/-- From every state in which the between-command invariants hold (R46, with R65, R67, R72 and the canonical form of the
storages), every step leads to one in which they hold. R46, R65 and R72 are inferences the spec marks as its own. -/
def Obligations.StepKeepsInv : Prop := ∀ s t : State, s.Inv → step s = .next t → t.Inv

/-- The between-command invariants (R46, an inference the spec marks as its own) hold at reset. -/
def Obligations.ResetMeetsInv : Prop := State.reset.Inv

/-- Between commands the numbers of pending bits stay even, as they are at reset (R183 and R187, in sentences the spec marks
as derived). -/
def Obligations.PendingBitsStayEven : Prop :=
  State.reset.EvenCounts ∧ ∀ s t : State, s.Inv → s.EvenCounts → step s = .next t → t.EvenCounts

/-- R30, R255: a flag is cleared only by INIT of its own engine or by reset. -/
def Obligations.FlagsAreSticky : Prop :=
  ∀ (s t : State) (f : ErrFlag), step s = .next t → s.flag f = true → t.flag f = false →
    s.rst = true ∨ ∃ rest w i, s.First ⟨.write w, 0x00, 32⟩ rest ∧ decode .cmd32 w.toNat = .ok i ∧ isInitOf i f.engine = true

/-- R251, R30: after an instruction a flag is set exactly when the instruction is not its engine's INIT, and the flag was set
before or the instruction meets the flag's cause. For DEC.BYTE the cause of REF_OOR is that the code word completed by the
byte decodes to COPY4, COPY8 or COPY16 `p` with `p + L > DW.n` (`CompletesMalformed`). A reserved command word, the cause of
the ERR_CMD flags, is no instruction (see CommandCheckOrder). -/
def Obligations.FlagCauses : Prop :=
  ∀ (i : Instr) (s t : State), exec i s = .next t →
    (t.enc.errSeq = true ↔ isInitOf i .enc = false ∧
      (s.enc.errSeq = true ∨ s.enc.run = .done ∧ ((∃ d, i = .encByte d) ∨ ∃ d, i = .encEnd d))) ∧
    (t.enc.errCmd = true ↔ isInitOf i .enc = false ∧ s.enc.errCmd = true) ∧
    (t.dec.errSeq = true ↔ isInitOf i .dec = false ∧
      (s.dec.errSeq = true ∨ s.dec.run = .done ∧ ((∃ d, i = .decByte d) ∨ ∃ d, i = .decEnd d))) ∧
    (t.dec.errCmd = true ↔ isInitOf i .dec = false ∧ s.dec.errCmd = true) ∧
    (t.dec.refOor = true ↔ isInitOf i .dec = false ∧ (s.dec.refOor = true ∨
      (∃ p, i = .copy4 p ∧ s.dec.dw.n.toNat < p.toNat + 4) ∨ (∃ p, i = .copy8 p ∧ s.dec.dw.n.toNat < p.toNat + 8) ∨
      (∃ p, i = .copy16 p ∧ s.dec.dw.n.toNat < p.toNat + 16) ∨
      ∃ b, i = .decByte b ∧ s.dec.run = .ready ∧ s.dec.CompletesMalformed b))

/-! ### Engines (R5, R20, R80, R288) -/

/-- R5, R20, R80: an instruction of one engine writes nothing of the other engine and nothing of the port, and what it does
to its own engine depends on that engine's state alone. -/
def Obligations.EnginesShareNoState : Prop :=
  ∀ (i : Instr) (s s' t t' : State), exec i s = .next t → exec i s' = .next t' →
    (engineOf i = .enc → t = { s with enc := t.enc } ∧ (s.enc = s'.enc → t.enc = t'.enc)) ∧
    (engineOf i = .dec → t = { s with dec := t.dec } ∧ (s.dec = s'.dec → t.dec = t'.dec))

/-- However the host interleaves commands, each engine ends as if only its own commands had been written (R288, an inference
the spec marks as its own). -/
def Obligations.InterleavingIsFree : Prop :=
  ∀ (is : List Instr) (s : State), ∃ t te td, execAll is s = .next t ∧
    execAll (is.filter fun i => engineOf i = .enc) s = .next te ∧
    execAll (is.filter fun i => engineOf i = .dec) s = .next td ∧ t.enc = te.enc ∧ t.dec = td.dec

/-- R29: from 0 at INIT and at reset, the output counters count exactly the bytes emitted, modulo 2^32, and the input
counters the accepted BYTE commands and nothing else; no instruction takes an emitted byte back (R45). -/
def Obligations.CountersCountBytes : Prop :=
  ∀ (i : Instr) (s t : State), exec i s = .next t →
    (isInitOf i .enc = false → ∃ bytes, t.enc.out = s.enc.out ++ bytes ∧
      t.enc.outCount = s.enc.outCount + BitVec.ofNat 32 bytes.length ∧
      (∀ d, i = .encByte d → s.enc.run = .ready → t.enc.inCount = s.enc.inCount + 1) ∧
      ((∀ d, i ≠ .encByte d) ∨ s.enc.run = .done → t.enc.inCount = s.enc.inCount)) ∧
    (isInitOf i .enc = true → t.enc.inCount = 0 ∧ t.enc.outCount = 0 ∧ t.enc.out = s.enc.out) ∧
    (isInitOf i .dec = true → t.dec.inCount = 0 ∧ t.dec.outCount = 0 ∧ t.dec.out = s.dec.out) ∧
    (State.reset.enc.inCount = 0 ∧ State.reset.enc.outCount = 0 ∧ State.reset.dec.inCount = 0 ∧
      State.reset.dec.outCount = 0) ∧
    (isInitOf i .dec = false → ∃ bytes, t.dec.out = s.dec.out ++ bytes ∧
      t.dec.outCount = s.dec.outCount + BitVec.ofNat 32 bytes.length ∧
      (∀ b, i = .decByte b → s.dec.run = .ready → t.dec.inCount = s.dec.inCount + 1) ∧
      ((∀ b, i ≠ .decByte b) ∨ s.dec.run = .done → t.dec.inCount = s.dec.inCount))

/-! ### The encoder (40_encoder.md, 41_bit_packing.md section 1) -/

/-- R140, R210: the encodings of INIT, and INIT of an engine in any run state: every element of that engine at its value, nothing emitted, the other
engine untouched; a storage that lists nothing holds 0x00 in every slot. -/
def Obligations.InitResult : Prop :=
  ∀ (s : State) (d : Byte),
    exec (.encInit d) s = .next { s with enc :=
      { run := .ready, ew := { W := [], wp := 0, n := 0 }, la := { Q := [], ri := 0, wi := 0, ls := 0 },
        pk := { acc := 0, cnt := 0 }, inCount := 0, outCount := 0, errSeq := false, errCmd := false, out := s.enc.out } } ∧
    exec (.decInit d) s = .next { s with dec :=
      { run := .ready, phase := .accumulating, dw := { W := [], wp := 0, n := 0 }, ca := { dacc := 0, dcnt := 0 },
        inCount := 0, outCount := 0, errSeq := false, errCmd := false, refOor := false, out := s.dec.out } } ∧
    (∀ a, Memory.read [] a = 0x00) ∧
    encode (.encInit d) = 0x00000100 ||| d.toNat ∧ encode (.decInit d) = 0x00000900 ||| d.toNat

/-- R153, R226: a BYTE or END command to an engine in DONE sets its ERR_SEQ and changes nothing else. -/
def Obligations.DoneRejectsByteAndEnd : Prop :=
  ∀ (s : State) (d : Byte),
    (s.enc.run = .done →
      exec (.encByte d) s = .next { s with enc := { s.enc with errSeq := true } } ∧
      exec (.encEnd d) s = .next { s with enc := { s.enc with errSeq := true } }) ∧
    (s.dec.run = .done →
      exec (.decByte d) s = .next { s with dec := { s.dec with errSeq := true } } ∧
      exec (.decEnd d) s = .next { s with dec := { s.dec with errSeq := true } })

/-- R141, R142: an ENC.BYTE that does not fill the lookahead counts and pushes the byte, and does nothing else. -/
def Obligations.EncByteAccumulates : Prop :=
  ∀ (s : State) (d : Byte), s.enc.run = .ready → s.enc.la.ls.toNat < 15 →
    exec (.encByte d) s = .next { s with enc := { s.enc with
      inCount := s.enc.inCount + 1
      la := { Q := s.enc.la.Q.write s.enc.la.wi.toNat d, ri := s.enc.la.ri, wi := s.enc.la.wi + 1,
              ls := s.enc.la.ls + 1 } } }

/-- R143 to R148: the sixteenth byte, when some candidate matches: the longest of 16, 8 and 4 that matches at all is taken,
at its smallest index; its code word is packed and the matched bytes move to the window, oldest first. -/
def Obligations.EncByteTakesMatch : Prop :=
  ∀ (s : State) (d : Byte) (len p : Nat) (tag : BitVec 2), s.enc.run = .ready → s.enc.la.ls.toNat = 15 →
    let e := s.enc.push d
    (len, tag) ∈ [(4, 0b01#2), (8, 0b10#2), (16, 0b11#2)] → e.RunMatches len p → (∀ q < p, ¬e.RunMatches len q) →
    (∀ longer ∈ [8, 16], len < longer → ∀ q, ¬e.RunMatches longer q) →
    ∃ t, exec (.encByte d) s = .next t ∧ t = { s with enc := t.enc } ∧
      t.enc.stream = s.enc.stream ++ codeBits (tag ++ BitVec.ofNat 8 p) ∧
      t.enc.ew = s.enc.ew.appendAll ((List.range len).map e.la.peek) ∧
      t.enc.la = { Q := s.enc.la.Q.write s.enc.la.wi.toNat d, ri := s.enc.la.ri + BitVec.ofNat 4 len,
                   wi := s.enc.la.wi + 1, ls := BitVec.ofNat 5 (16 - len) } ∧
      t.enc.inCount = s.enc.inCount + 1 ∧ t.enc.run = .ready ∧ t.enc.errSeq = s.enc.errSeq ∧ t.enc.errCmd = s.enc.errCmd

/-- R149: the sixteenth byte, when nothing matches: the oldest byte is packed as a literal and moves to the window. -/
def Obligations.EncByteTakesLiteral : Prop :=
  ∀ (s : State) (d : Byte), s.enc.run = .ready → s.enc.la.ls.toNat = 15 →
    let e := s.enc.push d
    (∀ len ∈ [4, 8, 16], ∀ q, ¬e.RunMatches len q) →
    ∃ t, exec (.encByte d) s = .next t ∧ t = { s with enc := t.enc } ∧
      t.enc.stream = s.enc.stream ++ codeBits (0b00#2 ++ e.la.peek 0) ∧
      t.enc.ew = s.enc.ew.append (e.la.peek 0) ∧
      t.enc.la = { Q := s.enc.la.Q.write s.enc.la.wi.toNat d, ri := s.enc.la.ri + 1, wi := s.enc.la.wi + 1, ls := 15 } ∧
      t.enc.inCount = s.enc.inCount + 1 ∧ t.enc.run = .ready ∧ t.enc.errSeq = s.enc.errSeq ∧ t.enc.errCmd = s.enc.errCmd

/-- R150: an accepted ENC.BYTE packs at most one code word, and one exactly when it fills the lookahead; LA.ls is then 15,
12, 8 or 0 by the code word's tag. -/
def Obligations.OneDecisionPerByte : Prop :=
  ∀ (s : State) (d : Byte), s.enc.run = .ready → s.enc.la.ls.toNat ≤ 15 → ∃ t, exec (.encByte d) s = .next t ∧
    (s.enc.la.ls.toNat < 15 → t.enc.stream = s.enc.stream ∧ t.enc.la.ls.toNat = s.enc.la.ls.toNat + 1) ∧
    (s.enc.la.ls.toNat = 15 → ∃ (tag : BitVec 2) (pl : Byte), t.enc.stream = s.enc.stream ++ codeBits (tag ++ pl) ∧
      t.enc.la.ls.toNat = if tag = 0b00#2 then 15 else if tag = 0b01#2 then 12 else if tag = 0b10#2 then 8 else 0)

/-- Every back-reference the encoder emits is a valid index for its length at the time of the decision (R154, an inference
the spec marks as its own). -/
def Obligations.EmittedReferencesAreValid : Prop :=
  ∀ (s t : State) (d : Byte) (len : Nat) (tag : BitVec 2) (p : Byte), s.enc.run = .ready → s.enc.ew.n.toNat ≤ 256 →
    exec (.encByte d) s = .next t → (len, tag) ∈ [(4, 0b01#2), (8, 0b10#2), (16, 0b11#2)] →
    t.enc.stream = s.enc.stream ++ codeBits (tag ++ p) → p.toNat + len ≤ s.enc.ew.n.toNat ∧ p.toNat ≤ 252

/-- R151, R152, R183, R184: ENC.END in READY packs every lookahead byte as a literal, oldest first, moves it to the window,
pads the last byte with zeros and ends the session; with nothing in the lookahead and no pending bits it emits nothing. -/
def Obligations.EncEndDrains : Prop :=
  ∀ (s : State) (d : Byte), s.enc.run = .ready → ∃ t, exec (.encEnd d) s = .next t ∧ t = { s with enc := t.enc } ∧
    t.enc.run = .done ∧ t.enc.pk.cnt = 0 ∧ t.enc.la.ls = 0 ∧ t.enc.la.Q = s.enc.la.Q ∧ t.enc.la.wi = s.enc.la.wi ∧
    t.enc.la.ri = s.enc.la.ri + BitVec.ofNat 4 s.enc.la.ls.toNat ∧
    t.enc.ew = s.enc.ew.appendAll s.enc.la.contents ∧
    t.enc.out.flatMap byteBits = s.enc.stream ++ s.enc.la.contents.flatMap (fun v => codeBits (0b00#2 ++ v))
      ++ List.replicate ((8 - (s.enc.pk.cnt.toNat + 10 * s.enc.la.ls.toNat) % 8) % 8) false ∧
    t.enc.inCount = s.enc.inCount ∧ t.enc.errSeq = s.enc.errSeq ∧ t.enc.errCmd = s.enc.errCmd ∧
    (0 < s.enc.pk.cnt.toNat + s.enc.la.ls.toNat → t.enc.pk.acc = 0) ∧
    (s.enc.pk.cnt.toNat + s.enc.la.ls.toNat = 0 →
      t.enc.out = s.enc.out ∧ t.enc.outCount = s.enc.outCount ∧ t.enc.pk.acc = s.enc.pk.acc)

/-- The output bounds of the encoder's commands (R155, an inference the spec marks as its own). -/
def Obligations.EncoderOutputBounds : Prop :=
  ∀ (s : State) (d : Byte), s.enc.run = .ready → s.enc.la.ls.toNat ≤ 15 →
    (∃ t bytes, exec (.encByte d) s = .next t ∧ t.enc.out = s.enc.out ++ bytes ∧
      (s.enc.la.ls.toNat < 15 → bytes.length = 0) ∧
      (s.enc.la.ls.toNat = 15 → bytes.length = 1 ∨ bytes.length = 2)) ∧
    (∃ t bytes, exec (.encEnd d) s = .next t ∧ t.enc.out = s.enc.out ++ bytes ∧ bytes.length ≤ 20)

/-- Every accepted original byte is in the window's history or in the lookahead, in order, exactly once; the counter counts
it modulo 2^32, and WIN_SIZE is min(A, 256) (R47, an inference the spec marks as its own). -/
def Obligations.EncoderAccountsForEveryByte : Prop :=
  ∀ (s : State) (d : Byte) (input : List Byte),
    ∃ t finalized, execAll (.encInit d :: input.map .encByte) s = .next t ∧
      input = finalized ++ t.enc.la.contents ∧ t.enc.ew = Window.empty.appendAll finalized ∧
      t.enc.ew.n.toNat = min finalized.length 256 ∧ t.enc.la.ls.toNat ≤ 15 ∧
      t.enc.inCount = BitVec.ofNat 32 (finalized.length + t.enc.la.ls.toNat)

/-- What the encoder emits between INIT and END depends on the bytes fed alone (R156, an inference the spec marks as its
own). -/
def Obligations.EncoderIsDeterministic : Prop :=
  ∀ (s s' : State) (input : List Byte), ∃ t t' emitted,
    execAll (encodeCommands input) s = .next t ∧ execAll (encodeCommands input) s' = .next t' ∧
    t.enc.out = s.enc.out ++ emitted ∧ t'.enc.out = s'.enc.out ++ emitted

/-! ### The stream (30_encoding.md R104 to R107, 41_bit_packing.md) -/

/-- R104: bit `i` of the `j`-th code word is stream bit `10 j + (9 - i)`, which is bit `7 - (s mod 8)` of packed byte
`s div 8`. -/
def Obligations.StreamBitMapping : Prop :=
  ∀ (cws : List CodeWord) (j i : Nat) (hj : j < cws.length), i < 10 →
    let s := 10 * j + (9 - i)
    ((packStream cws)[s / 8]?).map (fun b => b.getLsbD (7 - s % 8)) = some (cws[j].getLsbD i)

/-- R105 and R106, in what the spec marks as derived: a stream of `c` code words is `ceil(10 c / 8)` bytes, and the bits after the last code word are 0. -/
def Obligations.StreamLengthAndPadding : Prop :=
  ∀ cws : List CodeWord, (packStream cws).length = (10 * cws.length + 7) / 8 ∧
    (packStream cws).flatMap byteBits
      = cws.flatMap codeBits ++ List.replicate ((8 - 10 * cws.length % 8) % 8) false ∧
    (8 - 10 * cws.length % 8) % 8 ∈ [0, 2, 4, 6]

/-- What ENCODE emits is the packed form (R104, R105) of a sequence of code words, at most one for each byte; fewer than 16
bytes are literals (R151; R157, an inference the spec marks as its own). -/
def Obligations.EncoderEmitsPackedCodeWords : Prop :=
  ∀ (s : State) (input : List Byte), ∃ t cws, execAll (encodeCommands input) s = .next t ∧ t.enc.run = .done ∧
    t.enc.out = s.enc.out ++ packStream cws ∧ cws.length ≤ input.length ∧
    (input.length < 16 → cws = input.map fun v => (0b00#2 ++ v : CodeWord))

/-! ### The decoder (42_decoder_dispatch.md, 41_bit_packing.md section 2) -/

/-- R188, R212: DEC.END in READY discards the leftover bits, whatever they are, emits nothing and ends the session; in DONE it
sets ERR_SEQ and does nothing else. -/
def Obligations.DecEndResult : Prop :=
  ∀ (s : State) (d : Byte), encode (.decEnd d) = 0x00000B00 ||| d.toNat ∧
    (s.dec.run = .ready →
      exec (.decEnd d) s = .next { s with dec := { s.dec with ca := { dacc := 0, dcnt := 0 }, run := .done } }) ∧
    (s.dec.run = .done → exec (.decEnd d) s = .next { s with dec := { s.dec with errSeq := true } })

/-- R185: a DEC.BYTE whose bits complete no code word only counts the byte and shifts it in. -/
def Obligations.DecByteAccumulates : Prop :=
  ∀ (s : State) (b : Byte), s.dec.run = .ready → s.dec.ca.dcnt.toNat ≤ 1 →
    exec (.decByte b) s = .next { s with dec := { s.dec with
      inCount := s.dec.inCount + 1
      ca := { dacc := (s.dec.ca.dacc <<< 8) ||| b.setWidth 10, dcnt := s.dec.ca.dcnt + 8 } } }

/-- R186: a DEC.BYTE that completes a code word with its first `k` bits does what that code word does, and then holds
its other bits. -/
def Obligations.DecByteDispatches : Prop :=
  ∀ (s : State) (b : Byte) (k : Nat), s.dec.run = .ready → s.dec.phase = .accumulating →
    s.dec.ca.dcnt.toNat + k = 10 → 1 ≤ k → k ≤ 8 →
    ∃ i u, decode .cw10 ((s.dec.ca.dacc <<< k) ||| (b >>> (8 - k)).setWidth 10).toNat = .ok i ∧
      exec i { s with dec := { s.dec with inCount := s.dec.inCount + 1 } } = .next u ∧
      exec (.decByte b) s = .next { u with dec := { u.dec with
        ca := { dacc := BitVec.ofNat 10 (b.toNat % 2 ^ (8 - k)), dcnt := BitVec.ofNat 4 (8 - k) } } }

/-- A DEC.BYTE between commands completes at most one code word and emits 0, or 1, 4, 8 or 16 bytes; from INIT, ACC_BITS
after the m-th byte is 8m mod 10 (R187, an inference the spec marks as its own). -/
def Obligations.DecByteEmission : Prop :=
  (∀ (s : State) (b : Byte), s.dec.Inv → s.dec.run = .ready → ∃ t bytes, exec (.decByte b) s = .next t ∧
    t.dec.out = s.dec.out ++ bytes ∧ t.dec.ca.dcnt.toNat = (s.dec.ca.dcnt.toNat + 8) % 10 ∧
    (s.dec.ca.dcnt.toNat + 8 < 10 → bytes.length = 0) ∧
    (10 ≤ s.dec.ca.dcnt.toNat + 8 → bytes.length ∈ [1, 4, 8, 16])) ∧
  ∀ (s : State) (d : Byte) (packed : List Byte) (b : Byte), ∃ t u,
    execAll (.decInit d :: packed.map .decByte) s = .next t ∧ t.dec.ca.dcnt.toNat = 8 * packed.length % 10 ∧
    exec (.decByte b) t = .next u ∧
    (t.dec.out.length < u.dec.out.length ↔ 8 * packed.length / 10 < 8 * (packed.length + 1) / 10)

/-- R214: LIT emits the byte, counts it and appends it to the window; no flag and nothing else changes. -/
def Obligations.LitResult : Prop :=
  ∀ (s : State) (v : Byte), encode (.lit v) = v.toNat ∧
    exec (.lit v) s = .next { s with dec := { s.dec with
      out := s.dec.out ++ [v]
      outCount := s.dec.outCount + 1
      dw := { W := s.dec.dw.W.write s.dec.dw.wp.toNat v, wp := s.dec.dw.wp + 1,
              n := if s.dec.dw.n.toNat < 256 then s.dec.dw.n + 1 else s.dec.dw.n } } }

/-- R62, R64: as a list of entries, oldest first, the window after a LIT is the window before with the byte as its newest
entry, the oldest dropped if it was full. -/
def Obligations.LitWindowEntries : Prop :=
  ∀ (s t : State) (v : Byte), s.dec.dw.n.toNat ≤ 256 → exec (.lit v) s = .next t →
    t.dec.dw.contents = (if s.dec.dw.n.toNat = 256 then s.dec.dw.contents.tail else s.dec.dw.contents) ++ [v]

/-- R215 to R218: a back-reference of length `len` from index `p`, well-formed or not: the start slot is fixed at dispatch,
each byte is read, emitted and appended before the next is read, and REF_OOR is set when `p + len` exceeds the window's size. -/
def Obligations.CopyResult : Prop :=
  ∀ (s : State) (p : Byte) (len tag : Nat) (i : Instr),
    (len, tag, i) ∈ [(4, 0b01, .copy4 p), (8, 0b10, .copy8 p), (16, 0b11, .copy16 p)] →
    encode i = 2 ^ 8 * tag + p.toNat ∧
    ∃ bytes : List Byte, bytes.length = len ∧
      exec i s = .next { s with dec := { s.dec with
        out := s.dec.out ++ bytes
        outCount := s.dec.outCount + BitVec.ofNat 32 len
        dw := s.dec.dw.appendAll bytes
        refOor := s.dec.refOor || decide (s.dec.dw.n.toNat < p.toNat + len) } } ∧
      ∀ (k : Nat) (hk : k < bytes.length),
        bytes[k] = (s.dec.dw.appendAll (bytes.take k)).W.read
          ((s.dec.dw.wp - s.dec.dw.n.setWidth 8) + p + BitVec.ofNat 8 k).toNat

/-- A back-reference that is not malformed emits exactly the window entries it names, as they stood at dispatch (R221, an
inference the spec marks as its own). -/
def Obligations.ValidCopyReadsWindow : Prop :=
  ∀ (s : State) (p : Byte) (len : Nat) (i : Instr), (len, i) ∈ [(4, .copy4 p), (8, .copy8 p), (16, .copy16 p)] →
    s.dec.dw.n.toNat ≤ 256 → p.toNat + len ≤ s.dec.dw.n.toNat →
    ∃ t, exec i s = .next t ∧ t.dec.out = s.dec.out ++ (List.range len).map (fun k => s.dec.dw.read (p.toNat + k)) ∧
      t.dec.dw = s.dec.dw.appendAll ((List.range len).map fun k => s.dec.dw.read (p.toNat + k)) ∧
      t.dec.refOor = s.dec.refOor

/-- R219, D13: the meanings of the copies and of DEC.BYTE with MALFORMED_REF_POLICY as an argument. Under `fault` they stop
exactly where a malformed reference is dispatched, and everywhere else they answer what the instruction answers; under `copy`
they answer what the instruction answers everywhere. That the instructions of the model run under `copy` is the model's choice
(log entry 4). -/
def Obligations.FaultPolicyStopsOnlyAtMalformed : Prop :=
  (∀ (L : CopyLength) (len : Nat) (p : Byte) (i : Instr) (s : State),
    (L, len, i) ∈ [(.four, 4, .copy4 p), (.eight, 8, .copy8 p), (.sixteen, 16, .copy16 p)] →
    ∃ t, exec i s = .next t ∧ exec i s = execCopyUnder Config.malformedRefPolicy L p s ∧
      execCopyUnder .copy L p s = .next t ∧
      (s.dec.dw.n.toNat < p.toNat + len → execCopyUnder .fault L p s = .fault .malformedRef) ∧
      (p.toNat + len ≤ s.dec.dw.n.toNat → execCopyUnder .fault L p s = .next t)) ∧
  ∀ (b : Byte) (s : State), ∃ t, exec (.decByte b) s = .next t ∧
    exec (.decByte b) s = execDecByteUnder Config.malformedRefPolicy b s ∧ execDecByteUnder .copy b s = .next t ∧
    (s.dec.run = .ready → s.dec.CompletesMalformed b → execDecByteUnder .fault b s = .fault .malformedRef) ∧
    (s.dec.run = .done ∨ ¬s.dec.CompletesMalformed b → execDecByteUnder .fault b s = .next t)

/-- R219, R220: DECODE of a stream leaves REF_OOR 0 exactly when the stream is well-formed: of the code words among its bits,
taken ten at a time, none is a copy with `p + L > DW.n` for the window as the code words before it leave it from INIT.
`WellFormedStream` reads no flag; the second clause says what it means of each code word. -/
def Obligations.WellFormedStreamsRaiseNoFlag : Prop :=
  (∀ (s : State) (packed : List Byte), ∃ t, execAll (decodeCommands packed) s = .next t ∧
    (t.dec.refOor = false ↔ WellFormedStream packed = true)) ∧
  ∀ (s : State) (d : Byte) (packed : List Byte) (cws : List CodeWord) (rest : List Bool),
    packed.flatMap byteBits = cws.flatMap codeBits ++ rest → rest.length < 10 →
    (WellFormedStream packed = true ↔ ∀ (j : Nat) (hj : j < cws.length) (len : Nat) (p : Byte) (u : State),
      (len, decodeCode cws[j]) ∈ [(4, .copy4 p), (8, .copy8 p), (16, .copy16 p)] →
      execAll (.decInit d :: (cws.take j).map decodeCode) s = .next u → p.toNat + len ≤ u.dec.dw.n.toNat)

/-- R107, R224: bytes fed to a fresh decoder (as INIT and reset leave it) and DEC.END perform the complete code words among
their bits, ten at a time in order, and discard the fewer than ten bits that are left; no flag and nothing else tells of
them. -/
def Obligations.DecoderFraming : Prop :=
  ∀ (s : State) (packed : List Byte) (cws : List CodeWord) (rest : List Bool),
    s.dec = { State.reset.dec with out := s.dec.out } →
    packed.flatMap byteBits = cws.flatMap codeBits ++ rest → rest.length < 10 →
    ∃ t u, execAll (packed.map .decByte ++ [.decEnd 0]) s = .next t ∧ execAll (cws.map decodeCode) s = .next u ∧
      t = { u with dec := { u.dec with run := .done, inCount := BitVec.ofNat 32 packed.length } }

/-- The packed form of `c` code words is decoded as exactly those code words, and the pad bits that are left are zero and
fewer than ten (R189, an inference the spec marks as its own). -/
def Obligations.PaddingFormsNoCodeWord : Prop :=
  ∀ (s : State) (d : Byte) (cws : List CodeWord), ∃ t u,
    execAll (.decInit d :: (packStream cws).map .decByte) s = .next t ∧
    execAll (.decInit d :: cws.map decodeCode) s = .next u ∧
    t.dec.dw = u.dec.dw ∧ t.dec.out = u.dec.out ∧ t.dec.outCount = u.dec.outCount ∧ t.dec.refOor = u.dec.refOor ∧
    t.dec.ca.dacc = 0 ∧ t.dec.ca.dcnt.toNat = (8 - 10 * cws.length % 8) % 8

/-! ### Encoder and decoder together -/

/-- R222, an inference the spec marks as its own: each code word the encoder packs, in an ENC.BYTE or in ENC.END, keeps a
decoder with the same window in step with it. The windows are equal again after the dispatch, the decoder has output the bytes
that left the lookahead, and no flag is set. ENC.END packs one literal for each lookahead byte, and its window after the `k`-th
is the window before with the `k` oldest of these bytes appended (R152). -/
def Obligations.WindowsStayIdentical : Prop :=
  (∀ (s t u : State) (d : Byte) (cw : CodeWord), s.enc.Inv → s.enc.run = .ready → u.dec.dw = s.enc.ew →
    exec (.encByte d) s = .next t → t.enc.stream = s.enc.stream ++ codeBits cw →
    ∃ v bytes, exec (decodeCode cw) u = .next v ∧ v.dec.dw = t.enc.ew ∧ v.dec.refOor = u.dec.refOor ∧
      v.dec.out = u.dec.out ++ bytes ∧ s.enc.la.contents ++ [d] = bytes ++ t.enc.la.contents) ∧
  ∀ (s t u : State) (d : Byte) (cws : List CodeWord) (pad : Nat), s.enc.Inv → s.enc.run = .ready → u.dec.dw = s.enc.ew →
    exec (.encEnd d) s = .next t → pad < 8 →
    t.enc.out.flatMap byteBits = s.enc.stream ++ cws.flatMap codeBits ++ List.replicate pad false →
    cws.length = s.enc.la.contents.length ∧ t.enc.ew = s.enc.ew.appendAll s.enc.la.contents ∧
    ∀ k ≤ cws.length, ∃ v, execAll ((cws.take k).map decodeCode) u = .next v ∧
      v.dec.dw = s.enc.ew.appendAll (s.enc.la.contents.take k) ∧ v.dec.refOor = u.dec.refOor ∧
      v.dec.out = u.dec.out ++ s.enc.la.contents.take k

/-- The round trip: for every byte sequence, decoding what encoding emits emits the sequence (the source's "for all byte
sequences X (including empty), decode(encode(X)) == X"; R223, an inference the spec marks as its own). -/
def Obligations.RoundTrip : Prop :=
  ∀ (s : State) (input : List Byte), ∃ t packed, execAll (encodeCommands input) s = .next t ∧
    t.enc.out = s.enc.out ++ packed ∧
    ∀ u : State, ∃ v, execAll (decodeCommands packed) u = .next v ∧ v.dec.out = u.dec.out ++ input ∧
      v.dec.refOor = false ∧ v.dec.outCount = t.enc.inCount ∧ v.dec.inCount = t.enc.outCount

/-! ### Frames over storage -/

/-- R214 to R218: a code word stores only in the window slots `wp, wp + 1, …` of the bytes it outputs. -/
def Obligations.CodeWordStorageFrame : Prop :=
  ∀ (s t : State) (p : Byte) (len : Nat) (i : Instr) (a : Nat),
    (len, i) ∈ [(1, .lit p), (4, .copy4 p), (8, .copy8 p), (16, .copy16 p)] → exec i s = .next t →
    t = { s with dec := { s.dec with out := t.dec.out, outCount := t.dec.outCount, dw := t.dec.dw, refOor := t.dec.refOor } } ∧
    t.dec.dw.wp = s.dec.dw.wp + BitVec.ofNat 8 len ∧
    ((∀ j < len, a ≠ (s.dec.dw.wp + BitVec.ofNat 8 j).toNat) → t.dec.dw.W.read a = s.dec.dw.W.read a)

/-- R141, R148, R149: an accepted ENC.BYTE stores the byte in lookahead slot `wi`, and, when it fills the lookahead, the bytes
that leave it in the window slots from `wp` on; every other slot of the block keeps its byte. -/
def Obligations.EncByteStorageFrame : Prop :=
  ∀ (s t : State) (d : Byte) (a : Nat), exec (.encByte d) s = .next t → s.enc.run = .ready →
    t = { s with enc := t.enc } ∧
    t.enc.la.Q.read a = (if a = s.enc.la.wi.toNat then d else s.enc.la.Q.read a) ∧
    (s.enc.la.ls.toNat ≠ 15 → t.enc.ew = s.enc.ew) ∧
    (s.enc.la.ls.toNat = 15 → (∀ j < 16 - t.enc.la.ls.toNat, a ≠ (s.enc.ew.wp + BitVec.ofNat 8 j).toNat) →
      t.enc.ew.W.read a = s.enc.ew.W.read a) ∧
    t.enc.run = s.enc.run ∧ t.enc.errSeq = s.enc.errSeq ∧ t.enc.errCmd = s.enc.errCmd

/-- R151: ENC.END in READY stores nothing in the lookahead, and only the drained bytes in the window slots from `wp` on. -/
def Obligations.EncEndStorageFrame : Prop :=
  ∀ (s t : State) (d : Byte) (a : Nat), exec (.encEnd d) s = .next t → s.enc.run = .ready →
    t.enc.la.Q = s.enc.la.Q ∧
    ((∀ j < s.enc.la.ls.toNat, a ≠ (s.enc.ew.wp + BitVec.ofNat 8 j).toNat) →
      t.enc.ew.W.read a = s.enc.ew.W.read a) ∧
    t.enc.ew.wp = s.enc.ew.wp + BitVec.ofNat 8 s.enc.la.ls.toNat

/-- R211, R185: an accepted DEC.BYTE stores only in the window slots, from `wp` on, of the bytes it emits, and changes no run
state and no flag but REF_OOR. -/
def Obligations.DecByteStorageFrame : Prop :=
  ∀ (s t : State) (b : Byte) (a : Nat), exec (.decByte b) s = .next t → s.dec.run = .ready →
    t = { s with dec := t.dec } ∧ t.dec.run = s.dec.run ∧ t.dec.errSeq = s.dec.errSeq ∧ t.dec.errCmd = s.dec.errCmd ∧
    t.dec.inCount = s.dec.inCount + 1 ∧
    ((∀ j < t.dec.out.length - s.dec.out.length, a ≠ (s.dec.dw.wp + BitVec.ofNat 8 j).toNat) →
      t.dec.dw.W.read a = s.dec.dw.W.read a)
end

