-- ==== Sys2Proof/Laws/Encoding.lean ====
section
/-! SUPPORT. The fields of encoded code words and command words (R100, R110). -/

namespace Sys2Proof

@[simp] theorem codeTag_word (c : CodeFields) : codeTag c.word = c.tag := by
  apply BitVec.eq_of_getLsbD_eq
  intro i hi
  simp only [codeTag, CodeFields.word, BitVec.getLsbD_extractLsb', BitVec.getLsbD_append]
  simp [hi]

@[simp] theorem codePayload_word (c : CodeFields) : codePayload c.word = c.payload := by
  apply BitVec.eq_of_getLsbD_eq
  intro i hi
  simp only [codePayload, CodeFields.word, BitVec.getLsbD_extractLsb', BitVec.getLsbD_append]
  simp [hi]

theorem CodeFields.word_fields (cw : CodeWord) : (⟨codeTag cw, codePayload cw⟩ : CodeFields).word = cw := by
  apply BitVec.eq_of_getLsbD_eq
  intro i hi
  simp only [codeTag, codePayload, CodeFields.word, BitVec.getLsbD_extractLsb', BitVec.getLsbD_append]
  by_cases h : i < 8
  · simp [h]
  · have h9 : i - 8 < 2 := by omega
    simp only [h, h9, if_false, decide_true, Bool.true_and]
    rw [show 8 + (i - 8) = i by omega]

@[simp] theorem commandData_word (c : CommandFields) : commandData c.word = c.data := by
  apply BitVec.eq_of_getLsbD_eq
  intro i hi
  simp only [commandData, CommandFields.word, BitVec.getLsbD_extractLsb', BitVec.getLsbD_append]
  simp [hi]

@[simp] theorem commandOp_word (c : CommandFields) : commandOp c.word = c.op := by
  apply BitVec.eq_of_getLsbD_eq
  intro i hi
  simp only [commandOp, CommandFields.word, BitVec.getLsbD_extractLsb', BitVec.getLsbD_append]
  simp [hi]

@[simp] theorem commandRsvd_word (c : CommandFields) : commandRsvd c.word = c.rsvd := by
  apply BitVec.eq_of_getLsbD_eq
  intro i hi
  simp only [commandRsvd, CommandFields.word, BitVec.getLsbD_extractLsb', BitVec.getLsbD_append]
  have h1 : ¬ (12 + i < 8) := by omega
  have h2 : ¬ (12 + i - 8 < 3) := by omega
  have h3 : ¬ (12 + i - 8 - 3 < 1) := by omega
  simp only [h1, h2, h3, if_false, hi, decide_true, Bool.true_and]
  congr 1
  omega

@[simp] theorem commandEngine_word (c : CommandFields) : commandEngine c.word = c.eng := by
  unfold commandEngine CommandFields.word
  simp only [BitVec.getLsbD_append]
  cases c.eng <;> simp [Engine.bit]

theorem CommandFields.word_fields (w : Word) : (commandFields w).word = w := by
  apply BitVec.eq_of_getLsbD_eq
  intro i hi
  simp only [commandFields, commandRsvd, commandOp, commandData, CommandFields.word, BitVec.getLsbD_extractLsb',
    BitVec.getLsbD_append]
  by_cases h1 : i < 8
  · simp [h1]
  · by_cases h2 : i - 8 < 3
    · simp only [h1, h2, if_false, if_true, decide_true, Bool.true_and]
      rw [show 8 + (i - 8) = i by omega]
    · by_cases h3 : i - 8 - 3 < 1
      · simp only [h1, h2, h3, if_false, if_true]
        obtain rfl : i = 11 := by omega
        unfold commandEngine
        cases h : w.getLsbD 11 <;> simp [Engine.bit]
      · simp only [h1, h2, h3, if_false]
        rw [show 12 + (i - 8 - 3 - 1) = i by omega]
        have : i - 8 - 3 - 1 < 20 := by omega
        simp [this]

/-- Every instruction is well-formed: its operands are any byte (R102, R114). -/
theorem Instr.wf_all (i : Instr) : i.wf = true := by cases i <;> rfl

end Sys2Proof
end

