-- ==== Sys2Proof/Laws/Memory.lean ====
section
/-! SUPPORT. The laws of storage: a read after a write, and the canonical form every operation keeps. -/

namespace Sys2Proof.Machine

@[simp] theorem Memory.read_nil (a : Nat) : Memory.read [] a = Config.unwritten := rfl

theorem Memory.read_filter (m : Memory) (a x : Nat) :
    Memory.read (m.filter fun c => c.1 != a) x = if x = a then Config.unwritten else m.read x := by
  induction m with
  | nil => simp
  | cons c m ih =>
    obtain ⟨y, v⟩ := c
    by_cases hy : y = a
    · subst hy
      simp only [bne_self_eq_false, Bool.false_eq_true, not_false_eq_true, List.filter_cons_of_neg, ih, Memory.read]
      by_cases hx : x = y
      · simp [hx]
      · simp [hx, Ne.symm hx]
    · have : (y != a) = true := by simpa using hy
      simp only [List.filter_cons, this, if_true, Memory.read, ih]
      by_cases hx : y = x
      · subst hx; simp [hy]
      · simp [hx]

theorem Memory.read_put (m : Memory) (a : Nat) (b : Byte) (x : Nat) :
    (m.put a b).read x = if x = a then b else m.read x := by
  induction m with
  | nil => simp [Memory.put, Memory.read, eq_comm]
  | cons c m ih =>
    obtain ⟨y, v⟩ := c
    by_cases h1 : a < y
    · simp [Memory.put, Memory.read, h1, eq_comm]
    · by_cases h2 : y = a
      · subst h2
        simp only [Memory.put, h1, if_false, if_true, Memory.read]
        by_cases hx : x = y
        · simp [hx]
        · simp [hx, Ne.symm hx]
      · simp only [Memory.put, h1, h2, if_false, Memory.read, ih]
        by_cases hx : y = x
        · subst hx; simp [h2]
        · simp [hx]

/-- Every read sees the latest write to its slot, and no other write (R79). -/
theorem Memory.read_write_eq (m : Memory) (a : Nat) (b : Byte) (x : Nat) :
    (m.write a b).read x = if x = a then b else m.read x := by
  unfold Memory.write
  split
  · rw [Memory.read_filter]; simp_all
  · exact Memory.read_put m a b x

@[simp] theorem Memory.read_write_same (m : Memory) (a : Nat) (b : Byte) : (m.write a b).read a = b := by
  simp [Memory.read_write_eq]

theorem Memory.read_write_ne (m : Memory) {a x : Nat} (b : Byte) (h : x ≠ a) : (m.write a b).read x = m.read x := by
  simp [Memory.read_write_eq, h]

theorem Memory.wfFrom_mono {cap lo lo' : Nat} {m : Memory} (h : lo' ≤ lo) (hm : Memory.wfFrom cap lo m = true) :
    Memory.wfFrom cap lo' m = true := by
  cases m with
  | nil => rfl
  | cons c m =>
    simp only [Memory.wfFrom, Bool.and_eq_true, decide_eq_true_eq] at hm ⊢
    exact ⟨⟨⟨by omega, hm.1.1.2⟩, hm.1.2⟩, hm.2⟩

theorem Memory.wfFrom_filter {cap lo : Nat} {m : Memory} (a : Nat) (hm : Memory.wfFrom cap lo m = true) :
    Memory.wfFrom cap lo (m.filter fun c => c.1 != a) = true := by
  induction m generalizing lo with
  | nil => rfl
  | cons c m ih =>
    simp only [Memory.wfFrom, Bool.and_eq_true, decide_eq_true_eq] at hm
    rw [List.filter_cons]
    split
    · simp only [Memory.wfFrom, Bool.and_eq_true, decide_eq_true_eq]
      exact ⟨hm.1, ih hm.2⟩
    · exact Memory.wfFrom_mono (by omega) (ih hm.2)

theorem Memory.wfFrom_put {cap lo a : Nat} {m : Memory} {b : Byte} (hlo : lo ≤ a) (ha : a < cap)
    (hb : b ≠ Config.unwritten) (hm : Memory.wfFrom cap lo m = true) : Memory.wfFrom cap lo (m.put a b) = true := by
  induction m generalizing lo with
  | nil => simp [Memory.put, Memory.wfFrom, hlo, ha, hb]
  | cons c m ih =>
    obtain ⟨y, v⟩ := c
    simp only [Memory.wfFrom, Bool.and_eq_true, decide_eq_true_eq] at hm
    simp only [Memory.put]
    split
    · simp only [Memory.wfFrom, Bool.and_eq_true, decide_eq_true_eq, bne_iff_ne]
      exact ⟨⟨⟨hlo, ha⟩, hb⟩, ⟨⟨by omega, hm.1.1.2⟩, by simpa using hm.1.2⟩, hm.2⟩
    · split
      · subst y
        simp only [Memory.wfFrom, Bool.and_eq_true, decide_eq_true_eq, bne_iff_ne]
        exact ⟨⟨⟨hlo, ha⟩, hb⟩, hm.2⟩
      · simp only [Memory.wfFrom, Bool.and_eq_true, decide_eq_true_eq, bne_iff_ne]
        exact ⟨⟨hm.1.1, by simpa using hm.1.2⟩, ih (by omega) hm.2⟩

/-- A write keeps the canonical form. -/
theorem Memory.wf_write {cap a : Nat} {m : Memory} {b : Byte} (ha : a < cap) (hm : m.wf cap = true) :
    (m.write a b).wf cap = true := by
  unfold Memory.write
  split
  · exact Memory.wfFrom_filter a hm
  · exact Memory.wfFrom_put (Nat.zero_le a) ha (by assumption) hm

@[simp] theorem Memory.wf_nil (cap : Nat) : Memory.wf cap [] = true := rfl

/-- Below its first listed slot a storage holds 0x00. -/
theorem Memory.read_of_wfFrom {cap lo a : Nat} {m : Memory} (hm : Memory.wfFrom cap lo m = true) (ha : a < lo) :
    m.read a = Config.unwritten := by
  induction m generalizing lo with
  | nil => rfl
  | cons c m ih =>
    simp only [Memory.wfFrom, Bool.and_eq_true, decide_eq_true_eq] at hm
    rw [Memory.read, if_neg (by omega)]
    exact ih hm.2 (by omega)

/-- Beyond its capacity a storage lists nothing. -/
theorem Memory.read_of_cap_le {cap lo a : Nat} {m : Memory} (hm : Memory.wfFrom cap lo m = true) (ha : cap ≤ a) :
    m.read a = Config.unwritten := by
  induction m generalizing lo with
  | nil => rfl
  | cons c m ih =>
    simp only [Memory.wfFrom, Bool.and_eq_true, decide_eq_true_eq] at hm
    rw [Memory.read, if_neg (by omega)]
    exact ih hm.2

theorem Memory.eq_of_read_from {cap lo : Nat} {m m' : Memory} (hm : Memory.wfFrom cap lo m = true)
    (hm' : Memory.wfFrom cap lo m' = true) (h : ∀ a, m.read a = m'.read a) : m = m' := by
  induction m generalizing lo m' with
  | nil =>
    cases m' with
    | nil => rfl
    | cons c m' =>
      simp only [Memory.wfFrom, Bool.and_eq_true, decide_eq_true_eq, bne_iff_ne] at hm'
      exact absurd (by simpa [Memory.read] using (h c.1).symm) hm'.1.2
  | cons c m ih =>
    obtain ⟨x, v⟩ := c
    simp only [Memory.wfFrom, Bool.and_eq_true, decide_eq_true_eq, bne_iff_ne] at hm
    cases m' with
    | nil => exact absurd (by simpa [Memory.read] using h x) hm.1.2
    | cons c' m' =>
      obtain ⟨x', v'⟩ := c'
      simp only [Memory.wfFrom, Bool.and_eq_true, decide_eq_true_eq, bne_iff_ne] at hm'
      have hx : x = x' := by
        rcases Nat.lt_trichotomy x x' with hlt | heq | hgt
        · have := h x
          rw [Memory.read, if_pos rfl, Memory.read, if_neg (by omega),
            Memory.read_of_wfFrom hm'.2 (by omega)] at this
          exact absurd this hm.1.2
        · exact heq
        · have := h x'
          rw [Memory.read, if_neg (by omega), Memory.read_of_wfFrom hm.2 (by omega), Memory.read, if_pos rfl] at this
          exact absurd this.symm hm'.1.2
      subst hx
      have hv : v = v' := by simpa [Memory.read] using h x
      subst hv
      refine congrArg _ (ih hm.2 hm'.2 fun a => ?_)
      by_cases ha : a = x
      · subst ha
        rw [Memory.read_of_wfFrom hm.2 (by omega), Memory.read_of_wfFrom hm'.2 (by omega)]
      · simpa [Memory.read, Ne.symm ha] using h a

/-- Storages that read alike in every slot are the same data: the form is canonical. -/
theorem Memory.eq_of_read {cap : Nat} {m m' : Memory} (hm : m.wf cap = true) (hm' : m'.wf cap = true)
    (h : ∀ a, m.read a = m'.read a) : m = m' :=
  Memory.eq_of_read_from hm hm' h

/-! ### The storages keep the form -/

/-- Every storage of the reset state has the canonical form. -/
theorem State.reset_storages_wf : State.reset.enc.ew.W.wf Config.winCap = true ∧
    State.reset.enc.la.Q.wf Config.laCap = true ∧ State.reset.dec.dw.W.wf Config.winCap = true := ⟨rfl, rfl, rfl⟩

theorem Window.append_wf {w : Window} (b : Byte) (h : w.W.wf Config.winCap = true) :
    (w.append b).W.wf Config.winCap = true :=
  Memory.wf_write (show w.wp.toNat < 256 by omega) h

theorem Lookahead.push_wf {l : Lookahead} (b : Byte) (h : l.Q.wf Config.laCap = true) :
    (l.push b).Q.wf Config.laCap = true :=
  Memory.wf_write (show l.wi.toNat < 16 by omega) h

theorem Lookahead.pop_wf {l : Lookahead} (h : l.Q.wf Config.laCap = true) : l.pop.Q.wf Config.laCap = true := h

theorem Encoder.init_wf (e : Encoder) : e.init.ew.W.wf Config.winCap = true ∧ e.init.la.Q.wf Config.laCap = true :=
  ⟨rfl, rfl⟩

theorem Decoder.init_wf (d : Decoder) : d.init.dw.W.wf Config.winCap = true := rfl

end Sys2Proof.Machine
end

