-- ==== Sys2Proof/Laws/State.lean ====
section
/-! SUPPORT. The small lemmas of the state's updates: what each named operation does to each field, and that it leaves the
rest alone. -/

namespace Sys2Proof.Machine

/-! ### Windows and the lookahead -/

@[simp] theorem Window.append_W (w : Window) (b : Byte) : (w.append b).W = w.W.write w.wp.toNat b := rfl
@[simp] theorem Window.append_wp (w : Window) (b : Byte) : (w.append b).wp = w.wp + 1 := rfl
@[simp] theorem Lookahead.push_Q (l : Lookahead) (b : Byte) : (l.push b).Q = l.Q.write l.wi.toNat b := rfl
@[simp] theorem Lookahead.push_ri (l : Lookahead) (b : Byte) : (l.push b).ri = l.ri := rfl
@[simp] theorem Lookahead.push_wi (l : Lookahead) (b : Byte) : (l.push b).wi = l.wi + 1 := rfl
@[simp] theorem Lookahead.push_ls (l : Lookahead) (b : Byte) : (l.push b).ls = l.ls + 1 := rfl
@[simp] theorem Lookahead.pop_Q (l : Lookahead) : l.pop.Q = l.Q := rfl
@[simp] theorem Lookahead.pop_ri (l : Lookahead) : l.pop.ri = l.ri + 1 := rfl
@[simp] theorem Lookahead.pop_wi (l : Lookahead) : l.pop.wi = l.wi := rfl
@[simp] theorem Lookahead.pop_ls (l : Lookahead) : l.pop.ls = l.ls - 1 := rfl

/-! ### Emission -/

@[simp] theorem Encoder.emit_out (e : Encoder) (b : Byte) : (e.emit b).out = e.out ++ [b] := rfl
@[simp] theorem Encoder.emit_outCount (e : Encoder) (b : Byte) : (e.emit b).outCount = e.outCount + 1 := rfl
@[simp] theorem Encoder.emit_run (e : Encoder) (b : Byte) : (e.emit b).run = e.run := rfl
@[simp] theorem Encoder.emit_ew (e : Encoder) (b : Byte) : (e.emit b).ew = e.ew := rfl
@[simp] theorem Encoder.emit_la (e : Encoder) (b : Byte) : (e.emit b).la = e.la := rfl
@[simp] theorem Encoder.emit_pk (e : Encoder) (b : Byte) : (e.emit b).pk = e.pk := rfl
@[simp] theorem Encoder.emit_inCount (e : Encoder) (b : Byte) : (e.emit b).inCount = e.inCount := rfl
@[simp] theorem Encoder.emit_errSeq (e : Encoder) (b : Byte) : (e.emit b).errSeq = e.errSeq := rfl
@[simp] theorem Encoder.emit_errCmd (e : Encoder) (b : Byte) : (e.emit b).errCmd = e.errCmd := rfl
@[simp] theorem Decoder.output_run (d : Decoder) (b : Byte) : (d.output b).run = d.run := rfl
@[simp] theorem Decoder.output_phase (d : Decoder) (b : Byte) : (d.output b).phase = d.phase := rfl
@[simp] theorem Decoder.output_dw (d : Decoder) (b : Byte) : (d.output b).dw = d.dw.append b := rfl
@[simp] theorem Decoder.output_ca (d : Decoder) (b : Byte) : (d.output b).ca = d.ca := rfl
@[simp] theorem Decoder.output_inCount (d : Decoder) (b : Byte) : (d.output b).inCount = d.inCount := rfl
@[simp] theorem Decoder.output_outCount (d : Decoder) (b : Byte) : (d.output b).outCount = d.outCount + 1 := rfl
@[simp] theorem Decoder.output_errSeq (d : Decoder) (b : Byte) : (d.output b).errSeq = d.errSeq := rfl
@[simp] theorem Decoder.output_errCmd (d : Decoder) (b : Byte) : (d.output b).errCmd = d.errCmd := rfl
@[simp] theorem Decoder.output_refOor (d : Decoder) (b : Byte) : (d.output b).refOor = d.refOor := rfl
@[simp] theorem Decoder.output_out (d : Decoder) (b : Byte) : (d.output b).out = d.out ++ [b] := rfl

/-! ### INIT -/

theorem Encoder.init_eq (e : Encoder) : e.init = { Encoder.reset with out := e.out } := rfl
theorem Decoder.init_eq (d : Decoder) : d.init = { Decoder.reset with out := d.out } := rfl
@[simp] theorem Encoder.init_out (e : Encoder) : e.init.out = e.out := rfl
@[simp] theorem Decoder.init_out (d : Decoder) : d.init.out = d.out := rfl
@[simp] theorem Encoder.init_reset : Encoder.reset.init = Encoder.reset := rfl
@[simp] theorem Decoder.init_reset : Decoder.reset.init = Decoder.reset := rfl

/-! ### The end of a dispatch and a reference check -/

@[simp] theorem Decoder.endDispatch_run (d : Decoder) : d.endDispatch.run = d.run := rfl
@[simp] theorem Decoder.endDispatch_phase (d : Decoder) : d.endDispatch.phase = .accumulating := rfl
@[simp] theorem Decoder.endDispatch_dw (d : Decoder) : d.endDispatch.dw = d.dw := rfl
@[simp] theorem Decoder.endDispatch_ca (d : Decoder) : d.endDispatch.ca = { dacc := 0, dcnt := 0 } := rfl
@[simp] theorem Decoder.endDispatch_inCount (d : Decoder) : d.endDispatch.inCount = d.inCount := rfl
@[simp] theorem Decoder.endDispatch_outCount (d : Decoder) : d.endDispatch.outCount = d.outCount := rfl
@[simp] theorem Decoder.endDispatch_errSeq (d : Decoder) : d.endDispatch.errSeq = d.errSeq := rfl
@[simp] theorem Decoder.endDispatch_errCmd (d : Decoder) : d.endDispatch.errCmd = d.errCmd := rfl
@[simp] theorem Decoder.endDispatch_refOor (d : Decoder) : d.endDispatch.refOor = d.refOor := rfl
@[simp] theorem Decoder.endDispatch_out (d : Decoder) : d.endDispatch.out = d.out := rfl
@[simp] theorem Decoder.checkRef_run (d : Decoder) (L : CopyLength) (p : Byte) : (d.checkRef L p).run = d.run := rfl
@[simp] theorem Decoder.checkRef_phase (d : Decoder) (L : CopyLength) (p : Byte) : (d.checkRef L p).phase = d.phase := rfl
@[simp] theorem Decoder.checkRef_dw (d : Decoder) (L : CopyLength) (p : Byte) : (d.checkRef L p).dw = d.dw := rfl
@[simp] theorem Decoder.checkRef_ca (d : Decoder) (L : CopyLength) (p : Byte) : (d.checkRef L p).ca = d.ca := rfl
@[simp] theorem Decoder.checkRef_inCount (d : Decoder) (L : CopyLength) (p : Byte) :
    (d.checkRef L p).inCount = d.inCount := rfl
@[simp] theorem Decoder.checkRef_outCount (d : Decoder) (L : CopyLength) (p : Byte) :
    (d.checkRef L p).outCount = d.outCount := rfl
@[simp] theorem Decoder.checkRef_errSeq (d : Decoder) (L : CopyLength) (p : Byte) : (d.checkRef L p).errSeq = d.errSeq := rfl
@[simp] theorem Decoder.checkRef_errCmd (d : Decoder) (L : CopyLength) (p : Byte) : (d.checkRef L p).errCmd = d.errCmd := rfl
@[simp] theorem Decoder.checkRef_refOor (d : Decoder) (L : CopyLength) (p : Byte) :
    (d.checkRef L p).refOor = (d.refOor || malformed d.dw L p) := rfl
@[simp] theorem Decoder.checkRef_out (d : Decoder) (L : CopyLength) (p : Byte) : (d.checkRef L p).out = d.out := rfl

/-! ### The port -/

@[simp] theorem State.popAccess_enc (s : State) : s.popAccess.enc = s.enc := rfl
@[simp] theorem State.popAccess_dec (s : State) : s.popAccess.dec = s.dec := rfl
@[simp] theorem State.popAccess_pending (s : State) : s.popAccess.pending = s.pending.tail := rfl
@[simp] theorem State.popAccess_reads (s : State) : s.popAccess.reads = s.reads := rfl
@[simp] theorem State.popAccess_rst (s : State) : s.popAccess.rst = s.rst := rfl
@[simp] theorem State.readTo_enc (s : State) (o : Nat) : (s.readTo o).enc = s.enc := rfl
@[simp] theorem State.readTo_dec (s : State) (o : Nat) : (s.readTo o).dec = s.dec := rfl
@[simp] theorem State.readTo_pending (s : State) (o : Nat) : (s.readTo o).pending = s.pending := rfl
@[simp] theorem State.readTo_reads (s : State) (o : Nat) : (s.readTo o).reads = s.reads ++ [s.readRegister o] := rfl
@[simp] theorem State.readTo_rst (s : State) (o : Nat) : (s.readTo o).rst = s.rst := rfl
@[simp] theorem State.hardReset_enc (s : State) : s.hardReset.enc = s.enc.init := rfl
@[simp] theorem State.hardReset_dec (s : State) : s.hardReset.dec = s.dec.init := rfl
@[simp] theorem State.hardReset_reads (s : State) : s.hardReset.reads = s.reads := rfl
@[simp] theorem State.hardReset_rst (s : State) : s.hardReset.rst = false := rfl

/-! ### Flags -/

@[simp] theorem State.setFlag_pending (s : State) (f : ErrFlag) : (s.setFlag f).pending = s.pending := by cases f <;> rfl
@[simp] theorem State.setFlag_reads (s : State) (f : ErrFlag) : (s.setFlag f).reads = s.reads := by cases f <;> rfl
@[simp] theorem State.setFlag_rst (s : State) (f : ErrFlag) : (s.setFlag f).rst = s.rst := by cases f <;> rfl

/-- Setting a flag sets that flag and no other (R251). -/
theorem State.setFlag_flag (s : State) (f g : ErrFlag) : (s.setFlag f).flag g = (if g = f then true else s.flag g) := by
  cases f <;> cases g <;> rfl

/-- Under the policy `copy` a dispatch always goes on (R219). -/
@[simp] theorem underPolicy_config (bad : Bool) (t : State) : underPolicy Config.malformedRefPolicy bad t = .next t := rfl

end Sys2Proof.Machine
end

