-- ==== Sys2Proof/Laws/Window.lean ====
section
/-! SUPPORT. The laws of history windows and of the lookahead queue, as lists of bytes (R62 to R72). -/

namespace Sys2Proof.Machine

theorem toNat_one4 : BitVec.toNat (1 : BitVec 4) = 1 := rfl
theorem toNat_one5 : BitVec.toNat (1 : BitVec 5) = 1 := rfl
theorem toNat_one8 : BitVec.toNat (1 : BitVec 8) = 1 := rfl
theorem toNat_one9 : BitVec.toNat (1 : BitVec 9) = 1 := rfl

/-! ### Windows -/

theorem Window.append_n (w : Window) (b : Byte) :
    (w.append b).n.toNat = if w.n.toNat < 256 then w.n.toNat + 1 else w.n.toNat := by
  unfold Window.append
  dsimp only
  split <;> rename_i h
  · have h' : w.n.toNat < 256 := h
    rw [BitVec.toNat_add, toNat_one9]; omega
  · rfl

theorem Window.slot_toNat (w : Window) (i : Nat) (hn : w.n.toNat ≤ 256) :
    (w.slot i).toNat = (w.wp.toNat + 256 - w.n.toNat + i) % 256 := by
  unfold Window.slot Window.oldest
  simp only [BitVec.toNat_add, BitVec.toNat_sub, BitVec.toNat_setWidth, BitVec.toNat_ofNat]
  omega

/-- R63: the oldest slot of a full window is the one the next append overwrites. -/
theorem Window.oldest_full (w : Window) (h : w.n.toNat = 256) : w.oldest = w.wp := by
  apply BitVec.eq_of_toNat_eq
  unfold Window.oldest
  simp only [BitVec.toNat_sub, BitVec.toNat_setWidth]
  omega

/-- R65: while the window has never been full, window index and slot coincide. -/
theorem Window.slot_growing (w : Window) (i : Nat) (h : w.n.toNat < 256) (hwp : w.wp.toNat = w.n.toNat) :
    (w.slot i).toNat = i % 256 := by
  rw [Window.slot_toNat w i (by omega)]; omega

@[simp] theorem Window.contents_length (w : Window) : w.contents.length = w.n.toNat := by simp [Window.contents]

theorem Window.contents_getElem (w : Window) {i : Nat} (h : i < w.contents.length) : w.contents[i] = w.read i := by
  simp [Window.contents]

theorem Window.read_append (w : Window) (b : Byte) (i : Nat) :
    (w.append b).read i = if ((w.append b).slot i).toNat = w.wp.toNat then b else w.W.read ((w.append b).slot i).toNat := by
  unfold Window.read
  rw [Window.append_W, Memory.read_write_eq]

/-- R62: an append to a window that is not full adds a newest entry. -/
theorem Window.contents_append_growing (w : Window) (b : Byte) (h : w.n.toNat < 256) :
    (w.append b).contents = w.contents ++ [b] := by
  have hn := Window.append_n w b
  rw [if_pos h] at hn
  apply List.ext_getElem
  · simp [hn]
  · intro i h1 h2
    rw [Window.contents_length, hn] at h1
    rw [Window.contents_getElem, Window.read_append,
      Window.slot_toNat _ _ (by omega), Window.append_wp, hn, BitVec.toNat_add, toNat_one8]
    have hw := w.wp.isLt
    by_cases hi : i = w.n.toNat
    · rw [if_pos (by omega), List.getElem_append_right (by simp [hi])]; simp
    · rw [if_neg (by omega), List.getElem_append_left (by simp; omega), Window.contents_getElem, Window.read,
        Window.slot_toNat _ _ (by omega)]
      congr 1
      omega

/-- R62: an append to a full window drops the oldest entry. -/
theorem Window.contents_append_full (w : Window) (b : Byte) (h : w.n.toNat = 256) :
    (w.append b).contents = w.contents.tail ++ [b] := by
  have hn := Window.append_n w b
  rw [if_neg (by omega)] at hn
  apply List.ext_getElem
  · simp [hn]; omega
  · intro i h1 h2
    rw [Window.contents_length, hn] at h1
    rw [Window.contents_getElem, Window.read_append,
      Window.slot_toNat _ _ (by omega), Window.append_wp, hn, BitVec.toNat_add, toNat_one8]
    have hw := w.wp.isLt
    by_cases hi : i = 255
    · rw [if_pos (by omega), List.getElem_append_right (by simp; omega)]; simp
    · rw [if_neg (by omega), List.getElem_append_left (by simp; omega), List.getElem_tail, Window.contents_getElem,
        Window.read, Window.slot_toNat _ _ (by omega)]
      congr 1
      omega

@[simp] theorem Window.appendAll_nil (w : Window) : w.appendAll [] = w := rfl
@[simp] theorem Window.appendAll_cons (w : Window) (b : Byte) (bs : List Byte) :
    w.appendAll (b :: bs) = (w.append b).appendAll bs := rfl
theorem Window.appendAll_append (w : Window) (bs cs : List Byte) :
    w.appendAll (bs ++ cs) = (w.appendAll bs).appendAll cs := List.foldl_append

@[simp] theorem Window.appendAll_wp (w : Window) (bs : List Byte) :
    (w.appendAll bs).wp = w.wp + BitVec.ofNat 8 bs.length := by
  induction bs generalizing w with
  | nil => simp
  | cons b bs ih =>
    rw [Window.appendAll_cons, ih, Window.append_wp, List.length_cons, BitVec.add_assoc, BitVec.add_comm 1]
    congr 1
    apply BitVec.eq_of_toNat_eq
    simp [BitVec.toNat_add]

theorem Window.appendAll_n (w : Window) (bs : List Byte) (h : w.n.toNat ≤ 256) :
    (w.appendAll bs).n.toNat = min (w.n.toNat + bs.length) 256 := by
  induction bs generalizing w with
  | nil => simp; omega
  | cons b bs ih =>
    have hn := Window.append_n w b
    rw [Window.appendAll_cons, ih _ (by split at hn <;> omega), List.length_cons]
    split at hn <;> omega

/-- Slots that the appends do not reach keep their bytes. -/
theorem Window.appendAll_read_ne (w : Window) (bs : List Byte) (a : Nat)
    (h : ∀ j < bs.length, a ≠ (w.wp + BitVec.ofNat 8 j).toNat) : (w.appendAll bs).W.read a = w.W.read a := by
  induction bs generalizing w with
  | nil => rfl
  | cons b bs ih =>
    rw [Window.appendAll_cons, ih]
    · rw [Window.append_W, Memory.read_write_ne]
      simpa using h 0 (by simp)
    · intro j hj
      have := h (j + 1) (by simpa using hj)
      rw [Window.append_wp, BitVec.add_assoc, BitVec.add_comm 1]
      convert this using 3
      apply BitVec.eq_of_toNat_eq
      simp [BitVec.toNat_add]

theorem Window.Inv_empty : Window.empty.Inv := by
  refine ⟨rfl, by decide, fun _ => rfl, fun _ _ => rfl⟩

/-- An append keeps what holds of a window between commands (R46, R65, R67). -/
theorem Window.Inv_append {w : Window} (b : Byte) (h : w.Inv) : (w.append b).Inv := by
  obtain ⟨h1, h2, h3, h4⟩ := h
  have hn := Window.append_n w b
  have hw := w.wp.isLt
  refine ⟨?_, ?_, ?_, ?_⟩
  · exact Memory.wf_write (by simpa using hw) h1
  · show (w.append b).n.toNat ≤ 256
    have : w.n.toNat ≤ 256 := h2
    split at hn <;> omega
  · intro h
    rw [Window.append_wp, BitVec.toNat_add, toNat_one8]
    change (w.append b).n.toNat < 256 at h
    split at hn
    · have := h3 ‹_›; omega
    · omega
  · intro a ha
    rw [Window.append_W]
    split at hn
    · have := h3 ‹_›
      rw [Memory.read_write_ne _ _ (by omega)]
      exact h4 a (by omega)
    · rw [Memory.read_write_ne _ _ (by omega)]
      exact h4 a (by omega)

theorem Window.Inv_appendAll {w : Window} (bs : List Byte) (h : w.Inv) : (w.appendAll bs).Inv := by
  induction bs generalizing w with
  | nil => exact h
  | cons b bs ih => exact ih (Window.Inv_append b h)

/-! ### The lookahead -/

@[simp] theorem Lookahead.contents_length (l : Lookahead) : l.contents.length = l.ls.toNat := by simp [Lookahead.contents]

theorem Lookahead.front_eq_peek (l : Lookahead) : l.front = l.peek 0 := by simp [Lookahead.front, Lookahead.peek]

theorem Lookahead.peek_pop (l : Lookahead) (k : Nat) : l.pop.peek k = l.peek (k + 1) := by
  unfold Lookahead.peek
  simp only [Lookahead.pop_Q, Lookahead.pop_ri]
  congr 1
  simp only [BitVec.toNat_add, BitVec.toNat_ofNat, toNat_one4]
  omega

/-- R70: a pop takes the oldest byte. -/
theorem Lookahead.contents_eq_cons (l : Lookahead) (h : 0 < l.ls.toNat) :
    l.contents = l.front :: l.pop.contents := by
  have hl : l.pop.ls.toNat = l.ls.toNat - 1 := by
    have := l.ls.isLt
    rw [Lookahead.pop_ls, BitVec.toNat_sub, toNat_one5]; omega
  unfold Lookahead.contents
  rw [hl, Lookahead.front_eq_peek]
  obtain ⟨m, hm⟩ : ∃ m, l.ls.toNat = m + 1 := ⟨l.ls.toNat - 1, by omega⟩
  rw [hm, List.range_succ_eq_map]
  simp [Lookahead.peek_pop]

/-- R69: a push adds a newest byte. -/
theorem Lookahead.contents_push (l : Lookahead) (b : Byte) (h : l.ls.toNat < 16)
    (hwi : l.wi.toNat = (l.ri.toNat + l.ls.toNat) % 16) : (l.push b).contents = l.contents ++ [b] := by
  have hl : (l.push b).ls.toNat = l.ls.toNat + 1 := by
    rw [Lookahead.push_ls, BitVec.toNat_add, toNat_one5]; omega
  unfold Lookahead.contents
  rw [hl, List.range_succ, List.map_append]
  have key : ∀ k, k ≤ l.ls.toNat → (l.push b).peek k = if k = l.ls.toNat then b else l.peek k := by
    intro k hk
    unfold Lookahead.peek
    rw [Lookahead.push_Q, Lookahead.push_ri, Memory.read_write_eq]
    have := l.ri.isLt
    simp only [BitVec.toNat_add, BitVec.toNat_ofNat]
    by_cases hkl : k = l.ls.toNat
    · rw [if_pos (by omega), if_pos hkl]
    · rw [if_neg (by omega), if_neg hkl]
  congr 1
  · apply List.map_congr_left
    intro k hk
    rw [List.mem_range] at hk
    rw [key k (by omega), if_neg (by omega)]
  · simp [key]

theorem Lookahead.Inv_empty : Lookahead.empty.Inv := ⟨rfl, by decide, rfl⟩

/-- R72: a push keeps `wi = (ri + ls) mod 16`. -/
theorem Lookahead.push_wi_eq (l : Lookahead) (b : Byte) (h : l.ls.toNat < 16)
    (hwi : l.wi.toNat = (l.ri.toNat + l.ls.toNat) % 16) :
    (l.push b).wi.toNat = ((l.push b).ri.toNat + (l.push b).ls.toNat) % 16 := by
  simp only [Lookahead.push_wi, Lookahead.push_ri, Lookahead.push_ls, BitVec.toNat_add]
  rw [toNat_one4, toNat_one5]
  omega

/-- R72: a pop keeps `wi = (ri + ls) mod 16`. -/
theorem Lookahead.pop_wi_eq (l : Lookahead) (h : 0 < l.ls.toNat)
    (hwi : l.wi.toNat = (l.ri.toNat + l.ls.toNat) % 16) :
    l.pop.wi.toNat = (l.pop.ri.toNat + l.pop.ls.toNat) % 16 := by
  have := l.ls.isLt
  simp only [Lookahead.pop_wi, Lookahead.pop_ri, Lookahead.pop_ls, BitVec.toNat_add, BitVec.toNat_sub]
  rw [toNat_one4, toNat_one5]
  omega

theorem Lookahead.pop_ls_toNat (l : Lookahead) (h : 0 < l.ls.toNat) : l.pop.ls.toNat = l.ls.toNat - 1 := by
  have := l.ls.isLt
  rw [Lookahead.pop_ls, BitVec.toNat_sub, toNat_one5]
  omega

theorem Lookahead.push_ls_toNat (l : Lookahead) (b : Byte) (h : l.ls.toNat < 31) :
    (l.push b).ls.toNat = l.ls.toNat + 1 := by
  rw [Lookahead.push_ls, BitVec.toNat_add, toNat_one5]
  omega

end Sys2Proof.Machine
end

