-- ==== Sys2Proof/Laws/CodeWords.lean ====
section
/-! SUPPORT. What the code words do to the decoder: they output bytes, and change nothing else but REF_OOR (R213 to R221). -/

namespace Sys2Proof.Machine

/-- Bytes emitted and appended one after the other. -/
def Decoder.outputAll (d : Decoder) (bytes : List Byte) : Decoder := bytes.foldl Decoder.output d

/-- The bytes a copy of `k` bytes from slot `s` outputs, starting from window `w` (R215). -/
def copiedBytes : Nat → Slot → Window → List Byte
  | 0, _, _ => []
  | k + 1, s, w => w.W.read s.toNat :: copiedBytes k (s + 1) (w.append (w.W.read s.toNat))

@[simp] theorem copiedBytes_length (k : Nat) (s : Slot) (w : Window) : (copiedBytes k s w).length = k := by
  induction k generalizing s w with
  | zero => rfl
  | succ k ih => simp [copiedBytes, ih]

@[simp] theorem Decoder.outputAll_nil (d : Decoder) : d.outputAll [] = d := rfl
theorem Decoder.outputAll_cons (d : Decoder) (b : Byte) (bs : List Byte) :
    d.outputAll (b :: bs) = (d.output b).outputAll bs := rfl

/-- Outputting bytes, in one equation (R214, R215). -/
theorem Decoder.outputAll_eq (d : Decoder) (bs : List Byte) :
    d.outputAll bs = { d with
      dw := d.dw.appendAll bs, out := d.out ++ bs, outCount := d.outCount + BitVec.ofNat 32 bs.length } := by
  induction bs generalizing d with
  | nil => simp
  | cons b bs ih =>
    rw [Decoder.outputAll_cons, ih]
    simp only [Decoder.output, Decoder.emit, Window.appendAll_cons, List.append_assoc, List.singleton_append, List.length_cons]
    congr 1
    rw [BitVec.add_assoc]
    congr 1
    apply BitVec.eq_of_toNat_eq
    simp [BitVec.toNat_add]
    omega

theorem Decoder.copyFrom_eq (k : Nat) (s : Slot) (d : Decoder) :
    Decoder.copyFrom k s d = d.outputAll (copiedBytes k s d.dw) := by
  induction k generalizing s d with
  | zero => rfl
  | succ k ih => rw [Decoder.copyFrom, ih, copiedBytes, Decoder.outputAll_cons, Decoder.output_dw]

/-- `Copy(L, p)` in one equation: the check of R219, then the bytes of R215. -/
theorem Decoder.copy_eq (d : Decoder) (L : CopyLength) (p : Byte) :
    d.copy L p = (d.checkRef L p).outputAll (copiedBytes (copyBytes L) (startSlot d.dw p) d.dw) := by
  rw [Decoder.copy, Decoder.copyFrom_eq, Decoder.checkRef_dw]

/-- The `j`-th copied byte is read from slot `s + j` after the earlier ones have been appended (R215). -/
theorem copiedBytes_getElem (k : Nat) (s : Slot) (w : Window) (j : Nat) (hj : j < (copiedBytes k s w).length) :
    (copiedBytes k s w)[j]
      = (w.appendAll ((copiedBytes k s w).take j)).W.read (s + BitVec.ofNat 8 j).toNat := by
  induction k generalizing s w j with
  | zero => simp at hj
  | succ k ih =>
    cases j with
    | zero => simp [copiedBytes]
    | succ j =>
      simp only [copiedBytes, List.getElem_cons_succ, List.take_succ_cons, Window.appendAll_cons]
      rw [ih]
      congr 2
      rw [BitVec.add_assoc]
      congr 1
      apply BitVec.eq_of_toNat_eq
      simp [BitVec.toNat_add]
      omega

theorem Window.slot_succ (w : Window) (i : Nat) : w.slot i + 1 = w.slot (i + 1) := by
  unfold Window.slot
  rw [BitVec.add_assoc]
  congr 1
  apply BitVec.eq_of_toNat_eq
  simp [BitVec.toNat_add]

/-- R221: a copy inside the valid window reads the entries as they stood at dispatch. -/
theorem copiedBytes_valid_aux (w : Window) (p k : Nat) (bs : List Byte) (hn : w.n.toNat ≤ 256)
    (hk : p + bs.length + k ≤ w.n.toNat) :
    copiedBytes k (w.slot (p + bs.length)) (w.appendAll bs)
      = (List.range k).map fun i => w.read (p + bs.length + i) := by
  induction k generalizing bs with
  | zero => rfl
  | succ k ih =>
    have hread : (w.appendAll bs).W.read (w.slot (p + bs.length)).toNat = w.read (p + bs.length) := by
      rw [Window.appendAll_read_ne, Window.read]
      intro j hj
      rw [Window.slot_toNat _ _ hn, BitVec.toNat_add, BitVec.toNat_ofNat]
      have := w.wp.isLt
      omega
    rw [copiedBytes, hread, Window.slot_succ, List.range_succ_eq_map, List.map_cons, List.map_map]
    have := ih (bs ++ [w.read (p + bs.length)]) (by simp; omega)
    rw [Window.appendAll_append, List.length_append, List.length_singleton] at this
    rw [← Nat.add_assoc] at this
    change _ :: copiedBytes k _ ((w.appendAll bs).appendAll [_]) = _
    rw [this]
    simp only [Nat.add_zero, List.cons.injEq, true_and]
    apply List.map_congr_left
    intro i _
    simp only [Function.comp_apply]
    congr 1
    omega

theorem copiedBytes_valid (w : Window) (p k : Nat) (hn : w.n.toNat ≤ 256) (hk : p + k ≤ w.n.toNat) :
    copiedBytes k (w.slot p) w = (List.range k).map fun i => w.read (p + i) := by
  simpa using copiedBytes_valid_aux w p k [] hn (by simpa using hk)

@[simp] theorem copyBytes_four : copyBytes .four = 4 := rfl
@[simp] theorem copyBytes_eight : copyBytes .eight = 8 := rfl
@[simp] theorem copyBytes_sixteen : copyBytes .sixteen = 16 := rfl

/-- Dispatching `LIT v` (R213, R214). -/
@[simp] theorem Decoder.dispatch_litCode (d : Decoder) (v : Byte) : d.dispatch (litCode v) = d.lit v := by
  simp [Decoder.dispatch, litCode]

/-- Dispatching a back-reference (R213, R216 to R218). -/
@[simp] theorem Decoder.dispatch_copyCode (d : Decoder) (L : CopyLength) (p : Byte) :
    d.dispatch (copyCode L p) = d.copy L p := by
  cases L <;> simp [Decoder.dispatch, copyCode, copyTag] <;> rfl

theorem Decoder.copy_update (d : Decoder) (L : CopyLength) (p : Byte) :
    d.copy L p = { d with
      dw := d.dw.appendAll (copiedBytes (copyBytes L) (startSlot d.dw p) d.dw)
      out := d.out ++ copiedBytes (copyBytes L) (startSlot d.dw p) d.dw
      outCount := d.outCount + BitVec.ofNat 32 (copyBytes L)
      refOor := d.refOor || malformed d.dw L p } := by
  rw [Decoder.copy_eq, Decoder.outputAll_eq, copiedBytes_length]
  rfl

/-- The bytes a code word outputs from a window (R214, R215). -/
def codeBytes (cw : CodeWord) (w : Window) : List Byte :=
  if codeTag cw = 0b00#2 then [codePayload cw]
  else if codeTag cw = 0b01#2 then copiedBytes 4 (startSlot w (codePayload cw)) w
  else if codeTag cw = 0b10#2 then copiedBytes 8 (startSlot w (codePayload cw)) w
  else copiedBytes 16 (startSlot w (codePayload cw)) w

theorem malformed_iff (w : Window) (L : CopyLength) (p : Byte) :
    malformed w L p = true ↔ w.n.toNat < p.toNat + copyBytes L := by simp [malformed]

theorem codeBytes_length (cw : CodeWord) (w : Window) :
    (codeBytes cw w).length = 1 ∨ (codeBytes cw w).length = 4 ∨ (codeBytes cw w).length = 8 ∨
      (codeBytes cw w).length = 16 := by
  unfold codeBytes
  split
  · simp
  · split
    · simp
    · split <;> simp

/-- Everything a dispatch does, in one equation: it outputs bytes, which depend on the window alone, and may set REF_OOR
(R213 to R219, R251). -/
theorem Decoder.dispatch_eq (d : Decoder) (cw : CodeWord) :
    d.dispatch cw = { d with
      dw := d.dw.appendAll (codeBytes cw d.dw)
      out := d.out ++ codeBytes cw d.dw
      outCount := d.outCount + BitVec.ofNat 32 (codeBytes cw d.dw).length
      refOor := d.refOor || codeMalformed cw d.dw } := by
  unfold Decoder.dispatch codeBytes codeMalformed
  split
  · simp [Decoder.lit, Decoder.output, Decoder.emit]
  · split
    · rw [copiedBytes_length]; exact Decoder.copy_update ..
    · split
      · rw [copiedBytes_length]; exact Decoder.copy_update ..
      · rw [copiedBytes_length]; exact Decoder.copy_update ..

end Sys2Proof.Machine
end

