-- ==== Sys2Proof/Laws/Packing.lean ====
section
/-! SUPPORT. The laws of the bit packer: packing appends bits to the stream and touches nothing else (R180 to R184), and the
packed form of a sequence of bits (R104 to R106). -/

namespace Sys2Proof.Machine

/-! ### Shifted accumulators -/

theorem shift8_getLsbD (acc : BitVec 8) (x : Bool) (i : Nat) :
    ((acc <<< 1) ||| (BitVec.ofBool x).setWidth 8).getLsbD i
      = if i = 0 then x else (decide (i < 8) && acc.getLsbD (i - 1)) := by
  cases i with
  | zero => cases x <;> simp
  | succ i => cases x <;> simp [BitVec.getLsbD_ofNat, Nat.testBit_succ]

theorem shift10_getLsbD (acc : BitVec 10) (x : Bool) (i : Nat) :
    ((acc <<< 1) ||| (BitVec.ofBool x).setWidth 10).getLsbD i
      = if i = 0 then x else (decide (i < 10) && acc.getLsbD (i - 1)) := by
  cases i with
  | zero => cases x <;> simp
  | succ i => cases x <;> simp [BitVec.getLsbD_ofNat, Nat.testBit_succ]

/-- The `n + 1` low bits of a shifted accumulator, most significant first. -/
theorem map_range_succ_shift (f g : Nat → Bool) (x : Bool) (n : Nat) (h0 : g 0 = x)
    (hs : ∀ i, i < n → g (i + 1) = f i) :
    (List.range (n + 1)).map (fun i => g (n + 1 - 1 - i)) = (List.range n).map (fun i => f (n - 1 - i)) ++ [x] := by
  rw [List.range_succ, List.map_append]
  congr 1
  · apply List.map_congr_left
    intro i hi
    rw [List.mem_range] at hi
    rw [← hs _ (by omega)]
    congr 1
    omega
  · simp [h0]

theorem byteBits_eq (b : Byte) : byteBits b = (List.range 8).map fun i => b.getLsbD (8 - 1 - i) := rfl

theorem codeBits_eq (cw : CodeWord) : codeBits cw = (List.range 10).map fun i => cw.getLsbD (10 - 1 - i) := rfl

@[simp] theorem byteBits_length (b : Byte) : (byteBits b).length = 8 := rfl
@[simp] theorem codeBits_length (cw : CodeWord) : (codeBits cw).length = 10 := rfl
@[simp] theorem Packer.bits_length (p : Packer) : p.bits.length = p.cnt.toNat := by simp [Packer.bits]
@[simp] theorem CodeAcc.bits_length (c : CodeAcc) : c.bits.length = c.dcnt.toNat := by simp [CodeAcc.bits]

@[simp] theorem flatMap_byteBits_length (l : List Byte) : (l.flatMap byteBits).length = 8 * l.length := by
  induction l with
  | nil => rfl
  | cons b l ih => simp [ih]; omega

@[simp] theorem flatMap_codeBits_length (l : List CodeWord) : (l.flatMap codeBits).length = 10 * l.length := by
  induction l with
  | nil => rfl
  | cons b l ih => simp [ih]; omega

theorem byteBits_injective {a b : Byte} (h : byteBits a = byteBits b) : a = b := by
  apply BitVec.eq_of_getLsbD_eq
  intro i hi
  simp only [byteBits, List.map_cons, List.map_nil, List.cons.injEq, and_true] at h
  obtain ⟨h7, h6, h5, h4, h3, h2, h1, h0⟩ := h
  have : i = 0 ∨ i = 1 ∨ i = 2 ∨ i = 3 ∨ i = 4 ∨ i = 5 ∨ i = 6 ∨ i = 7 := by omega
  rcases this with rfl | rfl | rfl | rfl | rfl | rfl | rfl | rfl <;> assumption

/-- Streams of bytes with the same bits are the same. -/
theorem flatMap_byteBits_injective {l m : List Byte} (h : l.flatMap byteBits = m.flatMap byteBits) : l = m := by
  induction l generalizing m with
  | nil =>
    have := congrArg List.length h
    rw [flatMap_byteBits_length, flatMap_byteBits_length, List.length_nil] at this
    exact (List.eq_nil_of_length_eq_zero (by omega)).symm
  | cons b l ih =>
    cases m with
    | nil => have := congrArg List.length h; simp at this
    | cons c m =>
      rw [List.flatMap_cons, List.flatMap_cons] at h
      obtain ⟨h1, h2⟩ := List.append_inj h rfl
      rw [byteBits_injective h1, ih h2]

/-! ### PackBit, PackCode, PackFlush -/

/-- PackBit appends one bit to the stream (R180). -/
theorem Encoder.packBit_stream (e : Encoder) (x : Bool) : (e.packBit x).stream = e.stream ++ [x] := by
  have hb : ∀ n, n < 8 → (List.range (n + 1)).map (fun i => ((e.pk.acc <<< 1) ||| (BitVec.ofBool x).setWidth 8).getLsbD
      (n + 1 - 1 - i)) = (List.range n).map (fun i => e.pk.acc.getLsbD (n - 1 - i)) ++ [x] := by
    intro n hn
    apply map_range_succ_shift
    · rw [shift8_getLsbD, if_pos rfl]
    · intro i hi
      rw [shift8_getLsbD, if_neg (by omega)]
      simp; omega
  have hc := e.pk.cnt.isLt
  unfold Encoder.packBit Encoder.stream
  dsimp only
  split
  · rename_i h
    have h7 : e.pk.cnt.toNat = 7 := by
      have : e.pk.cnt.toNat + 1 = 8 := h
      omega
    simp only [Encoder.emit_out, List.flatMap_append, List.flatMap_cons, List.flatMap_nil, List.append_nil]
    rw [byteBits_eq, hb 7 (by omega), ← List.append_assoc]
    simp [Packer.bits, h7]
  · rename_i h
    have h7 : e.pk.cnt.toNat + 1 < 8 := by
      have : e.pk.cnt.toNat + 1 ≠ 8 := h
      omega
    have hs : (e.pk.cnt + 1).toNat = e.pk.cnt.toNat + 1 := by
      rw [BitVec.toNat_add, show BitVec.toNat (1 : BitVec 3) = 1 from rfl]; omega
    rw [List.append_assoc]
    congr 1
    simp only [Packer.bits, hs]
    exact hb _ (by omega)

@[simp] theorem Encoder.packBit_run (e : Encoder) (x : Bool) : (e.packBit x).run = e.run := by
  unfold Encoder.packBit; dsimp only; split <;> rfl
@[simp] theorem Encoder.packBit_ew (e : Encoder) (x : Bool) : (e.packBit x).ew = e.ew := by
  unfold Encoder.packBit; dsimp only; split <;> rfl
@[simp] theorem Encoder.packBit_la (e : Encoder) (x : Bool) : (e.packBit x).la = e.la := by
  unfold Encoder.packBit; dsimp only; split <;> rfl
@[simp] theorem Encoder.packBit_inCount (e : Encoder) (x : Bool) : (e.packBit x).inCount = e.inCount := by
  unfold Encoder.packBit; dsimp only; split <;> rfl
@[simp] theorem Encoder.packBit_errSeq (e : Encoder) (x : Bool) : (e.packBit x).errSeq = e.errSeq := by
  unfold Encoder.packBit; dsimp only; split <;> rfl
@[simp] theorem Encoder.packBit_errCmd (e : Encoder) (x : Bool) : (e.packBit x).errCmd = e.errCmd := by
  unfold Encoder.packBit; dsimp only; split <;> rfl

/-- What packing may change: the packer, the output stream and its count, the stream only by appending. -/
structure Encoder.PackFrame (e e' : Encoder) : Prop where
  run : e'.run = e.run
  ew : e'.ew = e.ew
  la : e'.la = e.la
  inCount : e'.inCount = e.inCount
  errSeq : e'.errSeq = e.errSeq
  errCmd : e'.errCmd = e.errCmd
  emitted : ∃ bytes, e'.out = e.out ++ bytes ∧ e'.outCount = e.outCount + BitVec.ofNat 32 bytes.length

theorem Encoder.PackFrame.refl (e : Encoder) : Encoder.PackFrame e e :=
  ⟨rfl, rfl, rfl, rfl, rfl, rfl, [], by simp, by simp⟩

theorem Encoder.PackFrame.trans {e e' e'' : Encoder} (h : Encoder.PackFrame e e') (h' : Encoder.PackFrame e' e'') :
    Encoder.PackFrame e e'' := by
  obtain ⟨bs, hb1, hb2⟩ := h.emitted
  obtain ⟨cs, hc1, hc2⟩ := h'.emitted
  refine ⟨h'.run.trans h.run, h'.ew.trans h.ew, h'.la.trans h.la, h'.inCount.trans h.inCount,
    h'.errSeq.trans h.errSeq, h'.errCmd.trans h.errCmd, bs ++ cs, ?_, ?_⟩
  · rw [hc1, hb1, List.append_assoc]
  · rw [hc2, hb2, List.length_append, BitVec.add_assoc, ← BitVec.ofNat_add]

theorem Encoder.packBit_frame (e : Encoder) (x : Bool) : Encoder.PackFrame e (e.packBit x) := by
  refine ⟨by simp, by simp, by simp, by simp, by simp, by simp, ?_⟩
  unfold Encoder.packBit
  dsimp only
  split
  · exact ⟨[_], rfl, rfl⟩
  · exact ⟨[], by simp, by simp⟩

theorem Encoder.foldl_packBit_frame (e : Encoder) (bits : List Bool) :
    Encoder.PackFrame e (bits.foldl Encoder.packBit e) := by
  induction bits generalizing e with
  | nil => exact .refl e
  | cons x bits ih => exact (Encoder.packBit_frame e x).trans (ih _)

/-- PackCode changes nothing but the packer and the output (R181). -/
theorem Encoder.packCode_frame (e : Encoder) (cw : CodeWord) : Encoder.PackFrame e (e.packCode cw) :=
  Encoder.foldl_packBit_frame e _

theorem Encoder.foldl_packBit_stream (e : Encoder) (bits : List Bool) :
    (bits.foldl Encoder.packBit e).stream = e.stream ++ bits := by
  induction bits generalizing e with
  | nil => simp
  | cons x bits ih => rw [List.foldl_cons, ih, Encoder.packBit_stream]; simp

/-- PackCode appends a code word's ten bits to the stream (R181). -/
theorem Encoder.packCode_stream (e : Encoder) (cw : CodeWord) : (e.packCode cw).stream = e.stream ++ codeBits cw :=
  Encoder.foldl_packBit_stream e _

theorem Encoder.stream_length (e : Encoder) : e.stream.length = 8 * e.out.length + e.pk.cnt.toNat := by
  rw [Encoder.stream, List.length_append, flatMap_byteBits_length, Packer.bits_length]

/-- The packer holds the accumulator's bits below `cnt` only (R27, R46). -/
theorem Encoder.packBit_Inv (e : Encoder) (x : Bool) (h : e.pk.Inv) : (e.packBit x).pk.Inv := by
  have hc := e.pk.cnt.isLt
  unfold Packer.Inv at *
  unfold Encoder.packBit
  dsimp only
  split
  · exact Nat.zero_lt_one
  · rename_i h7
    have h7' : e.pk.cnt.toNat + 1 ≠ 8 := h7
    have hs : (e.pk.cnt + 1).toNat = e.pk.cnt.toNat + 1 := by
      rw [BitVec.toNat_add, show BitVec.toNat (1 : BitVec 3) = 1 from rfl]; omega
    dsimp only
    rw [hs, BitVec.toNat_or, BitVec.toNat_shiftLeft, BitVec.toNat_setWidth, Nat.pow_succ]
    apply Nat.or_lt_two_pow
    · apply Nat.lt_of_le_of_lt (Nat.mod_le _ _)
      rw [Nat.shiftLeft_eq, Nat.pow_succ]; omega
    · apply Nat.lt_of_le_of_lt (Nat.mod_le _ _)
      have : 0 < 2 ^ e.pk.cnt.toNat := Nat.two_pow_pos _
      cases x <;> simp

theorem Encoder.packCode_Inv (e : Encoder) (cw : CodeWord) (h : e.pk.Inv) : (e.packCode cw).pk.Inv := by
  unfold Encoder.packCode
  generalize codeBits cw = bits
  induction bits generalizing e with
  | nil => exact h
  | cons x bits ih => exact ih _ (Encoder.packBit_Inv e x h)

/-- PackFlush pads the stream with zero bits to a whole byte and empties the packer (R183, R184). -/
theorem Encoder.packFlush_stream (e : Encoder) :
    e.packFlush.stream = e.stream ++ List.replicate ((8 - e.pk.cnt.toNat) % 8) false := by
  have hc := e.pk.cnt.isLt
  unfold Encoder.packFlush Encoder.stream
  split
  · rename_i h
    rw [Nat.mod_eq_of_lt (by omega : 8 - e.pk.cnt.toNat < 8)]
    simp only [Encoder.emit_out, List.flatMap_append, List.flatMap_cons, List.flatMap_nil, List.append_nil]
    rw [List.append_assoc, List.append_assoc]
    congr 1
    have h0 : ({ acc := 0, cnt := 0 } : Packer).bits = [] := rfl
    rw [h0, List.append_nil, byteBits_eq]
    apply List.ext_getElem
    · simp; omega
    · intro i h1 h2
      simp only [List.length_map, List.length_range] at h1
      rw [List.getElem_map, List.getElem_range, BitVec.getLsbD_shiftLeft]
      by_cases hi : i < e.pk.cnt.toNat
      · rw [List.getElem_append_left (by simpa using hi)]
        simp only [Packer.bits, List.getElem_map, List.getElem_range]
        have h3 : ¬ (8 - 1 - i < 8 - e.pk.cnt.toNat) := by omega
        have h4 : 8 - 1 - i < 8 := by omega
        simp only [h3, h4, decide_true, decide_false, Bool.not_false, Bool.true_and]
        congr 1
        omega
      · rw [List.getElem_append_right (by simpa using hi)]
        have h3 : 8 - 1 - i < 8 - e.pk.cnt.toNat := by omega
        simp [h3]
  · rename_i h
    have : e.pk.cnt.toNat = 0 := by omega
    simp [this]

@[simp] theorem Encoder.packFlush_pk (e : Encoder) : e.packFlush.pk.cnt = 0 := by
  unfold Encoder.packFlush
  split
  · rfl
  · rename_i h
    exact BitVec.eq_of_toNat_eq (Nat.eq_zero_of_not_pos h)

theorem Encoder.packFlush_frame (e : Encoder) : Encoder.PackFrame e e.packFlush := by
  unfold Encoder.packFlush
  split
  · exact ⟨rfl, rfl, rfl, rfl, rfl, rfl, [_], rfl, rfl⟩
  · exact .refl e

/-! ### Packed streams -/

theorem byteBits_byteOfBits (b7 b6 b5 b4 b3 b2 b1 b0 : Bool) :
    byteBits (byteOfBits [b7, b6, b5, b4, b3, b2, b1, b0]) = [b7, b6, b5, b4, b3, b2, b1, b0] := by
  cases b7 <;> cases b6 <;> cases b5 <;> cases b4 <;> cases b3 <;> cases b2 <;> cases b1 <;> cases b0 <;> rfl

/-- Packing bits into bytes loses none and pads with zeros to a whole byte (R104, R105). -/
theorem packBits_bits (bits : List Bool) :
    (packBits bits).flatMap byteBits = bits ++ List.replicate ((8 - bits.length % 8) % 8) false := by
  fun_induction packBits bits with
  | case1 b7 b6 b5 b4 b3 b2 b1 b0 rest ih =>
    rw [List.flatMap_cons, ih, byteBits_byteOfBits]
    simp only [List.length_cons, List.cons_append, List.nil_append]
    congr 11
    omega
  | case2 => rfl
  | case3 short h1 h2 =>
    match short, h1, h2 with
    | [], _, h2 => exact absurd rfl h2
    | [a], _, _ => exact byteBits_byteOfBits a _ _ _ _ _ _ _
    | [a, b], _, _ => exact byteBits_byteOfBits a b _ _ _ _ _ _
    | [a, b, c], _, _ => exact byteBits_byteOfBits a b c _ _ _ _ _
    | [a, b, c, d], _, _ => exact byteBits_byteOfBits a b c d _ _ _ _
    | [a, b, c, d, e], _, _ => exact byteBits_byteOfBits a b c d e _ _ _
    | [a, b, c, d, e, f], _, _ => exact byteBits_byteOfBits a b c d e f _ _
    | [a, b, c, d, e, f, g], _, _ => exact byteBits_byteOfBits a b c d e f g _
    | a :: b :: c :: d :: e :: f :: g :: h :: rest, h1, _ => exact absurd rfl (h1 a b c d e f g h rest)

theorem packBits_length (bits : List Bool) : (packBits bits).length = (bits.length + 7) / 8 := by
  have := congrArg List.length (packBits_bits bits)
  simp at this
  omega

end Sys2Proof.Machine
end

