-- ==== Sys2Proof/Laws/Decoder.lean ====
section
/-! SUPPORT. The laws of the decoder's code accumulator: feeding bits dispatches the complete code words among them, in
order, and keeps the bits that are left (R107, R185 to R189). -/

namespace Sys2Proof.Machine

/-! ### The accumulator -/

theorem toNat_one4' : BitVec.toNat (1 : BitVec 4) = 1 := rfl

theorem CodeAcc.shift_dcnt (c : CodeAcc) (x : Bool) (h : c.dcnt.toNat ≤ 9) :
    (c.shift x).dcnt.toNat = c.dcnt.toNat + 1 := by
  unfold CodeAcc.shift
  dsimp only
  rw [BitVec.toNat_add, toNat_one4']
  omega

/-- A shifted-in bit is the newest of the accumulated bits (R28, R185). -/
theorem CodeAcc.shift_bits (c : CodeAcc) (x : Bool) (h : c.dcnt.toNat ≤ 9) : (c.shift x).bits = c.bits ++ [x] := by
  unfold CodeAcc.bits
  rw [CodeAcc.shift_dcnt c x h]
  apply map_range_succ_shift
  · simp only [CodeAcc.shift]; rw [shift10_getLsbD, if_pos rfl]
  · intro i hi
    simp only [CodeAcc.shift]
    rw [shift10_getLsbD, if_neg (by omega)]
    simp; omega

theorem CodeAcc.bits_full (c : CodeAcc) (h : c.dcnt.toNat = 10) : c.bits = codeBits c.dacc := by
  rw [CodeAcc.bits, h, codeBits_eq]

theorem codeBits_injective {a b : CodeWord} (h : codeBits a = codeBits b) : a = b := by
  apply BitVec.eq_of_getLsbD_eq
  intro i hi
  simp only [codeBits, List.map_cons, List.map_nil, List.cons.injEq, and_true] at h
  obtain ⟨h9, h8, h7, h6, h5, h4, h3, h2, h1, h0⟩ := h
  have : i = 0 ∨ i = 1 ∨ i = 2 ∨ i = 3 ∨ i = 4 ∨ i = 5 ∨ i = 6 ∨ i = 7 ∨ i = 8 ∨ i = 9 := by omega
  rcases this with rfl | rfl | rfl | rfl | rfl | rfl | rfl | rfl | rfl | rfl <;> assumption

/-- The accumulator holds no bit at or above `dcnt` (R28, R46). -/
theorem CodeAcc.shift_lt (c : CodeAcc) (x : Bool) (h : c.dcnt.toNat ≤ 9) (hi : c.dacc.toNat < 2 ^ c.dcnt.toNat) :
    (c.shift x).dacc.toNat < 2 ^ (c.shift x).dcnt.toNat := by
  rw [CodeAcc.shift_dcnt c x h]
  unfold CodeAcc.shift
  dsimp only
  rw [BitVec.toNat_or, BitVec.toNat_shiftLeft, BitVec.toNat_setWidth, Nat.pow_succ]
  have hpos : 0 < 2 ^ c.dcnt.toNat := Nat.two_pow_pos _
  rw [← Nat.pow_succ]
  apply Nat.or_lt_two_pow
  · apply Nat.lt_of_le_of_lt (Nat.mod_le _ _)
    rw [Nat.shiftLeft_eq, Nat.pow_succ]; omega
  · apply Nat.lt_of_le_of_lt (Nat.mod_le _ _)
    rw [Nat.pow_succ]
    cases x <;> simp
    omega

theorem CodeAcc.foldl_shift (bits : List Bool) (c : CodeAcc) (h : c.dcnt.toNat + bits.length ≤ 10) :
    (bits.foldl CodeAcc.shift c).bits = c.bits ++ bits ∧
      (bits.foldl CodeAcc.shift c).dcnt.toNat = c.dcnt.toNat + bits.length := by
  induction bits generalizing c with
  | nil => simp
  | cons x bits ih =>
    rw [List.length_cons] at h
    have hd := CodeAcc.shift_dcnt c x (by omega)
    obtain ⟨h1, h2⟩ := ih (c.shift x) (by omega)
    rw [List.foldl_cons, h1, h2, CodeAcc.shift_bits c x (by omega), List.length_cons]
    exact ⟨by simp, by omega⟩

/-- Ten bits are a code word (R100, R108). -/
theorem exists_codeBits (bits : List Bool) (h : bits.length = 10) : ∃ cw, codeBits cw = bits := by
  obtain ⟨h1, h2⟩ := CodeAcc.foldl_shift bits { dacc := 0, dcnt := 0 } (Nat.le_of_eq (by rw [h]; rfl))
  refine ⟨(bits.foldl CodeAcc.shift { dacc := 0, dcnt := 0 }).dacc, ?_⟩
  rw [← CodeAcc.bits_full _ (by rw [h2, h]; rfl), h1]
  rfl

/-! ### One bit -/

/-- A dispatch leaves the accumulator and the counts of accepted bytes alone, and does not read them. -/
theorem Decoder.dispatch_ca (d : Decoder) (c : CodeAcc) (ph : Phase) (n : BitVec 32) (cw : CodeWord) :
    Decoder.dispatch { d with ca := c, phase := ph, inCount := n } cw
      = { d.dispatch cw with ca := c, phase := ph, inCount := n } := by
  rw [Decoder.dispatch_eq, Decoder.dispatch_eq d]

theorem Decoder.dispatchAll_ca (d : Decoder) (c : CodeAcc) (ph : Phase) (n : BitVec 32) (cws : List CodeWord) :
    Decoder.dispatchAll { d with ca := c, phase := ph, inCount := n } cws
      = { d.dispatchAll cws with ca := c, phase := ph, inCount := n } := by
  induction cws generalizing d with
  | nil => rfl
  | cons cw cws ih =>
    unfold Decoder.dispatchAll at *
    rw [List.foldl_cons, Decoder.dispatch_ca, ih, List.foldl_cons]

@[simp] theorem Decoder.dispatch_phase (d : Decoder) (cw : CodeWord) : (d.dispatch cw).phase = d.phase := by
  rw [Decoder.dispatch_eq]
@[simp] theorem Decoder.dispatch_run (d : Decoder) (cw : CodeWord) : (d.dispatch cw).run = d.run := by
  rw [Decoder.dispatch_eq]
@[simp] theorem Decoder.dispatch_inCount (d : Decoder) (cw : CodeWord) : (d.dispatch cw).inCount = d.inCount := by
  rw [Decoder.dispatch_eq]
@[simp] theorem Decoder.dispatch_ca_eq (d : Decoder) (cw : CodeWord) : (d.dispatch cw).ca = d.ca := by
  rw [Decoder.dispatch_eq]
@[simp] theorem Decoder.dispatchAll_nil (d : Decoder) : d.dispatchAll [] = d := rfl
theorem Decoder.dispatchAll_cons (d : Decoder) (cw : CodeWord) (cws : List CodeWord) :
    d.dispatchAll (cw :: cws) = (d.dispatch cw).dispatchAll cws := rfl

/-- A bit that does not complete a code word is only shifted in (R185). -/
theorem Decoder.shiftBit_short (d : Decoder) (x : Bool) (h : d.ca.dcnt.toNat < 9) :
    d.shiftBit x = { d with ca := d.ca.shift x } := by
  unfold Decoder.shiftBit
  dsimp only
  rw [if_neg]
  rw [CodeAcc.shift_dcnt _ _ (by omega)]
  show ¬d.ca.dcnt.toNat + 1 = 10
  omega

/-- The tenth bit dispatches the code word at once (R186). -/
theorem Decoder.shiftBit_tenth (d : Decoder) (x : Bool) (h : d.ca.dcnt.toNat = 9) :
    d.shiftBit x = (d.dispatch (d.ca.shift x).dacc).endDispatch := by
  unfold Decoder.shiftBit
  dsimp only
  rw [if_pos]
  · have := Decoder.dispatch_ca d (d.ca.shift x) .dispatch d.inCount (d.ca.shift x).dacc
    rw [this]
    simp only [Decoder.endDispatch, Decoder.dispatch_inCount]
  · rw [CodeAcc.shift_dcnt _ _ (by omega)]
    show d.ca.dcnt.toNat + 1 = 10
    omega

/-! ### Many bits -/

/-- Bits fed one after the other (R185). -/
def Decoder.feedBits (d : Decoder) (bits : List Bool) : Decoder := bits.foldl Decoder.shiftBit d

theorem Decoder.feedBits_append (d : Decoder) (bits more : List Bool) :
    d.feedBits (bits ++ more) = (d.feedBits bits).feedBits more := List.foldl_append

/-- Framing (R107, R186): the accumulated bits and the fed bits are code words, which are dispatched in order, and fewer than
ten bits that stay in the accumulator. -/
theorem Decoder.feedBits_eq (bits : List Bool) (d : Decoder) (hca : d.ca.Inv) (hph : d.phase = .accumulating)
    (cws : List CodeWord) (rest : List Bool) (hrest : rest.length < 10)
    (h : d.ca.bits ++ bits = cws.flatMap codeBits ++ rest) :
    ∃ ca', ca'.Inv ∧ ca'.bits = rest ∧ d.feedBits bits = { d.dispatchAll cws with ca := ca' } := by
  induction bits generalizing d cws with
  | nil =>
    have hl := congrArg List.length h
    rw [List.length_append, List.length_append, flatMap_codeBits_length, CodeAcc.bits_length, List.length_nil] at hl
    have := hca.1
    obtain rfl : cws = [] := List.eq_nil_of_length_eq_zero (by omega)
    exact ⟨d.ca, hca, by simpa using h, rfl⟩
  | cons x bits ih =>
    have h' : (d.ca.shift x).bits ++ bits = cws.flatMap codeBits ++ rest := by
      rw [CodeAcc.shift_bits _ _ hca.1, ← h]; simp
    have hdc := CodeAcc.shift_dcnt d.ca x hca.1
    have hlt := CodeAcc.shift_lt d.ca x hca.1 hca.2
    by_cases h9 : d.ca.dcnt.toNat = 9
    · have hfull := CodeAcc.bits_full (d.ca.shift x) (by omega)
      rw [hfull] at h'
      cases cws with
      | nil =>
        have hl := congrArg List.length h'
        simp at hl
        omega
      | cons cw cws =>
        rw [List.flatMap_cons, List.append_assoc] at h'
        obtain ⟨hcw, hrem⟩ := List.append_inj h' rfl
        have hcw := codeBits_injective hcw
        have hstep : d.feedBits (x :: bits) = ((d.dispatch cw).endDispatch).feedBits bits := by
          unfold Decoder.feedBits
          rw [List.foldl_cons, Decoder.shiftBit_tenth d x h9, hcw]
        obtain ⟨ca', h1, h2, h3⟩ := ih (d.dispatch cw).endDispatch ⟨Nat.zero_le _, Nat.zero_lt_one⟩ rfl cws
          (by simpa [CodeAcc.bits] using hrem)
        refine ⟨ca', h1, h2, ?_⟩
        rw [hstep, h3, Decoder.dispatchAll_cons]
        have := Decoder.dispatchAll_ca (d.dispatch cw) { dacc := 0, dcnt := 0 } .accumulating (d.dispatch cw).inCount cws
        have h4 : (d.dispatch cw).endDispatch
            = { d.dispatch cw with ca := { dacc := 0, dcnt := 0 }, phase := .accumulating, inCount := (d.dispatch cw).inCount } := rfl
        rw [h4, this]
        have h5 := Decoder.dispatchAll_ca (d.dispatch cw) (d.dispatch cw).ca .accumulating (d.dispatch cw).inCount cws
        have h6 : { d.dispatch cw with ca := (d.dispatch cw).ca, phase := Phase.accumulating, inCount := (d.dispatch cw).inCount } = d.dispatch cw := by
          rw [← hph, ← Decoder.dispatch_phase d cw]
        rw [h6] at h5
        conv => rhs; rw [h5]
    · have hstep : d.feedBits (x :: bits) = Decoder.feedBits { d with ca := d.ca.shift x } bits := by
        unfold Decoder.feedBits
        rw [List.foldl_cons, Decoder.shiftBit_short d x (by have := hca.1; omega)]
      obtain ⟨ca', h1, h2, h3⟩ := ih { d with ca := d.ca.shift x } ⟨by have := hca.1; dsimp only; omega, hlt⟩ hph cws h'
      refine ⟨ca', h1, h2, ?_⟩
      rw [hstep, h3]
      have := Decoder.dispatchAll_ca d (d.ca.shift x) d.phase d.inCount cws
      rw [show ({ d with ca := d.ca.shift x } : Decoder)
        = { d with ca := d.ca.shift x, phase := d.phase, inCount := d.inCount } from rfl, this]
      have h5 := Decoder.dispatchAll_ca d d.ca d.phase d.inCount cws
      conv => rhs; rw [show d = { d with ca := d.ca, phase := d.phase, inCount := d.inCount } from rfl, h5]

/-- Every sequence of bits is code words and fewer than ten bits (R107). -/
theorem exists_codeWords (bits : List Bool) :
    ∃ (cws : List CodeWord) (rest : List Bool), bits = cws.flatMap codeBits ++ rest ∧ rest.length < 10 := by
  match bits with
  | a :: b :: c :: d :: e :: f :: g :: h :: i :: j :: more =>
    obtain ⟨cws, rest, h1, h2⟩ := exists_codeWords more
    obtain ⟨cw, hcw⟩ := exists_codeBits [a, b, c, d, e, f, g, h, i, j] rfl
    exact ⟨cw :: cws, rest, by rw [List.flatMap_cons, hcw, h1]; rfl, h2⟩
  | [] => exact ⟨[], [], rfl, by decide⟩
  | [_] => exact ⟨[], _, rfl, by simp⟩
  | [_, _] => exact ⟨[], _, rfl, by simp⟩
  | [_, _, _] => exact ⟨[], _, rfl, by simp⟩
  | [_, _, _, _] => exact ⟨[], _, rfl, by simp⟩
  | [_, _, _, _, _] => exact ⟨[], _, rfl, by simp⟩
  | [_, _, _, _, _, _] => exact ⟨[], _, rfl, by simp⟩
  | [_, _, _, _, _, _, _] => exact ⟨[], _, rfl, by simp⟩
  | [_, _, _, _, _, _, _, _] => exact ⟨[], _, rfl, by simp⟩
  | [_, _, _, _, _, _, _, _, _] => exact ⟨[], _, rfl, by simp⟩

/-- Everything dispatching code words does: it outputs bytes and may set REF_OOR (R213, R251). -/
theorem Decoder.dispatchAll_eq (d : Decoder) (cws : List CodeWord) :
    ∃ (bytes : List Byte) (bad : Bool), d.dispatchAll cws = { d with
      dw := d.dw.appendAll bytes
      out := d.out ++ bytes
      outCount := d.outCount + BitVec.ofNat 32 bytes.length
      refOor := d.refOor || bad } := by
  induction cws generalizing d with
  | nil => exact ⟨[], false, by simp⟩
  | cons cw cws ih =>
    obtain ⟨bytes, bad, h⟩ := ih (d.dispatch cw)
    refine ⟨codeBytes cw d.dw ++ bytes, codeMalformed cw d.dw || bad, ?_⟩
    rw [Decoder.dispatchAll_cons, h, Decoder.dispatch_eq]
    simp only [Window.appendAll_append, List.append_assoc, List.length_append, BitVec.ofNat_add, BitVec.add_assoc,
      Bool.or_assoc]

/-! ### Bytes -/

/-- The count of accepted bytes plays no part in unpacking. -/
theorem Decoder.shiftBit_inCount (d : Decoder) (x : Bool) (n : BitVec 32) :
    Decoder.shiftBit { d with inCount := n } x = { d.shiftBit x with inCount := n } := by
  unfold Decoder.shiftBit
  dsimp only
  split
  · rw [Decoder.dispatch_ca d _ .dispatch n]
    rw [Decoder.dispatch_ca d _ .dispatch d.inCount]
    rfl
  · rfl

theorem Decoder.feedBits_inCount (d : Decoder) (bits : List Bool) (n : BitVec 32) :
    Decoder.feedBits { d with inCount := n } bits = { d.feedBits bits with inCount := n } := by
  induction bits generalizing d with
  | nil => rfl
  | cons x bits ih =>
    unfold Decoder.feedBits at *
    rw [List.foldl_cons, Decoder.shiftBit_inCount, ih, List.foldl_cons]

/-- `DEC.BYTE` in state READY counts the byte and feeds its bits (R211). -/
theorem Decoder.acceptByte_eq (d : Decoder) (b : Byte) :
    d.acceptByte b = { d.feedBits (byteBits b) with inCount := d.inCount + 1 } :=
  Decoder.feedBits_inCount d (byteBits b) _

theorem Decoder.foldl_acceptByte (d : Decoder) (bytes : List Byte) :
    bytes.foldl Decoder.acceptByte d
      = { d.feedBits (bytes.flatMap byteBits) with
          inCount := bytes.foldl (fun n _ => n + 1) d.inCount } := by
  induction bytes generalizing d with
  | nil => rfl
  | cons b bytes ih =>
    rw [List.foldl_cons, ih, Decoder.acceptByte_eq, Decoder.feedBits_inCount, List.flatMap_cons,
      Decoder.feedBits_append, List.foldl_cons]

/-- Everything `DEC.BYTE` does in state READY between commands (R185 to R187). -/
theorem Decoder.acceptByte_cases (d : Decoder) (b : Byte) (hca : d.ca.Inv) (hph : d.phase = .accumulating) :
    ∃ (cws : List CodeWord) (ca' : CodeAcc), ca'.Inv ∧ d.ca.bits ++ byteBits b = cws.flatMap codeBits ++ ca'.bits ∧
      cws.length = (d.ca.dcnt.toNat + 8) / 10 ∧ ca'.dcnt.toNat = (d.ca.dcnt.toNat + 8) % 10 ∧
      d.acceptByte b = { d.dispatchAll cws with ca := ca', inCount := d.inCount + 1 } := by
  obtain ⟨cws, rest, h1, h2⟩ := exists_codeWords (d.ca.bits ++ byteBits b)
  obtain ⟨ca', h3, h4, h5⟩ := Decoder.feedBits_eq (byteBits b) d hca hph cws rest h2 h1
  have hl := congrArg List.length h1
  rw [List.length_append, List.length_append, flatMap_codeBits_length, CodeAcc.bits_length, byteBits_length] at hl
  have hd : ca'.dcnt.toNat = rest.length := by rw [← h4, CodeAcc.bits_length]
  refine ⟨cws, ca', h3, by rw [h4, h1], by omega, by omega, ?_⟩
  rw [Decoder.acceptByte_eq, h5]

/-- `DEC.BYTE` keeps what holds of the decoder between commands (R46). -/
theorem Decoder.Inv_acceptByte {d : Decoder} (b : Byte) (h : d.Inv) (hr : d.run = .ready) : (d.acceptByte b).Inv := by
  obtain ⟨hw, hca, hph, _⟩ := h
  obtain ⟨cws, ca', h1, _, _, _, h2⟩ := Decoder.acceptByte_cases d b hca hph
  obtain ⟨bytes, bad, h3⟩ := Decoder.dispatchAll_eq d cws
  rw [h2, h3]
  refine ⟨Window.Inv_appendAll bytes hw, h1, hph, fun hd => ?_⟩
  exact absurd (hd.symm.trans hr) (by decide)

theorem Decoder.Inv_dispatch {d : Decoder} (cw : CodeWord) (h : d.Inv) : (d.dispatch cw).Inv := by
  obtain ⟨hw, hca, hph, hd⟩ := h
  rw [Decoder.dispatch_eq]
  exact ⟨Window.Inv_appendAll _ hw, hca, hph, hd⟩

theorem Decoder.Inv_finish {d : Decoder} (h : d.Inv) : d.finish.Inv :=
  ⟨h.1, ⟨Nat.zero_le _, Nat.zero_lt_one⟩, h.2.2.1, fun _ => ⟨rfl, rfl⟩⟩

theorem Decoder.Inv_init (d : Decoder) : d.init.Inv :=
  ⟨Window.Inv_empty, ⟨Nat.zero_le _, Nat.zero_lt_one⟩, rfl, fun h => nomatch h⟩

/-! ### What any byte may change -/

theorem CodeAcc.foldl_shift_dcnt (bits : List Bool) (c : CodeAcc) :
    (bits.foldl CodeAcc.shift c).dcnt = c.dcnt + BitVec.ofNat 4 bits.length := by
  induction bits generalizing c with
  | nil => simp
  | cons x bits ih =>
    rw [List.foldl_cons, ih, List.length_cons]
    simp only [CodeAcc.shift]
    rw [BitVec.add_assoc, Nat.add_comm, BitVec.ofNat_add]
    rfl

theorem CodeAcc.foldl_shift_dacc (bits : List Bool) (c : CodeAcc) (i : Nat) (hi : i < 10) :
    (bits.foldl CodeAcc.shift c).dacc.getLsbD i
      = if i < bits.length then bits[bits.length - 1 - i]?.getD false else c.dacc.getLsbD (i - bits.length) := by
  induction bits generalizing c with
  | nil => simp
  | cons x bits ih =>
    rw [List.foldl_cons, ih, List.length_cons]
    by_cases h : i < bits.length
    · rw [if_pos h, if_pos (by omega), show bits.length + 1 - 1 - i = (bits.length - 1 - i) + 1 by omega,
        List.getElem?_cons_succ]
    · rw [if_neg h]
      simp only [CodeAcc.shift]
      rw [shift10_getLsbD]
      by_cases h2 : i = bits.length
      · subst h2; simp
      · rw [if_neg (by omega), if_neg (by omega)]
        simp only [show i - bits.length < 10 by omega, decide_true, Bool.true_and]
        congr 1

/-- The `k` highest bits of a byte shifted in, in closed form (R185). -/
theorem CodeAcc.shift_take (c : CodeAcc) (b : Byte) (k : Nat) (hk : k ≤ 8) :
    ((byteBits b).take k).foldl CodeAcc.shift c
      = { dacc := (c.dacc <<< k) ||| (b >>> (8 - k)).setWidth 10, dcnt := c.dcnt + BitVec.ofNat 4 k } := by
  have hl : ((byteBits b).take k).length = k := by simp; omega
  have hb : ∀ j < k, ((byteBits b).take k)[k - 1 - j]? = some (b.getLsbD (8 - k + j)) := by
    intro j hj
    rw [List.getElem?_take, if_pos (by omega), byteBits_eq, List.getElem?_map, List.getElem?_range (by omega),
      Option.map_some]
    congr 2; omega
  have h1 := CodeAcc.foldl_shift_dcnt ((byteBits b).take k) c
  have h2 := CodeAcc.foldl_shift_dacc ((byteBits b).take k) c
  generalize ((byteBits b).take k).foldl CodeAcc.shift c = r at h1 h2
  rw [hl] at h1
  obtain ⟨ra, rc⟩ := r
  dsimp only at h1 h2
  rw [h1]
  congr 1
  apply BitVec.eq_of_getLsbD_eq
  intro i hi
  rw [h2 i hi, hl, BitVec.getLsbD_or, BitVec.getLsbD_shiftLeft, BitVec.getLsbD_setWidth, BitVec.getLsbD_ushiftRight]
  by_cases h : i < k
  · rw [if_pos h, hb i h]; simp [h, hi]
  · have : b.getLsbD (8 - k + i) = false := BitVec.getLsbD_of_ge _ _ (by omega)
    rw [if_neg h]; simp [h, hi, this]

/-- Bits none of which is a tenth bit are only shifted in (R185). -/
theorem Decoder.feedBits_shift (bits : List Bool) (d : Decoder)
    (h : ∀ j < bits.length, (d.ca.dcnt.toNat + j + 1) % 16 ≠ 10) :
    d.feedBits bits = { d with ca := bits.foldl CodeAcc.shift d.ca } := by
  induction bits generalizing d with
  | nil => rfl
  | cons x bits ih =>
    have hd : (d.ca.shift x).dcnt.toNat = (d.ca.dcnt.toNat + 1) % 16 := by
      simp only [CodeAcc.shift, BitVec.toNat_add, toNat_one4']
    have h1 : d.shiftBit x = { d with ca := d.ca.shift x } := by
      unfold Decoder.shiftBit
      dsimp only
      rw [if_neg]
      rw [hd]
      exact h 0 (by simp)
    show (d.shiftBit x).feedBits bits = _
    rw [h1, ih]
    · rfl
    · intro j hj
      have := h (j + 1) (by simpa using hj)
      dsimp only
      rw [hd]
      omega

/-- Everything the eight bits of a byte do, in any state: without a code word they are only shifted in; with one it is
dispatched, and the bits after its tenth stay in the accumulator (R185 to R187). -/
theorem Decoder.feedBits_byteBits (d : Decoder) (b : Byte) : ∃ ca : CodeAcc,
    d.feedBits (byteBits b) = match d.ca.completes b with
      | none => { d with ca := ca }
      | some cw => { d.dispatch cw with ca := ca, phase := .accumulating } := by
  unfold CodeAcc.completes
  by_cases hc : 2 ≤ d.ca.dcnt.toNat ∧ d.ca.dcnt.toNat ≤ 9
  · obtain ⟨k, hk⟩ : ∃ k, k + 1 + d.ca.dcnt.toNat = 10 := ⟨9 - d.ca.dcnt.toNat, by omega⟩
    have hsplit : byteBits b = (byteBits b).take k ++ b.getLsbD (7 - k) :: (byteBits b).drop (k + 1) := by
      conv => lhs; rw [← List.take_append_drop k (byteBits b)]
      rw [List.drop_eq_getElem_cons (by simp; omega)]
      simp [byteBits_eq]
    have hlen : ((byteBits b).take k).length = k := by simp; omega
    have hshift : CodeAcc.shift (((byteBits b).take k).foldl CodeAcc.shift d.ca) (b.getLsbD (7 - k))
        = ((byteBits b).take (k + 1)).foldl CodeAcc.shift d.ca := by
      rw [List.take_add_one, List.foldl_append, byteBits_eq, List.getElem?_map, List.getElem?_range (by omega)]
      rfl
    have h9 : (((byteBits b).take k).foldl CodeAcc.shift d.ca).dcnt.toNat = 9 := by
      rw [CodeAcc.foldl_shift_dcnt, hlen, BitVec.toNat_add, BitVec.toNat_ofNat]; omega
    have hrest : ∀ e : Decoder, e.ca = { dacc := 0, dcnt := 0 } → e.feedBits ((byteBits b).drop (k + 1))
        = { e with ca := ((byteBits b).drop (k + 1)).foldl CodeAcc.shift e.ca } := by
      intro e he
      apply Decoder.feedBits_shift
      intro j hj
      rw [he]
      simp at hj ⊢
      omega
    refine ⟨((byteBits b).drop (k + 1)).foldl CodeAcc.shift { dacc := 0, dcnt := 0 }, ?_⟩
    rw [if_pos hc]
    dsimp only
    conv => lhs; rw [hsplit]
    rw [Decoder.feedBits_append, Decoder.feedBits_shift _ d (by intro j hj; omega)]
    have ht := Decoder.shiftBit_tenth { d with ca := ((byteBits b).take k).foldl CodeAcc.shift d.ca } (b.getLsbD (7 - k)) h9
    dsimp only at ht
    rw [hshift, CodeAcc.shift_take _ _ (k + 1) (by omega)] at ht
    show (Decoder.shiftBit _ _).feedBits _ = _
    rw [ht, hrest _ rfl]
    have hk1 : k + 1 = 10 - d.ca.dcnt.toNat := by omega
    have hk2 : 8 - (k + 1) = d.ca.dcnt.toNat - 2 := by omega
    rw [hk2]
    dsimp only
    rw [show ({ d with ca := ((byteBits b).take k).foldl CodeAcc.shift d.ca } : Decoder)
      = { d with ca := ((byteBits b).take k).foldl CodeAcc.shift d.ca, phase := d.phase, inCount := d.inCount } from rfl,
      Decoder.dispatch_ca, hk1]
    simp [Decoder.endDispatch]
  · refine ⟨(byteBits b).foldl CodeAcc.shift d.ca, ?_⟩
    rw [if_neg hc]
    apply Decoder.feedBits_shift
    intro j hj
    have := d.ca.dcnt.isLt
    rw [byteBits_length] at hj
    omega

/-- A byte dispatches a malformed back-reference when the code word it completes is one for the window (R186, R219). -/
theorem Decoder.dispatchesMalformed_eq (d : Decoder) (b : Byte) :
    d.dispatchesMalformed b = (d.ca.completes b).elim false (fun cw => codeMalformed cw d.dw) := by
  unfold Decoder.dispatchesMalformed
  cases d.ca.completes b <;> rfl

/-- `DEC.BYTE` in state READY, whatever else the state holds: the byte is counted, bytes are output, and REF_OOR is set
exactly if the completed code word is a malformed back-reference (R211, R219). -/
theorem Decoder.acceptByte_frame (d : Decoder) (b : Byte) :
    ∃ (bytes : List Byte) (ca : CodeAcc) (ph : Phase), d.acceptByte b = { d with
      dw := d.dw.appendAll bytes
      out := d.out ++ bytes
      outCount := d.outCount + BitVec.ofNat 32 bytes.length
      refOor := d.refOor || d.dispatchesMalformed b
      ca := ca
      phase := ph
      inCount := d.inCount + 1 } := by
  obtain ⟨ca, h⟩ := Decoder.feedBits_byteBits d b
  rw [Decoder.acceptByte_eq, h, Decoder.dispatchesMalformed_eq]
  cases d.ca.completes b with
  | none => exact ⟨[], ca, d.phase, by simp⟩
  | some cw => exact ⟨codeBytes cw d.dw, ca, .accumulating, by dsimp only; rw [Decoder.dispatch_eq]; rfl⟩

/-- A code word is a malformed back-reference exactly if it decodes to a copy with `p + L > n` (R101, R219). -/
theorem codeMalformed_iff (cw : CodeWord) (w : Window) : codeMalformed cw w = true ↔
    ∃ (len : Nat) (p : Byte), (len, decodeCode cw) ∈ [(4, Instr.copy4 p), (8, .copy8 p), (16, .copy16 p)] ∧
      w.n.toNat < p.toNat + len := by
  unfold codeMalformed decodeCode
  split
  · simp
  · split
    · simp [malformed_iff, and_assoc]
    · split <;> simp [malformed_iff, and_assoc]

/-- What a byte dispatches is malformed, said through the decoder of code words (R186, R219). -/
theorem Decoder.dispatchesMalformed_iff (d : Decoder) (b : Byte) :
    d.dispatchesMalformed b = true ↔ d.CompletesMalformed b := by
  have hdec : ∀ cw : CodeWord, decode .cw10 cw.toNat = .ok (decodeCode cw) := by
    intro cw
    simp [decode, cw.isLt]
  unfold Decoder.dispatchesMalformed CodeAcc.completes Decoder.CompletesMalformed
  simp only [hdec, Except.ok.injEq]
  constructor
  · intro h
    by_cases hc : 2 ≤ d.ca.dcnt.toNat ∧ d.ca.dcnt.toNat ≤ 9
    · rw [if_pos hc] at h
      obtain ⟨len, p, h1, h2⟩ := (codeMalformed_iff _ _).1 h
      refine ⟨10 - d.ca.dcnt.toNat, len, p, _, by omega, by omega, by omega, rfl, ?_, h2⟩
      rw [show 8 - (10 - d.ca.dcnt.toNat) = d.ca.dcnt.toNat - 2 by omega]
      exact h1
    · rw [if_neg hc] at h; cases h
  · rintro ⟨k, len, p, i, hk, h1, h8, rfl, hm, hn⟩
    rw [if_pos (by omega)]
    refine (codeMalformed_iff _ _).2 ⟨len, p, ?_, hn⟩
    rw [show 10 - d.ca.dcnt.toNat = k by omega, show d.ca.dcnt.toNat - 2 = 8 - k by omega]
    exact hm

/-! ### Well-formed streams (R219, R220) -/

/-- REF_OOR after many code words is set exactly by a malformed one (R219, R251). -/
theorem Decoder.dispatchAll_refOor (cws : List CodeWord) (d e : Decoder) (hw : d.dw = e.dw) :
    (d.dispatchAll cws).refOor = false ↔ d.refOor = false ∧ Decoder.dispatchesWellFormed cws e = true := by
  induction cws generalizing d e with
  | nil => simp [Decoder.dispatchesWellFormed]
  | cons cw cws ih =>
    rw [Decoder.dispatchAll_cons, ih (d.dispatch cw) (e.dispatch cw) (by rw [Decoder.dispatch_eq, Decoder.dispatch_eq, hw]),
      Decoder.dispatchesWellFormed, Decoder.dispatch_eq]
    simp [hw, and_assoc]

theorem codeOfBits_codeBits (cw : CodeWord) : codeOfBits (codeBits cw) = cw := by
  have h : ∀ (bits : List Bool) (c : CodeAcc),
      (bits.foldl CodeAcc.shift c).dacc = bits.foldl (fun (acc : CodeWord) x => (acc <<< 1) ||| (BitVec.ofBool x).setWidth 10) c.dacc := by
    intro bits
    induction bits with
    | nil => intro c; rfl
    | cons x bits ih => intro c; exact ih (c.shift x)
  apply BitVec.eq_of_getLsbD_eq
  intro i hi
  have := CodeAcc.foldl_shift_dacc (codeBits cw) { dacc := 0, dcnt := 0 } i hi
  rw [h, codeBits_length, if_pos hi, codeBits_eq, List.getElem?_map, List.getElem?_range (by omega)] at this
  rw [codeOfBits, codeBits_eq]
  refine this.trans ?_
  simp only [Option.map_some, Option.getD_some]
  congr 1
  omega

/-- The ten-bit groups of code words followed by fewer than ten bits are those code words (R104, R107). -/
theorem codeGroups_eq (cws : List CodeWord) (rest : List Bool) (h : rest.length < 10) :
    codeGroups (cws.flatMap codeBits ++ rest) = cws := by
  induction cws with
  | nil =>
    rw [List.flatMap_nil, List.nil_append]
    unfold codeGroups
    split
    · simp at h; omega
    · rfl
  | cons cw cws ih =>
    rw [List.flatMap_cons, List.append_assoc]
    show codeOfBits (codeBits cw) :: codeGroups (cws.flatMap codeBits ++ rest) = _
    rw [codeOfBits_codeBits, ih]

/-- Between two bits the phase is ACCUMULATING (R24, R186). -/
theorem Decoder.feedBits_phase (d : Decoder) (bits : List Bool) (h : d.phase = .accumulating) :
    (d.feedBits bits).phase = .accumulating := by
  induction bits generalizing d with
  | nil => exact h
  | cons x bits ih =>
    refine ih (d.shiftBit x) ?_
    unfold Decoder.shiftBit
    dsimp only
    split
    · rfl
    · exact h

theorem Decoder.acceptByte_phase (d : Decoder) (b : Byte) (h : d.phase = .accumulating) :
    (d.acceptByte b).phase = .accumulating := by
  have hp := Decoder.feedBits_phase d (byteBits b) h
  rw [Decoder.acceptByte_eq]
  dsimp only
  rw [hp]

end Sys2Proof.Machine
end

