-- ==== Sys2Proof/Laws/Encoder.lean ====
section
/-! SUPPORT. The laws of the encoder: the search, what a decision and the drain emit, and that a decoder with the same window
reproduces the bytes they cover (R143 to R157, R221, R222). -/

namespace Sys2Proof.Machine

/-! ### The search -/

theorem Encoder.matchesAt_iff (e : Encoder) (len p : Nat) :
    e.matchesAt len p = true ↔ ∀ k < len, e.ew.read (p + k) = e.la.peek k := by
  simp [Encoder.matchesAt]

/-- The search answers the smallest match (R144, R145, R147). -/
theorem Encoder.search_eq_some (e : Encoder) (len p : Nat) :
    e.search len = some p ↔ e.RunMatches len p ∧ ∀ q < p, ¬e.RunMatches len q := by
  unfold Encoder.search Encoder.RunMatches
  rw [List.find?_range_eq_some]
  simp only [Encoder.matchesAt_iff, Bool.not_eq_true', List.mem_range, ← Bool.not_eq_true]
  constructor
  · rintro ⟨h1, h2, h3⟩
    exact ⟨⟨by omega, h1⟩, fun q hq hm => h3 q hq hm.2⟩
  · rintro ⟨⟨h1, h2⟩, h3⟩
    exact ⟨h2, by omega, fun q hq hm => h3 q hq ⟨by omega, hm⟩⟩

/-- The search answers `NONE` exactly when there is no match (R144, R145). -/
theorem Encoder.search_eq_none (e : Encoder) (len : Nat) :
    e.search len = none ↔ ∀ p, ¬e.RunMatches len p := by
  unfold Encoder.search Encoder.RunMatches
  simp only [List.find?_range_eq_none, ← Bool.not_eq_true, Encoder.matchesAt_iff, Bool.not_eq_true']
  constructor
  · intro h p hm
    exact h p (by omega) hm.2
  · intro h p hp hm
    exact h p ⟨by omega, hm⟩

/-! ### The lookahead, several bytes at once -/

/-- The lookahead after `k` pops (R70). -/
def Lookahead.popN (l : Lookahead) (k : Nat) : Lookahead :=
  { l with ri := l.ri + BitVec.ofNat 4 k, ls := l.ls - BitVec.ofNat 5 k }

@[simp] theorem Lookahead.popN_zero (l : Lookahead) : l.popN 0 = l := by simp [Lookahead.popN]

theorem Lookahead.popN_pop (l : Lookahead) (k : Nat) : l.pop.popN k = l.popN (k + 1) := by
  simp only [Lookahead.popN, Lookahead.pop, Lookahead.mk.injEq, true_and]
  constructor
  · apply BitVec.eq_of_toNat_eq
    simp only [BitVec.toNat_add, BitVec.toNat_ofNat, toNat_one4]; omega
  · apply BitVec.eq_of_toNat_eq
    simp only [BitVec.toNat_sub, BitVec.toNat_ofNat, toNat_one5]; omega

theorem Lookahead.popN_ls (l : Lookahead) (k : Nat) (h : k ≤ l.ls.toNat) : (l.popN k).ls.toNat = l.ls.toNat - k := by
  have := l.ls.isLt
  simp only [Lookahead.popN, BitVec.toNat_sub, BitVec.toNat_ofNat]
  omega

theorem Lookahead.popN_linked (l : Lookahead) (k : Nat) (h : k ≤ l.ls.toNat)
    (hwi : l.wi.toNat = (l.ri.toNat + l.ls.toNat) % 16) :
    (l.popN k).wi.toNat = ((l.popN k).ri.toNat + (l.popN k).ls.toNat) % 16 := by
  have := l.ls.isLt
  rw [Lookahead.popN_ls l k h]
  simp only [Lookahead.popN, BitVec.toNat_add, BitVec.toNat_ofNat]
  omega

/-- The `k` oldest lookahead bytes, oldest first (R71). -/
def Lookahead.oldest (l : Lookahead) (k : Nat) : List Byte := (List.range k).map l.peek

@[simp] theorem Lookahead.oldest_length (l : Lookahead) (k : Nat) : (l.oldest k).length = k := by simp [Lookahead.oldest]

theorem Lookahead.oldest_succ (l : Lookahead) (k : Nat) : l.oldest (k + 1) = l.front :: l.pop.oldest k := by
  simp only [Lookahead.oldest, List.range_succ_eq_map, List.map_cons, List.map_map, Lookahead.front_eq_peek]
  congr 1
  apply List.map_congr_left
  intro i _
  exact (Lookahead.peek_pop l i).symm

theorem Lookahead.contents_eq_oldest (l : Lookahead) : l.contents = l.oldest l.ls.toNat := rfl

/-- The queue is its `k` oldest bytes and what `k` pops leave (R70, R71). -/
theorem Lookahead.contents_popN (l : Lookahead) (k : Nat) (h : k ≤ l.ls.toNat) :
    l.contents = l.oldest k ++ (l.popN k).contents := by
  induction k generalizing l with
  | zero => simp [Lookahead.oldest]
  | succ k ih =>
    rw [Lookahead.contents_eq_cons l (by omega), Lookahead.oldest_succ, List.cons_append, ← Lookahead.popN_pop]
    congr 1
    exact ih _ (by rw [Lookahead.pop_ls_toNat l (by omega)]; omega)

/-! ### Actions -/

/-- Moving `k` bytes from the lookahead into the window (R148). -/
theorem Encoder.moveBytes_eq (k : Nat) (e : Encoder) :
    Encoder.moveBytes k e = { e with la := e.la.popN k, ew := e.ew.appendAll (e.la.oldest k) } := by
  induction k generalizing e with
  | zero => simp [Encoder.moveBytes, Lookahead.oldest]
  | succ k ih =>
    rw [Encoder.moveBytes, ih, Lookahead.oldest_succ]
    simp only [Encoder.moveByte, Lookahead.popN_pop, Window.appendAll_cons]

/-- Emitting code words `cws` for the `bytes` they cover takes the encoder from `e` to `e'`: the stream grows by the code
words' bits, the bytes leave the lookahead for the window, a decoder with the same window outputs exactly those bytes, and
nothing else changes. -/
structure Encoder.Covers (e e' : Encoder) (cws : List CodeWord) (bytes : List Byte) : Prop where
  stream : e'.stream = e.stream ++ cws.flatMap codeBits
  window : e'.ew = e.ew.appendAll bytes
  queue : e.la.contents = bytes ++ e'.la.contents
  lookahead : e'.la = e.la.popN bytes.length
  agrees : ∀ d : Decoder, d.dw = e.ew → d.dispatchAll cws = d.outputAll bytes
  run : e'.run = e.run
  inCount : e'.inCount = e.inCount
  errSeq : e'.errSeq = e.errSeq
  errCmd : e'.errCmd = e.errCmd
  emitted : ∃ packed, e'.out = e.out ++ packed ∧ e'.outCount = e.outCount + BitVec.ofNat 32 packed.length
  packer : e.pk.Inv → e'.pk.Inv

theorem Encoder.Covers.refl (e : Encoder) : Encoder.Covers e e [] [] :=
  ⟨by simp, rfl, rfl, by simp, fun _ _ => rfl, rfl, rfl, rfl, rfl, ⟨[], by simp, by simp⟩, id⟩

theorem Decoder.outputAll_append (d : Decoder) (bs cs : List Byte) :
    d.outputAll (bs ++ cs) = (d.outputAll bs).outputAll cs := List.foldl_append

theorem Lookahead.popN_popN (l : Lookahead) (j k : Nat) : (l.popN j).popN k = l.popN (j + k) := by
  simp only [Lookahead.popN, Lookahead.mk.injEq, true_and]
  constructor
  · apply BitVec.eq_of_toNat_eq
    simp only [BitVec.toNat_add, BitVec.toNat_ofNat]; omega
  · apply BitVec.eq_of_toNat_eq
    simp only [BitVec.toNat_sub, BitVec.toNat_ofNat]; omega

theorem Encoder.Covers.trans {e e' e'' : Encoder} {cws cws' : List CodeWord} {bytes bytes' : List Byte}
    (h : Encoder.Covers e e' cws bytes) (h' : Encoder.Covers e' e'' cws' bytes') :
    Encoder.Covers e e'' (cws ++ cws') (bytes ++ bytes') := by
  obtain ⟨bs, hb1, hb2⟩ := h.emitted
  obtain ⟨cs, hc1, hc2⟩ := h'.emitted
  refine ⟨?_, ?_, ?_, ?_, ?_, h'.run.trans h.run, h'.inCount.trans h.inCount, h'.errSeq.trans h.errSeq,
    h'.errCmd.trans h.errCmd, ⟨bs ++ cs, ?_, ?_⟩, fun hp => h'.packer (h.packer hp)⟩
  · rw [h'.stream, h.stream, List.flatMap_append, List.append_assoc]
  · rw [h'.window, h.window, Window.appendAll_append]
  · rw [h.queue, h'.queue, List.append_assoc]
  · rw [h'.lookahead, h.lookahead, Lookahead.popN_popN, List.length_append]
  · intro d hd
    unfold Decoder.dispatchAll
    rw [List.foldl_append]
    change (d.dispatchAll cws).dispatchAll cws' = _
    rw [h.agrees d hd, h'.agrees, Decoder.outputAll_append]
    rw [Decoder.outputAll_eq, h.window, hd]
  · rw [hc1, hb1, List.append_assoc]
  · rw [hc2, hb2, List.length_append, BitVec.add_assoc, ← BitVec.ofNat_add]

/-- `LiteralAction` covers the oldest byte by `LIT` (R149). -/
theorem Encoder.literalAction_covers (e : Encoder) (h : 0 < e.la.ls.toNat) :
    Encoder.Covers e e.literalAction [litCode e.la.front] [e.la.front] := by
  have hf := Encoder.packCode_frame { e with la := e.la.pop } (litCode e.la.front)
  have hs := Encoder.packCode_stream { e with la := e.la.pop } (litCode e.la.front)
  have hk := Encoder.packCode_Inv { e with la := e.la.pop } (litCode e.la.front)
  unfold Encoder.literalAction
  dsimp only
  generalize Encoder.packCode { e with la := e.la.pop } (litCode e.la.front) = g at hf hs hk
  refine ⟨?_, ?_, ?_, ?_, ?_, hf.run, hf.inCount, hf.errSeq, hf.errCmd, hf.emitted, hk⟩
  · simpa [Encoder.stream] using hs
  · dsimp only; rw [hf.ew]; rfl
  · dsimp only; rw [hf.la]; exact Lookahead.contents_eq_cons _ h
  · dsimp only; rw [hf.la]; rfl
  · intro d _
    simp [Decoder.dispatchAll, Decoder.outputAll, Decoder.lit]

/-- `MatchAction` covers the matched bytes by one back-reference (R148, R154, R221). -/
theorem Encoder.matchAction_covers (e : Encoder) (L : CopyLength) (p : Nat) (hn : e.ew.n.toNat ≤ 256)
    (hL : copyBytes L ≤ e.la.ls.toNat) (hm : e.RunMatches (copyBytes L) p) :
    Encoder.Covers e (e.matchAction L p) [copyCode L (BitVec.ofNat 8 p)] (e.la.oldest (copyBytes L)) := by
  have hf := Encoder.packCode_frame e (copyCode L (BitVec.ofNat 8 p))
  have hs := Encoder.packCode_stream e (copyCode L (BitVec.ofNat 8 p))
  have hL0 : 0 < copyBytes L := by cases L <;> decide
  have hp : (BitVec.ofNat 8 p).toNat = p := by
    have := hm.1
    rw [BitVec.toNat_ofNat]; omega
  have hk := Encoder.packCode_Inv e (copyCode L (BitVec.ofNat 8 p))
  unfold Encoder.matchAction
  rw [Encoder.moveBytes_eq]
  generalize e.packCode (copyCode L (BitVec.ofNat 8 p)) = g at hf hs hk
  refine ⟨?_, ?_, ?_, ?_, ?_, hf.run, hf.inCount, hf.errSeq, hf.errCmd, hf.emitted, hk⟩
  · simpa [Encoder.stream] using hs
  · dsimp only; rw [hf.ew, hf.la]
  · dsimp only; rw [hf.la]; exact Lookahead.contents_popN _ _ hL
  · dsimp only; rw [hf.la, Lookahead.oldest_length]
  · intro d hd
    have hbytes : copiedBytes (copyBytes L) (startSlot d.dw (BitVec.ofNat 8 p)) d.dw = e.la.oldest (copyBytes L) := by
      rw [startSlot, hp, hd, copiedBytes_valid _ _ _ hn hm.1]
      apply List.map_congr_left
      intro k hk
      exact hm.2 k (List.mem_range.1 hk)
    have hbad : malformed d.dw L (BitVec.ofNat 8 p) = false := by
      have := hm.1
      simp only [malformed, hp, hd, decide_eq_false_iff_not]; omega
    simp only [Decoder.dispatchAll, List.foldl_cons, List.foldl_nil, Decoder.dispatch_copyCode]
    rw [Decoder.copy_eq, hbytes]
    congr 1
    simp [Decoder.checkRef, hbad]

/-- Everything a decision can do (R143, R146): the longest length with a match, at its smallest index, or a literal. -/
theorem Encoder.decision_cases (e : Encoder) :
    (∃ L p, e.decision = e.matchAction L p ∧ e.search (copyBytes L) = some p ∧
      ∀ L', copyBytes L < copyBytes L' → ∀ q, ¬e.RunMatches (copyBytes L') q) ∨
    (e.decision = e.literalAction ∧ ∀ L q, ¬e.RunMatches (copyBytes L) q) := by
  unfold Encoder.decision Config.matchLengths
  simp only [Encoder.tryLengths]
  have none16 := Encoder.search_eq_none e (copyBytes .sixteen)
  have none8 := Encoder.search_eq_none e (copyBytes .eight)
  have none4 := Encoder.search_eq_none e (copyBytes .four)
  split
  · rename_i p h
    refine .inl ⟨.sixteen, p, rfl, h, fun L' hL' => ?_⟩
    cases L' <;> simp at hL'
  · rename_i h16
    split
    · rename_i p h
      refine .inl ⟨.eight, p, rfl, h, fun L' hL' => ?_⟩
      cases L' <;> simp at hL'
      exact none16.1 h16
    · rename_i h8
      split
      · rename_i p h
        refine .inl ⟨.four, p, rfl, h, fun L' hL' => ?_⟩
        cases L' <;> simp at hL'
        · exact none8.1 h8
        · exact none16.1 h16
      · rename_i h4
        refine .inr ⟨rfl, fun L => ?_⟩
        cases L
        · exact none4.1 h4
        · exact none8.1 h8
        · exact none16.1 h16

/-- A decision emits one code word for 1, 4, 8 or 16 bytes (R143, R150). -/
theorem Encoder.decision_covers (e : Encoder) (hn : e.ew.n.toNat ≤ 256) (hls : e.la.ls.toNat = 16) :
    ∃ cw bytes, Encoder.Covers e e.decision [cw] bytes ∧
      (bytes.length = 1 ∨ bytes.length = 4 ∨ bytes.length = 8 ∨ bytes.length = 16) := by
  rcases Encoder.decision_cases e with ⟨L, p, h, hs, _⟩ | ⟨h, _⟩
  · rw [h]
    refine ⟨_, _, Encoder.matchAction_covers e L p hn ?_ ((Encoder.search_eq_some e _ p).1 hs).1, ?_⟩
    · cases L <;> simp [hls]
    · cases L <;> simp
  · rw [h]
    exact ⟨_, _, Encoder.literalAction_covers e (by omega), by simp⟩

/-- The drain covers the `k` oldest bytes by literals (R152). -/
theorem Encoder.drain_covers (k : Nat) (e : Encoder) (h : k ≤ e.la.ls.toNat) :
    Encoder.Covers e (Encoder.drain k e) ((e.la.oldest k).map litCode) (e.la.oldest k) := by
  induction k generalizing e with
  | zero => simpa [Encoder.drain, Lookahead.oldest] using Encoder.Covers.refl e
  | succ k ih =>
    have h1 := Encoder.literalAction_covers e (by omega)
    have hla : e.literalAction.la = e.la.pop := h1.lookahead
    have h2 := ih e.literalAction (by rw [hla, Lookahead.pop_ls_toNat _ (by omega)]; omega)
    rw [hla] at h2
    rw [Lookahead.oldest_succ]
    exact h1.trans h2

/-! ### What any command may change -/

/-- What an encoder action may change, in any state: the window, the lookahead, the packer and the output stream with its
count, the stream only by appending (R29, R45). -/
structure Encoder.ActFrame (e e' : Encoder) : Prop where
  run : e'.run = e.run
  inCount : e'.inCount = e.inCount
  errSeq : e'.errSeq = e.errSeq
  errCmd : e'.errCmd = e.errCmd
  emitted : ∃ packed, e'.out = e.out ++ packed ∧ e'.outCount = e.outCount + BitVec.ofNat 32 packed.length

theorem Encoder.ActFrame.refl (e : Encoder) : Encoder.ActFrame e e := ⟨rfl, rfl, rfl, rfl, [], by simp, by simp⟩

theorem Encoder.ActFrame.trans {e e' e'' : Encoder} (h : Encoder.ActFrame e e') (h' : Encoder.ActFrame e' e'') :
    Encoder.ActFrame e e'' := by
  obtain ⟨bs, hb1, hb2⟩ := h.emitted
  obtain ⟨cs, hc1, hc2⟩ := h'.emitted
  refine ⟨h'.run.trans h.run, h'.inCount.trans h.inCount, h'.errSeq.trans h.errSeq, h'.errCmd.trans h.errCmd,
    bs ++ cs, ?_, ?_⟩
  · rw [hc1, hb1, List.append_assoc]
  · rw [hc2, hb2, List.length_append, BitVec.add_assoc, ← BitVec.ofNat_add]

theorem Encoder.PackFrame.act {e e' : Encoder} (h : Encoder.PackFrame e e') : Encoder.ActFrame e e' :=
  ⟨h.run, h.inCount, h.errSeq, h.errCmd, h.emitted⟩

theorem Encoder.matchAction_frame (e : Encoder) (L : CopyLength) (p : Nat) :
    Encoder.ActFrame e (e.matchAction L p) := by
  have h := Encoder.packCode_frame e (copyCode L (BitVec.ofNat 8 p))
  unfold Encoder.matchAction
  rw [Encoder.moveBytes_eq]
  generalize e.packCode (copyCode L (BitVec.ofNat 8 p)) = g at h
  exact ⟨h.run, h.inCount, h.errSeq, h.errCmd, h.emitted⟩

theorem Encoder.literalAction_frame (e : Encoder) : Encoder.ActFrame e e.literalAction := by
  have h := Encoder.packCode_frame { e with la := e.la.pop } (litCode e.la.front)
  unfold Encoder.literalAction
  dsimp only
  generalize Encoder.packCode { e with la := e.la.pop } (litCode e.la.front) = g at h
  exact ⟨h.run, h.inCount, h.errSeq, h.errCmd, h.emitted⟩

theorem Encoder.decision_frame (e : Encoder) : Encoder.ActFrame e e.decision := by
  rcases Encoder.decision_cases e with ⟨L, p, h, _, _⟩ | ⟨h, _⟩
  · rw [h]; exact Encoder.matchAction_frame e L p
  · rw [h]; exact Encoder.literalAction_frame e

/-- `ENC.BYTE` in state READY, whatever else the state holds (R141). -/
theorem Encoder.acceptByte_frame (e : Encoder) (d : Byte) : Encoder.ActFrame (e.push d) (e.acceptByte d) := by
  unfold Encoder.acceptByte
  dsimp only
  split
  · exact Encoder.decision_frame _
  · exact .refl _

theorem Encoder.drain_frame (k : Nat) (e : Encoder) : Encoder.ActFrame e (Encoder.drain k e) := by
  induction k generalizing e with
  | zero => exact .refl e
  | succ k ih => exact (Encoder.literalAction_frame e).trans (ih _)

/-- `ENC.END` in state READY up to the change of the run state (R151). -/
theorem Encoder.finish_frame (e : Encoder) :
    ∃ e', Encoder.ActFrame e e' ∧ e.finish = { e' with run := .done } :=
  ⟨_, (Encoder.drain_frame e.la.ls.toNat e).trans (Encoder.packFlush_frame _).act, rfl⟩

/-! ### Commands -/

theorem Encoder.push_ls (e : Encoder) (d : Byte) (h : e.la.ls.toNat < 16) :
    (e.push d).la.ls.toNat = e.la.ls.toNat + 1 := Lookahead.push_ls_toNat _ _ (by omega)

/-- Everything `ENC.BYTE` does in state READY between commands: a push, and a decision when it fills the lookahead (R141,
R142). -/
theorem Encoder.acceptByte_covers (e : Encoder) (d : Byte) (hn : e.ew.n.toNat ≤ 256) (hls : e.la.ls.toNat ≤ 15) :
    ∃ cws bytes, Encoder.Covers (e.push d) (e.acceptByte d) cws bytes ∧
      ((e.la.ls.toNat < 15 ∧ cws = [] ∧ bytes = [] ∧ e.acceptByte d = e.push d) ∨
       (e.la.ls.toNat = 15 ∧ cws.length = 1 ∧ e.acceptByte d = (e.push d).decision ∧
        (bytes.length = 1 ∨ bytes.length = 4 ∨ bytes.length = 8 ∨ bytes.length = 16))) := by
  have hp := Encoder.push_ls e d (by omega)
  by_cases h : e.la.ls.toNat = 15
  · have hd : e.acceptByte d = (e.push d).decision := by
      unfold Encoder.acceptByte
      dsimp only
      rw [if_pos (show (e.push d).la.ls.toNat = 16 by omega)]
    obtain ⟨cw, bytes, hc, hb⟩ := Encoder.decision_covers (e.push d) hn (by omega)
    rw [hd]
    exact ⟨_, _, hc, .inr ⟨h, rfl, rfl, hb⟩⟩
  · have hd : e.acceptByte d = e.push d := by
      unfold Encoder.acceptByte
      dsimp only
      rw [if_neg (show ¬(e.push d).la.ls.toNat = 16 by omega)]
    rw [hd]
    exact ⟨[], [], .refl _, .inl ⟨by omega, rfl, rfl, rfl⟩⟩

/-- `ENC.BYTE` keeps what holds of the encoder between commands (R46). -/
theorem Encoder.Inv_acceptByte {e : Encoder} (d : Byte) (h : e.Inv) (hr : e.run = .ready) : (e.acceptByte d).Inv := by
  obtain ⟨hw, hl, hk, _⟩ := h
  obtain ⟨hq, hls, hwi⟩ := hl
  obtain ⟨cws, bytes, hc, hcase⟩ := Encoder.acceptByte_covers e d hw.2.1 hls
  have hp := Encoder.push_ls e d (by omega)
  have hlink := Lookahead.push_wi_eq e.la d (by omega) hwi
  have hlen : bytes.length ≤ (e.push d).la.ls.toNat := by
    rcases hcase with ⟨_, _, hb, _⟩ | ⟨_, _, _, hb⟩
    · simp [hb]
    · omega
  refine ⟨?_, ⟨?_, ?_, ?_⟩, hc.packer hk, ?_⟩
  · rw [hc.window]; exact Window.Inv_appendAll bytes hw
  · rw [hc.lookahead]
    exact Memory.wf_write (by simpa using e.la.wi.isLt) hq
  · rw [hc.lookahead, Lookahead.popN_ls _ _ hlen]
    rcases hcase with ⟨_, _, hb, _⟩ | ⟨_, _, _, hb⟩ <;> omega
  · rw [hc.lookahead]
    exact Lookahead.popN_linked _ _ hlen hlink
  · intro hd
    rw [hc.run] at hd
    exact absurd (hd.symm.trans hr) (by decide)

/-- What `ENC.END` does in state READY (R151, R152, R183). -/
theorem Encoder.finish_eq (e : Encoder) : ∃ e', Encoder.Covers e e' (e.la.contents.map litCode) e.la.contents ∧
    e.finish = { e'.packFlush with run := .done } :=
  ⟨_, Encoder.drain_covers e.la.ls.toNat e (Nat.le_refl _), rfl⟩

/-- `ENC.END` keeps what holds of the encoder between commands, and leaves the lookahead and the packer empty (R46). -/
theorem Encoder.Inv_finish {e : Encoder} (h : e.Inv) : e.finish.Inv := by
  obtain ⟨hw, ⟨hq, hls, hwi⟩, hk, _⟩ := h
  obtain ⟨e', hc, he⟩ := Encoder.finish_eq e
  have hf := Encoder.packFlush_frame e'
  have hla : e.finish.la = e.la.popN e.la.ls.toNat := by
    rw [he]; dsimp only; rw [hf.la, hc.lookahead, Lookahead.contents_length]
  have hls0 : e.finish.la.ls.toNat = 0 := by rw [hla, Lookahead.popN_ls _ _ (Nat.le_refl _)]; omega
  have hcnt : e.finish.pk.cnt = 0 := by rw [he]; exact Encoder.packFlush_pk e'
  have hpk : e.finish.pk.Inv := by
    rw [he]
    show e'.packFlush.pk.Inv
    unfold Encoder.packFlush
    split
    · exact Nat.zero_lt_one
    · exact hc.packer hk
  refine ⟨?_, ⟨?_, ?_, ?_⟩, hpk, ?_⟩
  · have : e.finish.ew = e.ew.appendAll e.la.contents := by rw [he]; dsimp only; rw [hf.ew, hc.window]
    rw [this]; exact Window.Inv_appendAll _ hw
  · rw [hla]; exact hq
  · omega
  · rw [hla]; exact Lookahead.popN_linked _ _ (Nat.le_refl _) hwi
  · intro _
    refine ⟨BitVec.eq_of_toNat_eq hls0, hcnt, BitVec.eq_of_toNat_eq ?_⟩
    have := hpk
    unfold Packer.Inv at this
    rw [hcnt] at this
    simpa using this

theorem Encoder.Inv_reset : Encoder.reset.Inv :=
  ⟨Window.Inv_empty, Lookahead.Inv_empty, Nat.zero_lt_one, fun h => nomatch h⟩

theorem Encoder.Inv_init (e : Encoder) : e.init.Inv :=
  ⟨Window.Inv_empty, Lookahead.Inv_empty, Nat.zero_lt_one, fun h => nomatch h⟩

end Sys2Proof.Machine
end

