-- ==== Sys2Proof/Laws/PerInstr.lean ====
section
/-! SUPPORT. One lemma for each instruction: its encoding is the opcode table's row of its mnemonic, with the operand in the
low byte (R100 to R103, R110 to R112). -/

namespace Sys2Proof.Laws

/-- The mask and the match value of an instruction's row of opcode_table.json. -/
def tableRow : Instr → Nat × Nat
  | .lit _ => (0x300, 0x000)
  | .copy4 _ => (0x300, 0x100)
  | .copy8 _ => (0x300, 0x200)
  | .copy16 _ => (0x300, 0x300)
  | .encInit _ => (0xFFFFFF00, 0x00000100)
  | .encByte _ => (0xFFFFFF00, 0x00000200)
  | .encEnd _ => (0xFFFFFF00, 0x00000300)
  | .decInit _ => (0xFFFFFF00, 0x00000900)
  | .decByte _ => (0xFFFFFF00, 0x00000A00)
  | .decEnd _ => (0xFFFFFF00, 0x00000B00)

/-- The operand byte of an instruction. -/
def operand : Instr → Byte
  | .lit v => v
  | .copy4 p => p
  | .copy8 p => p
  | .copy16 p => p
  | .encInit d => d
  | .encByte d => d
  | .encEnd d => d
  | .decInit d => d
  | .decByte d => d
  | .decEnd d => d

/-- The instruction is well-formed, its word matches its row of the opcode table and fits the format, and its low byte is
the operand. -/
def TableEncoding.Statement (i : Instr) : Prop :=
  i.wf = true ∧ encode i &&& (tableRow i).1 = (tableRow i).2 ∧ encode i % 2 ^ 8 = (operand i).toNat ∧
    encode i < match i.format with | .cw10 => 2 ^ 10 | .cmd32 => 2 ^ 32

/-- A byte below a fixed upper part. -/
theorem append_byte (a m : Nat) (b : Byte) (h : a % 2 ^ 8 = 0) (hm : m % 2 ^ 8 = 0) (ham : a &&& m = a) :
    (a + b.toNat) &&& m = a ∧ (a + b.toNat) % 2 ^ 8 = b.toNat := by
  have hb := b.isLt
  refine ⟨?_, by omega⟩
  have hor : a + b.toNat = a ||| b.toNat := by
    have ha : (a / 2 ^ 8) <<< 8 = a := by rw [Nat.shiftLeft_eq]; omega
    conv => lhs; rw [← ha]
    rw [Nat.shiftLeft_add_eq_or_of_lt hb, ha]
  have hz : b.toNat &&& m = 0 := by
    apply Nat.eq_of_testBit_eq
    intro i
    rw [Nat.testBit_and, Nat.zero_testBit]
    by_cases hi : i < 8
    · have : m.testBit i = false := by
        have h1 := Nat.testBit_mod_two_pow m 8 i
        rw [hm, Nat.zero_testBit] at h1
        simpa [hi] using h1.symm
      rw [this, Bool.and_false]
    · rw [Nat.testBit_lt_two_pow (Nat.lt_of_lt_of_le hb (Nat.pow_le_pow_right (by decide) (by omega))), Bool.false_and]
  rw [hor, Nat.and_or_distrib_right, ham, hz, Nat.or_zero]

theorem encode_code (t : BitVec 2) (b : Byte) : (⟨t, b⟩ : CodeFields).word.toNat = t.toNat * 2 ^ 8 + b.toNat := by
  show (t ++ b).toNat = _
  rw [BitVec.toNat_append, ← Nat.shiftLeft_add_eq_or_of_lt b.isLt, Nat.shiftLeft_eq]

theorem encode_command (e : Engine) (o : BitVec 3) (b : Byte) :
    (⟨0#20, e, o, b⟩ : CommandFields).word.toNat = (0#20 ++ e.bit ++ o).toNat * 2 ^ 8 + b.toNat := by
  show ((0#20 ++ e.bit ++ o) ++ b).toNat = _
  rw [BitVec.toNat_append, ← Nat.shiftLeft_add_eq_or_of_lt b.isLt, Nat.shiftLeft_eq]

theorem TableEncoding.lit (v : Byte) : TableEncoding.Statement (.lit v) := by
  have h : encode (.lit v) = 0x000 + v.toNat := encode_code 0b00#2 v
  obtain ⟨h1, h2⟩ := append_byte 0x000 0x300 v rfl rfl rfl
  have := v.isLt
  exact ⟨rfl, h ▸ h1, h ▸ h2, by rw [h]; show _ < 2 ^ 10; omega⟩

theorem TableEncoding.copy4 (p : Byte) : TableEncoding.Statement (.copy4 p) := by
  have h : encode (.copy4 p) = 0x100 + p.toNat := encode_code 0b01#2 p
  obtain ⟨h1, h2⟩ := append_byte 0x100 0x300 p rfl rfl rfl
  have := p.isLt
  exact ⟨rfl, h ▸ h1, h ▸ h2, by rw [h]; show _ < 2 ^ 10; omega⟩

theorem TableEncoding.copy8 (p : Byte) : TableEncoding.Statement (.copy8 p) := by
  have h : encode (.copy8 p) = 0x200 + p.toNat := encode_code 0b10#2 p
  obtain ⟨h1, h2⟩ := append_byte 0x200 0x300 p rfl rfl rfl
  have := p.isLt
  exact ⟨rfl, h ▸ h1, h ▸ h2, by rw [h]; show _ < 2 ^ 10; omega⟩

theorem TableEncoding.copy16 (p : Byte) : TableEncoding.Statement (.copy16 p) := by
  have h : encode (.copy16 p) = 0x300 + p.toNat := encode_code 0b11#2 p
  obtain ⟨h1, h2⟩ := append_byte 0x300 0x300 p rfl rfl rfl
  have := p.isLt
  exact ⟨rfl, h ▸ h1, h ▸ h2, by rw [h]; show _ < 2 ^ 10; omega⟩

theorem TableEncoding.encInit (d : Byte) : TableEncoding.Statement (.encInit d) := by
  have h : encode (.encInit d) = 0x00000100 + d.toNat := encode_command .enc 0b001#3 d
  obtain ⟨h1, h2⟩ := append_byte 0x00000100 0xFFFFFF00 d rfl rfl rfl
  have := d.isLt
  exact ⟨rfl, h ▸ h1, h ▸ h2, by rw [h]; show _ < 2 ^ 32; omega⟩

theorem TableEncoding.encByte (d : Byte) : TableEncoding.Statement (.encByte d) := by
  have h : encode (.encByte d) = 0x00000200 + d.toNat := encode_command .enc 0b010#3 d
  obtain ⟨h1, h2⟩ := append_byte 0x00000200 0xFFFFFF00 d rfl rfl rfl
  have := d.isLt
  exact ⟨rfl, h ▸ h1, h ▸ h2, by rw [h]; show _ < 2 ^ 32; omega⟩

theorem TableEncoding.encEnd (d : Byte) : TableEncoding.Statement (.encEnd d) := by
  have h : encode (.encEnd d) = 0x00000300 + d.toNat := encode_command .enc 0b011#3 d
  obtain ⟨h1, h2⟩ := append_byte 0x00000300 0xFFFFFF00 d rfl rfl rfl
  have := d.isLt
  exact ⟨rfl, h ▸ h1, h ▸ h2, by rw [h]; show _ < 2 ^ 32; omega⟩

theorem TableEncoding.decInit (d : Byte) : TableEncoding.Statement (.decInit d) := by
  have h : encode (.decInit d) = 0x00000900 + d.toNat := encode_command .dec 0b001#3 d
  obtain ⟨h1, h2⟩ := append_byte 0x00000900 0xFFFFFF00 d rfl rfl rfl
  have := d.isLt
  exact ⟨rfl, h ▸ h1, h ▸ h2, by rw [h]; show _ < 2 ^ 32; omega⟩

theorem TableEncoding.decByte (d : Byte) : TableEncoding.Statement (.decByte d) := by
  have h : encode (.decByte d) = 0x00000A00 + d.toNat := encode_command .dec 0b010#3 d
  obtain ⟨h1, h2⟩ := append_byte 0x00000A00 0xFFFFFF00 d rfl rfl rfl
  have := d.isLt
  exact ⟨rfl, h ▸ h1, h ▸ h2, by rw [h]; show _ < 2 ^ 32; omega⟩

theorem TableEncoding.decEnd (d : Byte) : TableEncoding.Statement (.decEnd d) := by
  have h : encode (.decEnd d) = 0x00000B00 + d.toNat := encode_command .dec 0b011#3 d
  obtain ⟨h1, h2⟩ := append_byte 0x00000B00 0xFFFFFF00 d rfl rfl rfl
  have := d.isLt
  exact ⟨rfl, h ▸ h1, h ▸ h2, by rw [h]; show _ < 2 ^ 32; omega⟩

end Sys2Proof.Laws
end

