-- ==== Sys2Proof/Laws/Step.lean ====
section
/-! SUPPORT. What `exec` does, one equation for each instruction and run state, and everything a step can do (R253, R280,
R284, R286). -/

namespace Sys2Proof.Machine

/-! ### exec -/

@[simp] theorem exec_lit (v : Byte) (s : State) : exec (.lit v) s = .next { s with dec := s.dec.lit v } := rfl
@[simp] theorem exec_copy4 (p : Byte) (s : State) : exec (.copy4 p) s = .next { s with dec := s.dec.copy .four p } := rfl
@[simp] theorem exec_copy8 (p : Byte) (s : State) : exec (.copy8 p) s = .next { s with dec := s.dec.copy .eight p } := rfl
@[simp] theorem exec_copy16 (p : Byte) (s : State) :
    exec (.copy16 p) s = .next { s with dec := s.dec.copy .sixteen p } := rfl
@[simp] theorem exec_encInit (d : Byte) (s : State) : exec (.encInit d) s = .next { s with enc := s.enc.init } := rfl
@[simp] theorem exec_decInit (d : Byte) (s : State) : exec (.decInit d) s = .next { s with dec := s.dec.init } := rfl

theorem exec_encByte_ready {s : State} (d : Byte) (h : s.enc.run = .ready) :
    exec (.encByte d) s = .next { s with enc := s.enc.acceptByte d } := by simp [exec, execEncByte, h]
theorem exec_encByte_done {s : State} (d : Byte) (h : s.enc.run = .done) :
    exec (.encByte d) s = .next (s.setFlag .encErrSeq) := by simp [exec, execEncByte, h]
theorem exec_encEnd_ready {s : State} (d : Byte) (h : s.enc.run = .ready) :
    exec (.encEnd d) s = .next { s with enc := s.enc.finish } := by simp [exec, execEncEnd, h]
theorem exec_encEnd_done {s : State} (d : Byte) (h : s.enc.run = .done) :
    exec (.encEnd d) s = .next (s.setFlag .encErrSeq) := by simp [exec, execEncEnd, h]
theorem exec_decByte_ready {s : State} (b : Byte) (h : s.dec.run = .ready) :
    exec (.decByte b) s = .next { s with dec := s.dec.acceptByte b } := by simp [exec, execDecByte, execDecByteUnder, h]
theorem exec_decByte_done {s : State} (b : Byte) (h : s.dec.run = .done) :
    exec (.decByte b) s = .next (s.setFlag .decErrSeq) := by simp [exec, execDecByte, execDecByteUnder, h]
theorem exec_decEnd_ready {s : State} (d : Byte) (h : s.dec.run = .ready) :
    exec (.decEnd d) s = .next { s with dec := s.dec.finish } := by simp [exec, execDecEnd, h]
theorem exec_decEnd_done {s : State} (d : Byte) (h : s.dec.run = .done) :
    exec (.decEnd d) s = .next (s.setFlag .decErrSeq) := by simp [exec, execDecEnd, h]

/-- A code word's meaning is the dispatch of it (R213). -/
theorem exec_decodeCode (cw : CodeWord) (s : State) :
    exec (decodeCode cw) s = .next { s with dec := s.dec.dispatch cw } := by
  unfold decodeCode Decoder.dispatch
  split
  · rfl
  · split
    · rfl
    · split <;> rfl

/-- Every instruction answers a next state that differs in its own engine only: the new engine, case by case (R20, R250). -/
theorem exec_cases (i : Instr) (s : State) :
    (engineOf i = .enc ∧ ∃ e, exec i s = .next { s with enc := e } ∧
      (e = s.enc.init ∨ e = { s.enc with errSeq := true } ∨
        s.enc.run = .ready ∧ ((∃ d, i = .encByte d ∧ e = s.enc.acceptByte d) ∨ (∃ d, i = .encEnd d ∧ e = s.enc.finish)))) ∨
    (engineOf i = .dec ∧ ∃ d, exec i s = .next { s with dec := d } ∧
      (d = s.dec.init ∨ d = { s.dec with errSeq := true } ∨ (∃ cw, d = s.dec.dispatch cw) ∨
        s.dec.run = .ready ∧ ((∃ b, i = .decByte b ∧ d = s.dec.acceptByte b) ∨ (∃ x, i = .decEnd x ∧ d = s.dec.finish)))) := by
  have hcopy : ∀ L p, ∃ cw, s.dec.copy L p = s.dec.dispatch cw := fun L p => ⟨copyCode L p, by simp⟩
  cases i with
  | lit v => exact .inr ⟨rfl, _, rfl, .inr (.inr (.inl ⟨litCode v, by simp [Decoder.dispatch_litCode]⟩))⟩
  | copy4 p => exact .inr ⟨rfl, _, rfl, .inr (.inr (.inl (hcopy .four p)))⟩
  | copy8 p => exact .inr ⟨rfl, _, rfl, .inr (.inr (.inl (hcopy .eight p)))⟩
  | copy16 p => exact .inr ⟨rfl, _, rfl, .inr (.inr (.inl (hcopy .sixteen p)))⟩
  | encInit d => exact .inl ⟨rfl, _, rfl, .inl rfl⟩
  | decInit d => exact .inr ⟨rfl, _, rfl, .inl rfl⟩
  | encByte d =>
    cases h : s.enc.run with
    | ready => exact .inl ⟨rfl, _, exec_encByte_ready d h, .inr (.inr ⟨rfl, .inl ⟨d, rfl, rfl⟩⟩)⟩
    | done => exact .inl ⟨rfl, _, exec_encByte_done d h, .inr (.inl (by cases s; rfl))⟩
  | encEnd d =>
    cases h : s.enc.run with
    | ready => exact .inl ⟨rfl, _, exec_encEnd_ready d h, .inr (.inr ⟨rfl, .inr ⟨d, rfl, rfl⟩⟩)⟩
    | done => exact .inl ⟨rfl, _, exec_encEnd_done d h, .inr (.inl (by cases s; rfl))⟩
  | decByte d =>
    cases h : s.dec.run with
    | ready => exact .inr ⟨rfl, _, exec_decByte_ready d h, .inr (.inr (.inr ⟨rfl, .inl ⟨d, rfl, rfl⟩⟩))⟩
    | done => exact .inr ⟨rfl, _, exec_decByte_done d h, .inr (.inl (by cases s; rfl))⟩
  | decEnd d =>
    cases h : s.dec.run with
    | ready => exact .inr ⟨rfl, _, exec_decEnd_ready d h, .inr (.inr (.inr ⟨rfl, .inr ⟨d, rfl, rfl⟩⟩))⟩
    | done => exact .inr ⟨rfl, _, exec_decEnd_done d h, .inr (.inl (by cases s; rfl))⟩

/-! ### exec as a function of each engine -/

/-- What an instruction makes of the encoder (R140, R141, R151, R153). -/
def Encoder.perform : Instr → Encoder → Encoder
  | .encInit _, e => e.init
  | .encByte d, e => match e.run with | .ready => e.acceptByte d | .done => { e with errSeq := true }
  | .encEnd _, e => match e.run with | .ready => e.finish | .done => { e with errSeq := true }
  | .decInit _, e => e
  | .decByte _, e => e
  | .decEnd _, e => e
  | .lit _, e => e
  | .copy4 _, e => e
  | .copy8 _, e => e
  | .copy16 _, e => e

/-- What an instruction makes of the decoder (R210 to R218, R226). -/
def Decoder.perform : Instr → Decoder → Decoder
  | .encInit _, d => d
  | .encByte _, d => d
  | .encEnd _, d => d
  | .decInit _, d => d.init
  | .decByte b, d => match d.run with | .ready => d.acceptByte b | .done => { d with errSeq := true }
  | .decEnd _, d => match d.run with | .ready => d.finish | .done => { d with errSeq := true }
  | .lit v, d => d.lit v
  | .copy4 p, d => d.copy .four p
  | .copy8 p, d => d.copy .eight p
  | .copy16 p, d => d.copy .sixteen p

/-- Every instruction is a function of each engine, and leaves the port alone (R5, R20, R250). -/
theorem exec_eq (i : Instr) (s : State) :
    exec i s = .next { s with enc := s.enc.perform i, dec := s.dec.perform i } := by
  cases i with
  | encByte d =>
    cases hr : s.enc.run with
    | ready => rw [exec_encByte_ready d hr]; simp only [Encoder.perform, Decoder.perform, hr]
    | done => rw [exec_encByte_done d hr]; simp only [Encoder.perform, Decoder.perform, hr, State.setFlag]
  | encEnd d =>
    cases hr : s.enc.run with
    | ready => rw [exec_encEnd_ready d hr]; simp only [Encoder.perform, Decoder.perform, hr]
    | done => rw [exec_encEnd_done d hr]; simp only [Encoder.perform, Decoder.perform, hr, State.setFlag]
  | decByte d =>
    cases hr : s.dec.run with
    | ready => rw [exec_decByte_ready d hr]; simp only [Encoder.perform, Decoder.perform, hr]
    | done => rw [exec_decByte_done d hr]; simp only [Encoder.perform, Decoder.perform, hr, State.setFlag]
  | decEnd d =>
    cases hr : s.dec.run with
    | ready => rw [exec_decEnd_ready d hr]; simp only [Encoder.perform, Decoder.perform, hr]
    | done => rw [exec_decEnd_done d hr]; simp only [Encoder.perform, Decoder.perform, hr, State.setFlag]
  | lit v => rfl
  | copy4 p => rfl
  | copy8 p => rfl
  | copy16 p => rfl
  | encInit d => rfl
  | decInit d => rfl

theorem Encoder.perform_dec {i : Instr} (h : engineOf i = .dec) (e : Encoder) : e.perform i = e := by
  cases i <;> first | (cases h; done) | rfl

theorem Decoder.perform_enc {i : Instr} (h : engineOf i = .enc) (d : Decoder) : d.perform i = d := by
  cases i <;> first | (cases h; done) | rfl

theorem Encoder.perform_encByte {e : Encoder} (d : Byte) (h : e.run = .ready) :
    e.perform (.encByte d) = e.acceptByte d := by simp only [Encoder.perform, h]
theorem Encoder.perform_encByte_done {e : Encoder} (d : Byte) (h : e.run = .done) :
    e.perform (.encByte d) = { e with errSeq := true } := by simp only [Encoder.perform, h]
theorem Encoder.perform_encEnd {e : Encoder} (d : Byte) (h : e.run = .ready) :
    e.perform (.encEnd d) = e.finish := by simp only [Encoder.perform, h]
theorem Encoder.perform_encEnd_done {e : Encoder} (d : Byte) (h : e.run = .done) :
    e.perform (.encEnd d) = { e with errSeq := true } := by simp only [Encoder.perform, h]
theorem Decoder.perform_decByte {d : Decoder} (b : Byte) (h : d.run = .ready) :
    d.perform (.decByte b) = d.acceptByte b := by simp only [Decoder.perform, h]
theorem Decoder.perform_decByte_done {d : Decoder} (b : Byte) (h : d.run = .done) :
    d.perform (.decByte b) = { d with errSeq := true } := by simp only [Decoder.perform, h]
theorem Decoder.perform_decEnd {d : Decoder} (x : Byte) (h : d.run = .ready) :
    d.perform (.decEnd x) = d.finish := by simp only [Decoder.perform, h]
theorem Decoder.perform_decEnd_done {d : Decoder} (x : Byte) (h : d.run = .done) :
    d.perform (.decEnd x) = { d with errSeq := true } := by simp only [Decoder.perform, h]

/-- A dispatched code word is its instruction (R213). -/
theorem Decoder.perform_decodeCode (cw : CodeWord) (d : Decoder) : d.perform (decodeCode cw) = d.dispatch cw := by
  unfold decodeCode Decoder.dispatch
  split
  · rfl
  · split
    · rfl
    · split <;> rfl

/-- Instructions performed one after the other are a function of each engine (R79, R288). -/
theorem execAll_eq (is : List Instr) (s : State) : execAll is s = .next { s with
    enc := is.foldl (fun e i => Encoder.perform i e) s.enc
    dec := is.foldl (fun d i => Decoder.perform i d) s.dec } := by
  induction is generalizing s with
  | nil => rfl
  | cons i is ih => simp only [execAll, exec_eq]; rw [ih]; rfl

/-! ### The invariants of a state with a new engine (cited instead of unfolding an engine's operation) -/

theorem State.Inv_setEnc (s : State) (e : Encoder) : State.Inv { s with enc := e } ↔ e.Inv ∧ s.dec.Inv := Iff.rfl
theorem State.Inv_setDec (s : State) (d : Decoder) : State.Inv { s with dec := d } ↔ s.enc.Inv ∧ d.Inv := Iff.rfl
theorem State.Inv_port (s : State) (l : List Access) (r : List Word) (b : Bool) :
    State.Inv { s with pending := l, reads := r, rst := b } ↔ s.Inv := Iff.rfl

/-! ### step -/

/-- Everything a step can do, one case for each thing the port can hold (R31, R43, R44, R76, R113, R261, R280, R286). -/
inductive StepCase (s : State) : Host.Outcome State Fault Refusal → Prop where
  | reset (h : s.rst = true) : StepCase s (.next s.hardReset)
  | codeWord (h : s.rst = false) (hp : s.dec.phase = .dispatch) :
      StepCase s (.next { s with dec := (s.dec.dispatch s.dec.ca.dacc).endDispatch })
  | idle (h : s.rst = false) (hp : s.dec.phase = .accumulating) (hq : s.pending = []) : StepCase s (.next s)
  | outside (h : s.rst = false) (hp : s.dec.phase = .accumulating) (a : Access) (rest : List Access)
      (hq : s.pending = a :: rest) (ha : a.inInterface = false) : StepCase s (.refused (.outsideInterface a))
  | read (h : s.rst = false) (hp : s.dec.phase = .accumulating) (a : Access) (rest : List Access)
      (hq : s.pending = a :: rest) (ha : a.inInterface = true) (hk : a.kind = .read) :
      StepCase s (.next { s with pending := rest, reads := s.reads ++ [s.readRegister a.offset] })
  | ignored (h : s.rst = false) (hp : s.dec.phase = .accumulating) (a : Access) (rest : List Access) (w : Word)
      (hq : s.pending = a :: rest) (ha : a.inInterface = true) (hk : a.kind = .write w) (ho : a.offset ≠ 0) :
      StepCase s (.next { s with pending := rest })
  | reserved (h : s.rst = false) (hp : s.dec.phase = .accumulating) (a : Access) (rest : List Access) (w : Word)
      (e : DecodeError) (hq : s.pending = a :: rest) (ha : a.inInterface = true) (hk : a.kind = .write w)
      (ho : a.offset = 0) (hd : decodeCommand w = .error e) :
      StepCase s (.next (State.setFlag { s with pending := rest } (errCmdOf (commandEngine w))))
  | command (h : s.rst = false) (hp : s.dec.phase = .accumulating) (a : Access) (rest : List Access) (w : Word)
      (i : Instr) (hq : s.pending = a :: rest) (ha : a.inInterface = true) (hk : a.kind = .write w)
      (ho : a.offset = 0) (hd : decodeCommand w = .ok i) : StepCase s (exec i { s with pending := rest })

theorem State.readRegister_pending (s : State) (l : List Access) (o : Nat) :
    State.readRegister { s with pending := l } o = s.readRegister o := rfl

/-- Everything a step can do. -/
theorem step_cases (s : State) : StepCase s (step s) := by
  unfold step fetch
  cases hr : s.rst with
  | true => exact .reset hr
  | false =>
    simp only [Bool.false_eq_true, if_false]
    cases hp : s.dec.phase with
    | dispatch =>
      simp only [exec_decodeCode, completeDispatch]
      exact .codeWord hr hp
    | accumulating =>
      cases hq : s.pending with
      | nil => exact .idle hr hp hq
      | cons a rest =>
        have hpop : s.popAccess = { s with pending := rest } := by simp [State.popAccess, hq]
        simp only [hpop, performAccess]
        cases ha : a.inInterface with
        | false => exact .outside hr hp a rest hq ha
        | true =>
          simp only [if_true]
          cases hk : a.kind with
          | read => exact .read hr hp a rest hq ha hk
          | write w =>
            dsimp only
            by_cases ho : a.offset = 0
            · rw [if_pos ho]
              unfold writeCommand
              cases hd : decodeCommand w with
              | ok i => exact .command hr hp a rest w i hq ha hk ho hd
              | error e => exact .reserved hr hp a rest w e hq ha hk ho hd
            · rw [if_neg ho]
              exact .ignored hr hp a rest w hq ha hk ho

end Sys2Proof.Machine
end

