-- ==== Sys2Proof/Laws/Session.lean ====
section
/-! SUPPORT. What a session does as a whole: many ENC.BYTE commands cover the fed bytes by code words, many DEC.BYTE commands
dispatch the code words among the fed bits, and what the encoder emits does not depend on what it emitted before (R47, R107,
R156, R223). -/

namespace Sys2Proof.Machine

/-! ### Feeding the encoder -/

/-- Original bytes fed one after the other (R141). -/
def Encoder.feed (e : Encoder) (input : List Byte) : Encoder := input.foldl Encoder.acceptByte e

/-- Feeding `input` takes the encoder from `e` to `e'`: code words `cws` are packed, and they cover the `bytes` that leave
the lookahead for the window (R47, R143 to R152, R221). -/
structure Encoder.Fed (e e' : Encoder) (input : List Byte) (cws : List CodeWord) (bytes : List Byte) : Prop where
  inv : e'.Inv
  run : e'.run = .ready
  stream : e'.stream = e.stream ++ cws.flatMap codeBits
  window : e'.ew = e.ew.appendAll bytes
  queue : e.la.contents ++ input = bytes ++ e'.la.contents
  agrees : ∀ d : Decoder, d.dw = e.ew → d.dispatchAll cws = d.outputAll bytes
  fewer : cws.length ≤ bytes.length
  short : e.la.ls.toNat + input.length ≤ 15 → cws = [] ∧ bytes = []
  inCount : e'.inCount = e.inCount + BitVec.ofNat 32 input.length
  errSeq : e'.errSeq = e.errSeq
  errCmd : e'.errCmd = e.errCmd
  emitted : ∃ packed, e'.out = e.out ++ packed ∧ e'.outCount = e.outCount + BitVec.ofNat 32 packed.length

theorem Encoder.fed_nil {e : Encoder} (h : e.Inv) (hr : e.run = .ready) : Encoder.Fed e e [] [] [] :=
  ⟨h, hr, by simp, rfl, by simp, fun _ _ => rfl, Nat.le_refl _, fun _ => ⟨rfl, rfl⟩, by simp, rfl, rfl, [], by simp, by simp⟩

theorem Encoder.acceptByte_fed {e : Encoder} (d : Byte) (h : e.Inv) (hr : e.run = .ready) :
    ∃ cws bytes, Encoder.Fed e (e.acceptByte d) [d] cws bytes := by
  obtain ⟨cws, bytes, hc, hcase⟩ := Encoder.acceptByte_covers e d h.1.2.1 h.2.1.2.1
  have hls := h.2.1.2.1
  refine ⟨cws, bytes, Encoder.Inv_acceptByte d h hr, hc.run.trans hr, hc.stream, hc.window, ?_, hc.agrees, ?_, ?_,
    hc.inCount, hc.errSeq, hc.errCmd, hc.emitted⟩
  · rw [← hc.queue]
    exact (Lookahead.contents_push e.la d (by omega) h.2.1.2.2).symm
  · rcases hcase with ⟨_, h1, h2, _⟩ | ⟨_, h1, _, h2⟩
    · rw [h1, h2]; exact Nat.le_refl _
    · omega
  · intro hle
    rw [List.length_singleton] at hle
    rcases hcase with ⟨_, h1, h2, _⟩ | ⟨h1, _⟩
    · exact ⟨h1, h2⟩
    · omega

theorem Encoder.Fed.trans {e e' e'' : Encoder} {input input' : List Byte} {cws cws' : List CodeWord}
    {bytes bytes' : List Byte} (h : Encoder.Fed e e' input cws bytes) (h' : Encoder.Fed e' e'' input' cws' bytes') :
    Encoder.Fed e e'' (input ++ input') (cws ++ cws') (bytes ++ bytes') := by
  obtain ⟨bs, hb1, hb2⟩ := h.emitted
  obtain ⟨cs, hc1, hc2⟩ := h'.emitted
  have hq := h.queue
  have hq' := h'.queue
  refine ⟨h'.inv, h'.run, ?_, ?_, ?_, ?_, ?_, ?_, ?_, h'.errSeq.trans h.errSeq, h'.errCmd.trans h.errCmd, bs ++ cs, ?_, ?_⟩
  · rw [h'.stream, h.stream, List.flatMap_append, List.append_assoc]
  · rw [h'.window, h.window, Window.appendAll_append]
  · rw [← List.append_assoc, hq, List.append_assoc, hq', List.append_assoc]
  · intro d hd
    unfold Decoder.dispatchAll
    rw [List.foldl_append]
    change (d.dispatchAll cws).dispatchAll cws' = _
    rw [h.agrees d hd, h'.agrees, Decoder.outputAll_append]
    rw [Decoder.outputAll_eq, h.window, hd]
  · have := h.fewer; have := h'.fewer; simp; omega
  · intro hle
    rw [List.length_append] at hle
    obtain ⟨h1, h2⟩ := h.short (by omega)
    have hl := congrArg List.length hq
    rw [h2, List.length_append, Lookahead.contents_length, List.nil_append, Lookahead.contents_length] at hl
    obtain ⟨h3, h4⟩ := h'.short (by omega)
    rw [h1, h2, h3, h4]
    exact ⟨rfl, rfl⟩
  · rw [h'.inCount, h.inCount, List.length_append, BitVec.ofNat_add, BitVec.add_assoc]
  · rw [hc1, hb1, List.append_assoc]
  · rw [hc2, hb2, List.length_append, BitVec.add_assoc, ← BitVec.ofNat_add]

/-- Everything feeding bytes does to an encoder between commands. -/
theorem Encoder.feed_fed (input : List Byte) {e : Encoder} (h : e.Inv) (hr : e.run = .ready) :
    ∃ cws bytes, Encoder.Fed e (e.feed input) input cws bytes := by
  induction input generalizing e with
  | nil => exact ⟨[], [], Encoder.fed_nil h hr⟩
  | cons d input ih =>
    obtain ⟨cws, bytes, h1⟩ := Encoder.acceptByte_fed d h hr
    obtain ⟨cws', bytes', h2⟩ := ih h1.inv h1.run
    exact ⟨_, _, h1.trans h2⟩

/-- The commands `ENC.BYTE b0, …` feed the bytes: the engine stays READY (R141). -/
theorem Encoder.perform_encBytes (input : List Byte) {e : Encoder} (h : e.Inv) (hr : e.run = .ready) :
    (input.map Instr.encByte).foldl (fun e i => Encoder.perform i e) e = e.feed input := by
  induction input generalizing e with
  | nil => rfl
  | cons d input ih =>
    obtain ⟨_, _, h1⟩ := Encoder.acceptByte_fed d h hr
    simp only [List.map_cons, List.foldl_cons, Encoder.feed]
    rw [Encoder.perform_encByte d hr]
    exact ih h1.inv h1.run

/-! ### What was emitted before plays no part (R156) -/

/-- The encoder with other bytes emitted earlier. -/
def Encoder.prependOut (o : List Byte) (e : Encoder) : Encoder := { e with out := o ++ e.out }

theorem Encoder.packBit_prependOut (o : List Byte) (e : Encoder) (x : Bool) :
    (e.prependOut o).packBit x = (e.packBit x).prependOut o := by
  unfold Encoder.packBit Encoder.prependOut
  dsimp only
  split <;> simp [Encoder.emit]

theorem Encoder.packCode_prependOut (o : List Byte) (e : Encoder) (cw : CodeWord) :
    (e.prependOut o).packCode cw = (e.packCode cw).prependOut o := by
  unfold Encoder.packCode
  generalize codeBits cw = bits
  induction bits generalizing e with
  | nil => rfl
  | cons x bits ih => rw [List.foldl_cons, Encoder.packBit_prependOut, ih, List.foldl_cons]

theorem Encoder.literalAction_prependOut (o : List Byte) (e : Encoder) :
    (e.prependOut o).literalAction = e.literalAction.prependOut o := by
  have h := Encoder.packCode_prependOut o { e with la := e.la.pop } (litCode e.la.front)
  unfold Encoder.literalAction
  dsimp only
  have h1 : ({ e.prependOut o with la := (e.prependOut o).la.pop } : Encoder)
      = Encoder.prependOut o { e with la := e.la.pop } := rfl
  rw [h1, show (e.prependOut o).la.front = e.la.front from rfl, h]
  generalize Encoder.packCode { e with la := e.la.pop } (litCode e.la.front) = g
  rfl

theorem Encoder.matchAction_prependOut (o : List Byte) (e : Encoder) (L : CopyLength) (p : Nat) :
    (e.prependOut o).matchAction L p = (e.matchAction L p).prependOut o := by
  unfold Encoder.matchAction
  rw [Encoder.packCode_prependOut, Encoder.moveBytes_eq, Encoder.moveBytes_eq]
  generalize e.packCode (copyCode L (BitVec.ofNat 8 p)) = g
  rfl

theorem Encoder.search_prependOut (o : List Byte) (e : Encoder) (len : Nat) :
    (e.prependOut o).search len = e.search len := rfl

theorem Encoder.tryLengths_prependOut (o : List Byte) (lengths : List CopyLength) (e : Encoder) :
    Encoder.tryLengths lengths (e.prependOut o) = (Encoder.tryLengths lengths e).prependOut o := by
  induction lengths with
  | nil => exact Encoder.literalAction_prependOut o e
  | cons L lengths ih =>
    unfold Encoder.tryLengths
    rw [Encoder.search_prependOut]
    split
    · exact Encoder.matchAction_prependOut o e L _
    · exact ih

theorem Encoder.acceptByte_prependOut (o : List Byte) (e : Encoder) (d : Byte) :
    (e.prependOut o).acceptByte d = (e.acceptByte d).prependOut o := by
  have h := Encoder.tryLengths_prependOut o Config.matchLengths (e.push d)
  unfold Encoder.acceptByte Encoder.decision
  dsimp only
  rw [show (e.prependOut o).push d = (e.push d).prependOut o from rfl, h]
  rw [show ((e.push d).prependOut o).la = (e.push d).la from rfl]
  split <;> rfl

theorem Encoder.drain_prependOut (o : List Byte) (k : Nat) (e : Encoder) :
    Encoder.drain k (e.prependOut o) = (Encoder.drain k e).prependOut o := by
  induction k generalizing e with
  | zero => rfl
  | succ k ih => rw [Encoder.drain, Encoder.literalAction_prependOut, ih, Encoder.drain]

theorem Encoder.packFlush_prependOut (o : List Byte) (e : Encoder) :
    (e.prependOut o).packFlush = e.packFlush.prependOut o := by
  unfold Encoder.packFlush
  rw [show (e.prependOut o).pk = e.pk from rfl]
  split
  · simp [Encoder.prependOut, Encoder.emit]
  · rfl

theorem Encoder.finish_prependOut (o : List Byte) (e : Encoder) : (e.prependOut o).finish = e.finish.prependOut o := by
  unfold Encoder.finish
  rw [show (e.prependOut o).la.ls = e.la.ls from rfl, Encoder.drain_prependOut, Encoder.packFlush_prependOut]
  rfl

/-! ### Feeding the decoder -/

/-- The commands `DEC.BYTE b0, …` feed the bytes: the engine stays READY (R211). -/
theorem Decoder.perform_decBytes (packed : List Byte) {d : Decoder} (hr : d.run = .ready) :
    (packed.map Instr.decByte).foldl (fun d i => Decoder.perform i d) d = packed.foldl Decoder.acceptByte d := by
  induction packed generalizing d with
  | nil => rfl
  | cons b packed ih =>
    simp only [List.map_cons, List.foldl_cons]
    rw [Decoder.perform_decByte b hr]
    apply ih
    obtain ⟨_, _, _, h⟩ := Decoder.acceptByte_frame d b
    rw [h]
    exact hr

/-- Code words as instructions are their dispatches (R213). -/
theorem Decoder.perform_codeWords (cws : List CodeWord) (d : Decoder) :
    (cws.map decodeCode).foldl (fun d i => Decoder.perform i d) d = d.dispatchAll cws := by
  induction cws generalizing d with
  | nil => rfl
  | cons cw cws ih =>
    simp only [List.map_cons, List.foldl_cons]
    rw [Decoder.perform_decodeCode, ih, Decoder.dispatchAll_cons]

/-- Counting one for each element. -/
theorem foldl_count {α : Type} (l : List α) (n : BitVec 32) :
    l.foldl (fun n _ => n + 1) n = n + BitVec.ofNat 32 l.length := by
  induction l generalizing n with
  | nil => simp
  | cons a l ih =>
    rw [List.foldl_cons, ih, List.length_cons, BitVec.add_assoc, Nat.add_comm, BitVec.ofNat_add]
    rfl

/-- Bytes fed between commands, when their bits are the code words `cws` and fewer than ten bits more (R107, R188). -/
theorem Decoder.feed_eq (d : Decoder) (packed : List Byte) (cws : List CodeWord) (rest : List Bool)
    (hca : d.ca = { dacc := 0, dcnt := 0 }) (hph : d.phase = .accumulating)
    (h : packed.flatMap byteBits = cws.flatMap codeBits ++ rest) (hrest : rest.length < 10) :
    ∃ ca' : CodeAcc, ca'.Inv ∧ ca'.bits = rest ∧ packed.foldl Decoder.acceptByte d
      = { d.dispatchAll cws with ca := ca', inCount := d.inCount + BitVec.ofNat 32 packed.length } := by
  obtain ⟨ca', h1, h2, h3⟩ := Decoder.feedBits_eq (packed.flatMap byteBits) d (by rw [hca]; exact ⟨by decide, by decide⟩) hph
    cws rest hrest (by rw [hca, h]; rfl)
  refine ⟨ca', h1, h2, ?_⟩
  rw [Decoder.foldl_acceptByte, h3, foldl_count]

end Sys2Proof.Machine
end

