-- ==== Sys2Proof/Tests/Slice0.lean ====
section
/-! SUPPORT. Tests: ill-formed terms the checks refuse, words written out from the encodings, one-step examples of
95_test_vectors.md, and for every obligation with hypotheses a state and operands that meet them. -/

namespace Sys2Proof.Tests

open Sys2Proof.Machine

/-! ### Helpers -/

/-- The next state, if there is one. -/
def after (o : Host.Outcome State Fault Refusal) : Option State :=
  match o with
  | .next t => some t
  | .fault _ => none
  | .refused _ => none

/-- The reset state with another encoder. -/
def withEnc (e : Encoder) : State := { State.reset with enc := e }

/-- The reset state with another decoder. -/
def withDec (d : Decoder) : State := { State.reset with dec := d }

/-- The reset state with one access asked for. -/
def asking (a : Access) : State := { State.reset with pending := [a] }

/-- The reset state with one write of `CMD`. -/
def writing (w : Word) : State := asking ⟨.write w, 0x00, 32⟩

/-- Both engines in DONE. -/
def ended : State :=
  { State.reset with enc := { Encoder.reset with run := .done }, dec := { Decoder.reset with run := .done } }

/-- An encoder whose window holds `n` bytes 0x41 and whose lookahead holds `k`. -/
def runA (n k : Nat) : Encoder :=
  { Encoder.reset with
    ew := Window.empty.appendAll (List.replicate n 0x41#8)
    la := (List.replicate k 0x41#8).foldl Lookahead.push Lookahead.empty }

/-- A decoder whose window holds `bytes`. -/
def holding (bytes : List Byte) : Decoder := { Decoder.reset with dw := Window.empty.appendAll bytes }

/-- A decoder with accumulated bits. -/
def accumulated (dacc : BitVec 10) (dcnt : BitVec 4) : Decoder := { Decoder.reset with ca := { dacc := dacc, dcnt := dcnt } }

/-! ### Well-formedness: one ill-formed term for each check -/

theorem test_wf_refuses_rsvd : CommandFields.wf ⟨1#20, .enc, 0b010#3, 0x41⟩ = false := by decide
theorem test_wf_refuses_op_000 : CommandFields.wf ⟨0#20, .enc, 0b000#3, 0x41⟩ = false := by decide
theorem test_wf_refuses_op_100 : CommandFields.wf ⟨0#20, .dec, 0b100#3, 0x00⟩ = false := by decide
theorem test_wf_refuses_op_101 : CommandFields.wf ⟨0#20, .dec, 0b101#3, 0x00⟩ = false := by decide
theorem test_wf_refuses_op_110 : CommandFields.wf ⟨0#20, .enc, 0b110#3, 0x00⟩ = false := by decide
theorem test_wf_refuses_op_111 : CommandFields.wf ⟨0#20, .enc, 0b111#3, 0x00⟩ = false := by decide
theorem test_wf_admits_command : CommandFields.wf ⟨0#20, .dec, 0b011#3, 0xA5⟩ = true := by decide
theorem test_wf_admits_code : CodeFields.wf ⟨0b11#2, 0xFF⟩ = true ∧ (Instr.copy16 0xFF).wf = true := by decide
theorem test_wf_refuses_narrow_access : Access.inInterface ⟨.read, 0x04, 16⟩ = false := by decide
theorem test_wf_refuses_misaligned_access : Access.inInterface ⟨.read, 0x06, 32⟩ = false := by decide
theorem test_wf_refuses_offset_0x40 : Access.inInterface ⟨.read, 0x40, 32⟩ = false := by decide
theorem test_wf_admits_last_offset : Access.inInterface ⟨.read, 0x3C, 32⟩ = true := by decide

/-! ### Decoding: words written out from the encodings (30_encoding.md; 95_test_vectors.md S1 and 2.8) -/

theorem test_decode_lit : decode .cw10 0b00_0100_0001 = .ok (.lit 0x41) := rfl
theorem test_decode_copy4 : decode .cw10 0b01_1111_1100 = .ok (.copy4 0xFC) := rfl
theorem test_decode_copy8 : decode .cw10 0b10_0000_0000 = .ok (.copy8 0x00) := rfl
theorem test_decode_copy16 : decode .cw10 0b11_0001_0000 = .ok (.copy16 0x10) := rfl
theorem test_decode_encInit : decode .cmd32 0b0000_0000_0000_0000_0000_0001_1111_1111 = .ok (.encInit 0xFF) := rfl
theorem test_decode_encByte : decode .cmd32 0b0000_0000_0000_0000_0000_0010_0100_0001 = .ok (.encByte 0x41) := rfl
theorem test_decode_encEnd : decode .cmd32 0b0000_0000_0000_0000_0000_0011_1010_0101 = .ok (.encEnd 0xA5) := rfl
theorem test_decode_decInit : decode .cmd32 0b0000_0000_0000_0000_0000_1001_0000_0000 = .ok (.decInit 0x00) := rfl
theorem test_decode_decByte : decode .cmd32 0b0000_0000_0000_0000_0000_1010_0001_0000 = .ok (.decByte 0x10) := rfl
theorem test_decode_decEnd : decode .cmd32 0b0000_0000_0000_0000_0000_1011_0000_0000 = .ok (.decEnd 0x00) := rfl
theorem test_decode_refuses_op : decode .cmd32 0x00000400 = .error (.reservedOp .enc) := rfl
theorem test_decode_refuses_rsvd : decode .cmd32 0x00100200 = .error (.reservedBits .enc) := rfl
theorem test_decode_refuses_top_bit : decode .cmd32 0x80000A41 = .error (.reservedBits .dec) := rfl
theorem test_decode_refuses_wide_code : decode .cw10 0x400 = .error (.tooWide .cw10) := rfl
theorem test_decode_refuses_wide_command : decode .cmd32 (2 ^ 32) = .error (.tooWide .cmd32) := rfl
theorem test_table_word_lit : decodeTableWord 16 0x041 = some (.lit 0x41) := rfl
theorem test_table_word_decEnd : decodeTableWord 32 0x00000B00 = some (.decEnd 0x00) := rfl
theorem test_asm : asm (.encByte 0x41) = "ENC.BYTE 0x41" ∧ asm (.copy16 0xFF) = "COPY16 0xFF" := by decide

/-! ### One step of each instruction (95_test_vectors.md; the vector is named in each comment) -/

/-- 2.7 D1: `LIT 41` on an empty window. -/
theorem test_lit_emits : (after (exec (.lit 0x41) State.reset)).map (fun t => (t.dec.out, t.decStatus, t.decPtr))
    = some ([0x41], 0x00010000, 0x01) := by decide

/-- 2.7 D8: `COPY4 00` on the window `58` repeats its own output and sets REF_OOR. -/
theorem test_copy4_malformed : (after (exec (.copy4 0x00) (withDec (holding [0x58])))).map
    (fun t => (t.dec.out, t.decStatus)) = some ([0x58, 0x58, 0x58, 0x58], 0x00050008) := by decide

/-- 2.7 D10: `COPY4 01` on the window `41 42 43 44` starts at slot 1 and reads what it has itself appended. -/
theorem test_copy4_start_slot : (after (exec (.copy4 0x01) (withDec (holding [0x41, 0x42, 0x43, 0x44])))).map
    (fun t => (t.dec.out, t.decStatus)) = some ([0x42, 0x43, 0x44, 0x42], 0x00080008) := by decide

/-- R217: `COPY8 00` on eight bytes 0x41 emits eight and leaves n = 16. -/
theorem test_copy8 : (after (exec (.copy8 0x00) (withDec (holding (List.replicate 8 0x41))))).map
    (fun t => (t.dec.out, t.decStatus)) = some (List.replicate 8 0x41, 0x00100000) := by decide

/-- 2.7 D9: `COPY16 FF` on an empty window emits sixteen 0x00 and sets REF_OOR. -/
theorem test_copy16_malformed : (after (exec (.copy16 0xFF) State.reset)).map (fun t => (t.dec.out, t.decStatus, t.decPtr))
    = some (List.replicate 16 0x00, 0x00100008, 0x10) := by decide

/-- R140: `ENC.INIT` after `ENC.BYTE 41`: the status is 0 and nothing is emitted. -/
theorem test_encInit : (after (exec (.encInit 0xFF) (withEnc (runA 0 1)))).map (fun t => (t.encStatus, t.encPtr, t.enc.out))
    = some (0, 0, []) := by decide

/-- 2.6 E3: the sixteenth 0x41 makes the decision `LIT 41`. -/
theorem test_encByte_literal : (after (exec (.encByte 0x41) (withEnc (runA 0 15)))).map
    (fun t => (t.enc.out, t.encStatus, t.encAcc, t.encPtr)) = some ([0x10], 0x00014F00, 0x01, 0x00000101) := by decide

/-- 2.6 E6: on a window of sixteen 0x41 the decision is `COPY16 00`: eight bits out, two pending, the lookahead empty. -/
theorem test_encByte_copy16 : (after (exec (.encByte 0x41) (withEnc (runA 16 15)))).map
    (fun t => (t.enc.out, t.encStatus)) = some ([0xC0], 0x00204000) := by decide

/-- 2.6 E2: `ENC.END` after one 0x41 emits `10 40`. -/
theorem test_encEnd : (after (exec (.encEnd 0xA5) (withEnc (runA 0 1)))).map (fun t => (t.enc.out, t.encStatus, t.encPtr))
    = some ([0x10, 0x40], 0x00010001, 0x00001101) := by decide

/-- 2.6 E1: `ENC.END` of the empty input emits nothing. -/
theorem test_encEnd_empty : (after (exec (.encEnd 0x00) State.reset)).map (fun t => (t.enc.out, t.encStatus))
    = some ([], 0x00000001) := by decide

/-- R210: `DEC.INIT` after `DEC.BYTE 10`. -/
theorem test_decInit : (after (exec (.decInit 0x00) (withDec (accumulated 0x010 8)))).map (fun t => (t.decStatus, t.decAcc))
    = some (0, 0) := by decide

/-- 2.5: `DEC.BYTE 10` from INIT completes nothing. -/
theorem test_decByte_accumulates : (after (exec (.decByte 0x10) State.reset)).map (fun t => (t.dec.out, t.decStatus, t.decAcc))
    = some ([], 0x00000800, 0x010) := by decide

/-- 2.7 D6: then `DEC.BYTE 7F` dispatches `LIT 41` at its second bit and keeps the last six bits. -/
theorem test_decByte_dispatches : (after (exec (.decByte 0x7F) (withDec (accumulated 0x010 8)))).map
    (fun t => (t.dec.out, t.decStatus, t.decAcc)) = some ([0x41], 0x00010600, 0x03F) := by decide

/-- 2.7 D2: `DEC.END` discards the leftover bits. -/
theorem test_decEnd : (after (exec (.decEnd 0x00) (withDec (accumulated 0x010 8)))).map
    (fun t => (t.dec.out, t.decStatus, t.decAcc)) = some ([], 0x00000001, 0) := by decide

/-! ### The port (95_test_vectors.md 2.8) -/

/-- A reserved word to an engine in DONE sets ERR_CMD and not ERR_SEQ. -/
theorem test_reserved_before_done :
    (after (step { ended with pending := [commandAccess 0x00000000] })).map (fun t => (t.encStatus, t.decStatus))
      = some (0x00000005, 0x00000001) := by decide

/-- RSVD ≠ 0 with ENG = 1: DEC.ERR_CMD, and the byte is not fed. -/
theorem test_reserved_names_engine : (after (step (writing 0x80000A41))).map (fun t => (t.encStatus, t.decStatus, t.dec.inCount))
    = some (0x00000000, 0x00000004, 0) := by decide

/-- A BYTE command to an engine in DONE. -/
theorem test_done_rejects : (after (step { ended with pending := [commandAccess 0x00000242] })).map
    (fun t => (t.encStatus, t.enc.inCount)) = some (0x00000003, 0) := by decide

/-- Counter wrap: ENC_IN_COUNT goes from 0xFFFFFFFF to 0 and no flag is set. -/
theorem test_counter_wraps : (after (exec (.encByte 0x41) (withEnc { Encoder.reset with inCount := 0xFFFFFFFF }))).map
    (fun t => (t.enc.inCount, t.encStatus)) = some (0x00000000, 0x00000100) := by decide

/-- A register read returns the value and takes nothing but its own access. -/
theorem test_register_read : after (step { ended with pending := [⟨.read, 0x04, 32⟩] })
    = some { ended with reads := [0x00000001] } := by decide

/-- 2.2: a full window drops its oldest entry; the read index is logical. -/
theorem test_window_full : (Window.append { W := [], wp := 0, n := 256 } 0xAA).read 255 = 0xAA ∧
    (Window.append { W := [], wp := 0, n := 256 } 0xAA).wp = 1 ∧
    (Window.append { W := [], wp := 0, n := 256 } 0xAA).n = 256 := by decide

/-- 2.1: packed streams. -/
theorem test_packStream : packStream [0x041, 0x042] = [0x10, 0x44, 0x20] ∧ packStream [0x3FF] = [0xFF, 0xC0] ∧
    packStream [0x000] = [0x00, 0x00] ∧ packStream [] = [] := by decide

/-- The placed word runs as the first instruction after reset. -/
theorem test_withFetchWord_runs : (after (step (State.reset.withFetchWord 16 0x041))).map (fun t => t.dec.out) = some [0x41] ∧
    (after (step (State.reset.withFetchWord 32 0x00000A10))).map (fun t => t.decStatus) = some 0x00000800 := by decide

/-! ### Witnesses: for every obligation with hypotheses, a state and operands that meet them, clause by clause -/

theorem runA_inv (n k : Nat) (h : k ≤ 15) : (runA n k).Inv := by
  have hl : ∀ (j : Nat) (l : Lookahead), l.Q.wf Config.laCap = true → l.ls.toNat + j ≤ 15 →
      l.wi.toNat = (l.ri.toNat + l.ls.toNat) % 16 → ((List.replicate j 0x41#8).foldl Lookahead.push l).Inv := by
    intro j
    induction j with
    | zero => intro l h1 h2 h3; exact ⟨h1, h2, h3⟩
    | succ j ih =>
      intro l h1 h2 h3
      refine ih (l.push 0x41#8) (Lookahead.push_wf _ h1) ?_ (Lookahead.push_wi_eq l _ (by omega) h3)
      rw [Lookahead.push_ls_toNat l _ (by omega)]
      omega
  refine ⟨Window.Inv_appendAll _ Window.Inv_empty, hl k _ rfl (by rw [show BitVec.toNat Lookahead.empty.ls = 0 from rfl]; omega) rfl,
    Nat.zero_lt_one, fun h => nomatch h⟩

theorem holding_inv (bytes : List Byte) : (holding bytes).Inv :=
  ⟨Window.Inv_appendAll _ Window.Inv_empty, ⟨Nat.zero_le _, Nat.zero_lt_one⟩, rfl, fun h => nomatch h⟩

theorem reset_inv : State.reset.Inv := ⟨Encoder.Inv_reset, Decoder.Inv_init Decoder.reset⟩

theorem first_asking (a : Access) : (asking a).First a [] := ⟨rfl, rfl, rfl⟩

/-- EncodeOfDecode, at the top of each format. -/
theorem witness_EncodeOfDecode : decode .cw10 0x3FF = .ok (.copy16 0xFF) ∧ decode .cmd32 0x00000BFF = .ok (.decEnd 0xFF) :=
  ⟨rfl, rfl⟩

/-- StepRunsCommand, for each engine. -/
theorem witness_StepRunsCommand :
    ((writing 0x00000241).First ⟨.write 0x00000241, 0x00, 32⟩ [] ∧ decode .cmd32 (0x00000241 : Word).toNat = .ok (.encByte 0x41)) ∧
    ((writing 0x00000B00).First ⟨.write 0x00000B00, 0x00, 32⟩ [] ∧ decode .cmd32 (0x00000B00 : Word).toNat = .ok (.decEnd 0x00)) :=
  ⟨⟨first_asking _, rfl⟩, first_asking _, rfl⟩

/-- A state in phase DISPATCH, holding `COPY4 00`. -/
def dispatching : State := State.reset.withFetchWord 16 0x100

theorem witness_StepRunsCodeWord : dispatching.rst = false ∧ dispatching.dec.phase = .dispatch ∧
    decode .cw10 dispatching.dec.ca.dacc.toNat = .ok (.copy4 0x00) ∧ (after (exec (.copy4 0x00) dispatching)).isSome = true := by
  decide

/-- CommandCheckOrder: a reserved word of each kind and engine; for each engine INIT, and BYTE and END in READY and in DONE
(the premise on the access holds of any word: `first_asking`). -/
theorem witness_CommandCheckOrder (w : Word) : (writing w).First ⟨.write w, 0x00, 32⟩ [] ∧
    (State.First { ended with pending := [⟨.write w, 0x00, 32⟩] } ⟨.write w, 0x00, 32⟩ []) ∧
    ended.enc.run = .done ∧ ended.dec.run = .done ∧ State.reset.enc.run = .ready ∧ State.reset.dec.run = .ready :=
  ⟨first_asking _, ⟨rfl, rfl, rfl⟩, rfl, rfl, rfl, rfl⟩

theorem witness_CommandCheckOrder_words :
    Reserved 0x00001200 ∧ Reserved 0x80000A41 ∧ Reserved 0x00000000 ∧ Reserved 0x00000FFF ∧ Reserved 0x00000400 ∧
    (¬Reserved 0x00000100 ∧ ¬Reserved 0x00000200 ∧ ¬Reserved 0x00000300 ∧ (0x00000300 : Word).getLsbD 11 = false) ∧
    (¬Reserved 0x00000900 ∧ ¬Reserved 0x00000A00 ∧ ¬Reserved 0x00000B00 ∧ (0x00000900 : Word).getLsbD 11 = true) := by
  unfold Reserved
  decide

/-- NoCommandSetsTwoFlags: a command that sets ERR_CMD, and a DEC.BYTE that completes a malformed `COPY4 00`. -/
theorem witness_NoCommandSetsTwoFlags : step (writing 0x00000000) = .next (State.setFlag State.reset .encErrCmd) ∧
    State.flag (writing 0x00000000) .encErrCmd = false ∧ (State.setFlag State.reset .encErrCmd).flag .encErrCmd = true :=
  ⟨rfl, rfl, rfl⟩

theorem witness_NoCommandSetsTwoFlags_copy : (accumulated 0x040 8).Inv ∧ (accumulated 0x040 8).run = .ready ∧
    (accumulated 0x040 8).refOor = false ∧
    (after (exec (.decByte 0x00) (withDec (accumulated 0x040 8)))).map (fun t => t.dec.refOor) = some true :=
  ⟨⟨Window.Inv_empty, ⟨by decide, by decide⟩, rfl, fun h => nomatch h⟩, rfl, rfl, by decide⟩

theorem witness_IssuedCommandsRunInOrder : State.reset.Quiet ∧ ∀ i ∈ [Instr.encInit 0, .encByte 0x41, .decByte 0x10], i.format = .cmd32 :=
  ⟨⟨rfl, rfl, rfl⟩, by decide⟩

/-- RegisterReadReturnsValue, at both ends of the register space. -/
theorem witness_RegisterReadReturnsValue :
    (asking ⟨.read, 0x00, 32⟩).First ⟨.read, 0x00, 32⟩ [] ∧ (asking ⟨.read, 0x3C, 32⟩).First ⟨.read, 0x3C, 32⟩ [] ∧
    0x3C % 4 = 0 := ⟨first_asking _, first_asking _, rfl⟩

/-- RegisterMap: the invariants, and writes of the first and the last read-only register. -/
theorem witness_RegisterMap : State.reset.Inv ∧
    (asking ⟨.write 0xFFFFFFFF, 0x04, 32⟩).First ⟨.write 0xFFFFFFFF, 0x04, 32⟩ [] ∧
    (asking ⟨.write 0xFFFFFFFF, 0x28, 32⟩).First ⟨.write 0xFFFFFFFF, 0x28, 32⟩ [] :=
  ⟨reset_inv, first_asking _, first_asking _⟩

theorem witness_ReservedReadZeroWritesIgnored :
    (asking ⟨.write 0xFFFFFFFF, 0x04, 32⟩).First ⟨.write 0xFFFFFFFF, 0x04, 32⟩ [] ∧
    (asking ⟨.write 0xFFFFFFFF, 0x3C, 32⟩).First ⟨.write 0xFFFFFFFF, 0x3C, 32⟩ [] := ⟨first_asking _, first_asking _⟩

/-- OutsideAccessRefused: each disjunct, at its boundary. -/
theorem witness_OutsideAccessRefused :
    ((asking ⟨.read, 0x04, 16⟩).First ⟨.read, 0x04, 16⟩ [] ∧ 16 ≠ 32) ∧
    ((asking ⟨.read, 0x3D, 32⟩).First ⟨.read, 0x3D, 32⟩ [] ∧ 0x3D % 4 ≠ 0) ∧
    ((asking ⟨.write 0x00000100, 0x40, 32⟩).First ⟨.write 0x00000100, 0x40, 32⟩ [] ∧ 0x3C < 0x40) :=
  ⟨⟨first_asking _, by decide⟩, ⟨first_asking _, by decide⟩, first_asking _, by decide⟩

/-- BusAddressesOfTheBlock: the first and the last byte of the block. -/
theorem witness_BusAddressesOfTheBlock :
    busAccess .read Config.coreBase 32 = some ⟨.read, 0, 32⟩ ∧ busAccess .read (Config.coreBase + 63) 8 = some ⟨.read, 63, 8⟩ := by
  simp [busAccess]

/-- ResetValues and ResetInput: the reset input asserted with a command pending. -/
theorem witness_ResetInput : State.rst { writing 0x00000241 with rst := true } = true ∧
    exec (.encInit 0) State.reset = .next State.reset ∧ exec (.decInit 0) State.reset = .next State.reset := ⟨rfl, rfl, rfl⟩

theorem witness_IdleHoldsState : State.reset.Quiet := ⟨rfl, rfl, rfl⟩

/-- StepKeepsInv and PendingBitsStayEven: a state with a command pending, and its step. -/
theorem witness_StepKeepsInv : (writing 0x00000A10).Inv ∧ (writing 0x00000A10).EvenCounts ∧
    (after (step (writing 0x00000A10))).isSome = true := ⟨reset_inv, ⟨rfl, rfl⟩, by decide⟩

/-- FlagsAreSticky: INIT clears a flag. -/
theorem witness_FlagsAreSticky :
    State.flag { (State.setFlag State.reset .encErrSeq) with pending := [commandAccess 0x00000100] } .encErrSeq = true ∧
    step { (State.setFlag State.reset .encErrSeq) with pending := [commandAccess 0x00000100] } = .next State.reset ∧
    State.reset.flag .encErrSeq = false := ⟨rfl, rfl, rfl⟩

/-- FlagCauses: each flag that an instruction sets, set. -/
theorem witness_FlagCauses :
    (after (exec (.encEnd 0) ended)).map (fun t => t.enc.errSeq) = some true ∧
    (after (exec (.decByte 0) ended)).map (fun t => t.dec.errSeq) = some true ∧
    (after (exec (.copy4 0xFD) (withDec (holding [])))).map (fun t => t.dec.refOor) = some true ∧
    (after (exec (.encByte 0) (State.setFlag State.reset .encErrCmd))).map (fun t => t.enc.errCmd) = some true ∧
    (after (exec (.decByte 0) (State.setFlag State.reset .decErrCmd))).map (fun t => t.dec.errCmd) = some true := by decide

/-- FlagCauses, FaultPolicyStopsOnlyAtMalformed: a DEC.BYTE whose first two bits complete `COPY4 00` on an empty window and,
not malformed, on a window of four bytes. -/
theorem witness_CompletesMalformed : (accumulated 0x040 8).CompletesMalformed 0x00 ∧
    ¬Decoder.CompletesMalformed { holding [1, 2, 3, 4] with ca := { dacc := 0x040, dcnt := 8 } } 0x00 ∧
    (accumulated 0x040 8).run = .ready := by
  refine ⟨(Decoder.dispatchesMalformed_iff _ _).1 (by decide), ?_, rfl⟩
  rw [← Decoder.dispatchesMalformed_iff]
  decide

/-- EnginesShareNoState: two states that differ in the other engine only. -/
theorem witness_EnginesShareNoState : (after (exec (.encByte 0x41) State.reset)).isSome = true ∧
    (after (exec (.encByte 0x41) (withDec (holding [0x58])))).isSome = true ∧
    State.reset.enc = (withDec (holding [0x58])).enc ∧ engineOf (.encByte 0x41) = .enc ∧ engineOf (.lit 0x41) = .dec := by decide

/-- CountersCountBytes: instructions that are INIT of an engine and that are not, in READY and in DONE. -/
theorem witness_CountersCountBytes : (after (exec (.encByte 0x41) State.reset)).isSome = true ∧
    isInitOf (.encByte 0x41) .enc = false ∧ isInitOf (.encInit 0) .enc = true ∧ isInitOf (.decInit 0) .dec = true ∧
    (after (exec (.encInit 0) ended)).isSome = true ∧ ended.enc.run = .done ∧ ended.dec.run = .done := by decide

theorem witness_DoneRejectsByteAndEnd : ended.enc.run = .done ∧ ended.dec.run = .done := ⟨rfl, rfl⟩

/-- EncByteAccumulates: an empty lookahead, and one with room for one more byte than this. -/
theorem witness_EncByteAccumulates : (runA 0 0).run = .ready ∧ (runA 0 0).la.ls.toNat < 15 ∧ (runA 0 14).run = .ready ∧
    (runA 0 14).la.ls.toNat = 14 := by decide

theorem runA_matches (n len : Nat) (h : ((runA n 15).push 0x41).search len = some 0) :
    ((runA n 15).push 0x41).RunMatches len 0 := ((Encoder.search_eq_some _ _ _).1 h).1

theorem runA_no_match (n len : Nat) (h : ((runA n 15).push 0x41).search len = none) (q : Nat) :
    ¬((runA n 15).push 0x41).RunMatches len q := (Encoder.search_eq_none _ _).1 h q

/-- EncByteTakesMatch for each length, on the windows of 2.6 E6 (4, 8 and 16 bytes 0x41). -/
theorem witness_EncByteTakesMatch_4 : (runA 4 15).run = .ready ∧ (runA 4 15).la.ls.toNat = 15 ∧
    ((runA 4 15).push 0x41).RunMatches 4 0 ∧
    ∀ longer ∈ [8, 16], 4 < longer → ∀ q, ¬((runA 4 15).push 0x41).RunMatches longer q := by
  refine ⟨rfl, by decide, runA_matches _ _ (by decide), fun longer hm _ => ?_⟩
  simp only [List.mem_cons, List.not_mem_nil, or_false] at hm
  rcases hm with rfl | rfl
  · exact runA_no_match _ _ (by decide)
  · exact runA_no_match _ _ (by decide)

theorem witness_EncByteTakesMatch_8 : (runA 8 15).run = .ready ∧ (runA 8 15).la.ls.toNat = 15 ∧
    ((runA 8 15).push 0x41).RunMatches 8 0 ∧
    ∀ longer ∈ [8, 16], 8 < longer → ∀ q, ¬((runA 8 15).push 0x41).RunMatches longer q := by
  refine ⟨rfl, by decide, runA_matches _ _ (by decide), fun longer hm hlt => ?_⟩
  simp only [List.mem_cons, List.not_mem_nil, or_false] at hm
  rcases hm with rfl | rfl
  · exact absurd hlt (by decide)
  · exact runA_no_match _ _ (by decide)

theorem witness_EncByteTakesMatch_16 : (runA 16 15).run = .ready ∧ (runA 16 15).la.ls.toNat = 15 ∧
    ((runA 16 15).push 0x41).RunMatches 16 0 ∧
    ∀ longer ∈ [8, 16], 16 < longer → ∀ q, ¬((runA 16 15).push 0x41).RunMatches longer q := by
  refine ⟨rfl, by decide, runA_matches _ _ (by decide), fun longer hm hlt => ?_⟩
  simp only [List.mem_cons, List.not_mem_nil, or_false] at hm
  rcases hm with rfl | rfl <;> exact absurd hlt (by decide)

/-- EncByteTakesLiteral: three window entries, one too few for the shortest match. -/
theorem witness_EncByteTakesLiteral : (runA 3 15).run = .ready ∧ (runA 3 15).la.ls.toNat = 15 ∧
    ∀ len ∈ [4, 8, 16], ∀ q, ¬((runA 3 15).push 0x41).RunMatches len q := by
  refine ⟨rfl, by decide, fun len hm => ?_⟩
  simp only [List.mem_cons, List.not_mem_nil, or_false] at hm
  rcases hm with rfl | rfl | rfl <;> exact runA_no_match _ _ (by decide)

/-- OneDecisionPerByte and EncoderOutputBounds: a lookahead of 14 and of 15 bytes. -/
theorem witness_OneDecisionPerByte : (runA 0 14).run = .ready ∧ (runA 0 14).la.ls.toNat < 15 ∧ (runA 0 15).run = .ready ∧
    (runA 0 15).la.ls.toNat = 15 := by decide

/-- EmittedReferencesAreValid: `COPY4 00` on a window of four bytes. -/
theorem witness_EmittedReferencesAreValid : (runA 4 15).run = .ready ∧ (runA 4 15).ew.n.toNat ≤ 256 ∧
    (after (exec (.encByte 0x41) (withEnc (runA 4 15)))).map (fun t => t.enc.stream)
      = some ((runA 4 15).stream ++ codeBits (0b01#2 ++ 0x00#8)) := by decide

/-- EncEndDrains and EncEndStorageFrame: with nothing to emit, and with a lookahead to drain. -/
theorem witness_EncEndDrains : (runA 0 0).run = .ready ∧ (runA 0 0).pk.cnt.toNat + (runA 0 0).la.ls.toNat = 0 ∧
    (runA 0 15).run = .ready ∧ 0 < (runA 0 15).pk.cnt.toNat + (runA 0 15).la.ls.toNat ∧
    (after (exec (.encEnd 0) (withEnc (runA 0 15)))).isSome = true := by decide

/-- StreamBitMapping: the first and the last bit of the second of two code words. -/
theorem witness_StreamBitMapping : 1 < [(0x041 : CodeWord), 0x3FF].length ∧ 0 < 10 ∧ 9 < 10 := by decide

/-- EncoderEmitsPackedCodeWords: the longest input without a decision. -/
theorem witness_EncoderEmitsPackedCodeWords : (List.replicate 15 0x41#8).length < 16 := by decide

theorem witness_DecEndResult : State.reset.dec.run = .ready ∧ ended.dec.run = .done := ⟨rfl, rfl⟩

/-- DecByteAccumulates: no bit and one bit accumulated. -/
theorem witness_DecByteAccumulates : (accumulated 0 0).run = .ready ∧ (accumulated 0 0).ca.dcnt.toNat ≤ 1 ∧
    (accumulated 1 1).ca.dcnt.toNat ≤ 1 := by decide

/-- DecByteDispatches: the code word completed by the first and by the last bit of the byte. -/
theorem witness_DecByteDispatches :
    ((accumulated 0x1FF 9).run = .ready ∧ (accumulated 0x1FF 9).phase = .accumulating ∧ (accumulated 0x1FF 9).ca.dcnt.toNat + 1 = 10) ∧
    ((accumulated 3 2).run = .ready ∧ (accumulated 3 2).phase = .accumulating ∧ (accumulated 3 2).ca.dcnt.toNat + 8 = 10) := by
  decide

/-- DecByteEmission: one bit accumulated (no code word completes) and two (one does). -/
theorem witness_DecByteEmission : ((accumulated 1 1).Inv ∧ (accumulated 1 1).ca.dcnt.toNat + 8 < 10) ∧
    (accumulated 3 2).Inv ∧ 10 ≤ (accumulated 3 2).ca.dcnt.toNat + 8 ∧ (accumulated 3 2).run = .ready :=
  ⟨⟨⟨Window.Inv_empty, ⟨by decide, by decide⟩, rfl, fun h => nomatch h⟩, by decide⟩,
    ⟨Window.Inv_empty, ⟨by decide, by decide⟩, rfl, fun h => nomatch h⟩, by decide, rfl⟩

/-- LitWindowEntries: a window with one entry free, and a full one. -/
theorem witness_LitWindowEntries :
    (after (exec (.lit 0xAA) (withDec { Decoder.reset with dw := { W := [], wp := 255, n := 255 } }))).isSome = true ∧
    (after (exec (.lit 0xAA) (withDec { Decoder.reset with dw := { W := [], wp := 0, n := 256 } }))).isSome = true := by decide

/-- CopyResult and CodeWordStorageFrame: their lists of forms. -/
theorem witness_CopyResult (p : Byte) :
    (16, 0b11, Instr.copy16 p) ∈ [(4, 0b01, .copy4 p), (8, 0b10, .copy8 p), (16, 0b11, .copy16 p)] ∧
    (1, Instr.lit p) ∈ [(1, .lit p), (4, .copy4 p), (8, .copy8 p), (16, .copy16 p)] ∧
    (after (exec (.lit 0) State.reset)).isSome = true ∧ (after (exec (.copy16 0xFF) State.reset)).isSome = true :=
  ⟨by simp, by simp, by decide, by decide⟩

/-- ValidCopyReadsWindow: a reference to the four newest of five entries, and to the last 16 of a full window. -/
theorem witness_ValidCopyReadsWindow : (holding [1, 2, 3, 4, 5]).dw.n.toNat ≤ 256 ∧
    (1 : Byte).toNat + 4 = (holding [1, 2, 3, 4, 5]).dw.n.toNat ∧ (240 : Byte).toNat + 16 = (256 : BitVec 9).toNat := by decide

/-- FaultPolicyStopsOnlyAtMalformed: `p + L` one more than the window's size, and equal to it (DEC.BYTE:
`witness_CompletesMalformed`). -/
theorem witness_FaultPolicyStopsOnlyAtMalformed (p : Byte) :
    (holding [1, 2, 3, 4, 5]).dw.n.toNat < (2 : Byte).toNat + 4 ∧ (1 : Byte).toNat + 4 ≤ (holding [1, 2, 3, 4, 5]).dw.n.toNat ∧
    (CopyLength.four, 4, Instr.copy4 p) ∈ [(.four, 4, .copy4 p), (.eight, 8, .copy8 p), (.sixteen, 16, .copy16 p)] ∧
    ended.dec.run = .done := ⟨by decide, by decide, by simp, rfl⟩

/-- WellFormedStreamsRaiseNoFlag: 2.7 D8, `LIT 58` and `COPY4 00`, is not well-formed; four literals and `COPY4 00` are, whose
reference is the longest the window then admits. -/
theorem witness_WellFormedStreamsRaiseNoFlag :
    (packStream [0x058, 0x100]).flatMap byteBits = [(0x058 : CodeWord), 0x100].flatMap codeBits ++ List.replicate 4 false ∧
    (List.replicate 4 false).length < 10 ∧ WellFormedStream (packStream [0x058, 0x100]) = false ∧
    WellFormedStream (packStream [0x041, 0x042, 0x043, 0x044, 0x100]) = true ∧
    (4, decodeCode 0x100) ∈ [(4, Instr.copy4 0x00), (8, .copy8 0x00), (16, .copy16 0x00)] ∧
    (after (execAll (.decInit 0 :: [(0x058 : CodeWord)].map decodeCode) State.reset)).map (fun u => u.dec.dw.n) = some 1 := by
  decide

/-- DecoderFraming: 2.7 D6, `10 7F` is `LIT 41` and six bits more. -/
theorem witness_DecoderFraming : State.reset.dec = { State.reset.dec with out := State.reset.dec.out } ∧
    ([0x10, 0x7F] : List Byte).flatMap byteBits = ([0x041] : List CodeWord).flatMap codeBits ++ List.replicate 6 true ∧
    (List.replicate 6 true).length < 10 := by decide

/-- WindowsStayIdentical: `COPY4 00` from a window of four bytes. -/
theorem witness_WindowsStayIdentical : (runA 4 15).Inv ∧ (runA 4 15).run = .ready ∧
    (holding (List.replicate 4 0x41)).dw = (runA 4 15).ew ∧
    (after (exec (.encByte 0x41) (withEnc (runA 4 15)))).map (fun t => t.enc.stream)
      = some ((runA 4 15).stream ++ codeBits 0x100) :=
  ⟨runA_inv _ _ (by decide), rfl, rfl, by decide⟩

/-- WindowsStayIdentical for ENC.END: 2.6 E2, one literal and six pad bits. -/
theorem witness_WindowsStayIdentical_end : (runA 0 1).Inv ∧ (runA 0 1).run = .ready ∧ (holding []).dw = (runA 0 1).ew ∧
    (after (exec (.encEnd 0) (withEnc (runA 0 1)))).map (fun t => t.enc.out.flatMap byteBits)
      = some ((runA 0 1).stream ++ [(0x041 : CodeWord)].flatMap codeBits ++ List.replicate 6 false) ∧ 6 < 8 :=
  ⟨runA_inv _ _ (by decide), rfl, rfl, by decide, by decide⟩

/-- EncByteStorageFrame: without and with a decision; slot 15 of the window is not reached by one literal. -/
theorem witness_EncByteStorageFrame : (after (exec (.encByte 0x41) (withEnc (runA 0 14)))).isSome = true ∧
    (after (exec (.encByte 0x41) (withEnc (runA 0 15)))).map (fun t => t.enc.la.ls) = some 15 ∧ (runA 0 15).run = .ready ∧
    ∀ j < 16 - 15, 15 ≠ ((runA 0 15).ew.wp + BitVec.ofNat 8 j).toNat := by decide

/-- DecByteStorageFrame: a byte that emits one byte. -/
theorem witness_DecByteStorageFrame : (after (exec (.decByte 0x40) (withDec (accumulated 0x010 8)))).map (fun t => t.dec.out)
    = some [0x41] ∧ (accumulated 0x010 8).run = .ready ∧
    ∀ j < 1, 5 ≠ ((accumulated 0x010 8).dw.wp + BitVec.ofNat 8 j).toNat := by decide

end Sys2Proof.Tests
end

section
/-! PROOF. The engines share no state (R5, R20, R80). -/

namespace Sys2Proof.Machine

/-- An encoder instruction replaces the encoder by a function of the encoder and keeps the rest of the state (R5, R20). -/
theorem exec_enc_next {i : Instr} {s t : State} (hi : engineOf i = .enc) (h : exec i s = .next t) :
    t = { s with enc := s.enc.perform i } := by
  rw [exec_eq, Decoder.perform_enc hi] at h
  cases h
  rfl

/-- A decoder instruction replaces the decoder by a function of the decoder and keeps the rest of the state (R5, R20). -/
theorem exec_dec_next {i : Instr} {s t : State} (hi : engineOf i = .dec) (h : exec i s = .next t) :
    t = { s with dec := s.dec.perform i } := by
  rw [exec_eq, Encoder.perform_dec hi] at h
  cases h
  rfl

/-- Settles O26: the next state is the given one with only the instruction's own engine replaced, by a function of that
engine alone. -/
theorem enginesShareNoState : Obligations.EnginesShareNoState := by
  intro i s s' t t' h h'
  constructor
  · intro hi
    obtain rfl := exec_enc_next hi h
    obtain rfl := exec_enc_next hi h'
    exact ⟨rfl, fun he => congrArg (Encoder.perform i) he⟩
  · intro hi
    obtain rfl := exec_dec_next hi h
    obtain rfl := exec_dec_next hi h'
    exact ⟨rfl, fun hd => congrArg (Decoder.perform i) hd⟩

end Sys2Proof.Machine
end

section
/-! PROOF. What an instruction other than INIT keeps of an engine: its flags and what it has emitted (R29, R30, R45). -/

namespace Sys2Proof.Machine

/-- What every instruction but INIT keeps of the encoder: the flags that are set, and the bytes emitted, to which it only
appends, counting those it appends (R29, R30). -/
structure Encoder.Continues (e e' : Encoder) : Prop where
  errSeq : e.errSeq = true → e'.errSeq = true
  errCmd : e.errCmd = true → e'.errCmd = true
  emitted : ∃ bytes, e'.out = e.out ++ bytes ∧ e'.outCount = e.outCount + BitVec.ofNat 32 bytes.length

/-- What every instruction but INIT keeps of the decoder (R29, R30). -/
structure Decoder.Continues (d d' : Decoder) : Prop where
  errSeq : d.errSeq = true → d'.errSeq = true
  errCmd : d.errCmd = true → d'.errCmd = true
  refOor : d.refOor = true → d'.refOor = true
  emitted : ∃ bytes, d'.out = d.out ++ bytes ∧ d'.outCount = d.outCount + BitVec.ofNat 32 bytes.length

theorem Encoder.Continues.refl (e : Encoder) : e.Continues e := ⟨id, id, [], by simp, by simp⟩
theorem Encoder.continues_setErrSeq (e : Encoder) : e.Continues { e with errSeq := true } :=
  ⟨fun _ => rfl, id, [], by simp, by simp⟩
theorem Decoder.Continues.refl (d : Decoder) : d.Continues d := ⟨id, id, id, [], by simp, by simp⟩
theorem Decoder.continues_setErrSeq (d : Decoder) : d.Continues { d with errSeq := true } :=
  ⟨fun _ => rfl, id, id, [], by simp, by simp⟩

theorem Encoder.continues_acceptByte (e : Encoder) (b : Byte) : e.Continues (e.acceptByte b) := by
  have h := e.acceptByte_frame b
  exact ⟨h.errSeq.trans, h.errCmd.trans, h.emitted⟩

theorem Encoder.continues_finish (e : Encoder) : e.Continues e.finish := by
  obtain ⟨e', h, heq⟩ := e.finish_frame
  rw [heq]
  exact ⟨h.errSeq.trans, h.errCmd.trans, h.emitted⟩

theorem Decoder.continues_dispatch (d : Decoder) (cw : CodeWord) : d.Continues (d.dispatch cw) := by
  rw [Decoder.dispatch_eq]
  exact ⟨id, id, fun h => by simp [h], _, rfl, rfl⟩

theorem Decoder.continues_lit (d : Decoder) (v : Byte) : d.Continues (d.lit v) :=
  d.dispatch_litCode v ▸ d.continues_dispatch _

theorem Decoder.continues_copy (d : Decoder) (L : CopyLength) (p : Byte) : d.Continues (d.copy L p) :=
  d.dispatch_copyCode L p ▸ d.continues_dispatch _

theorem Decoder.continues_acceptByte (d : Decoder) (b : Byte) : d.Continues (d.acceptByte b) := by
  obtain ⟨bytes, ca, ph, h⟩ := d.acceptByte_frame b
  rw [h]
  exact ⟨id, id, fun h => by simp [h], bytes, rfl, rfl⟩

theorem Decoder.continues_finish (d : Decoder) : d.Continues d.finish := ⟨id, id, id, [], by simp [finish], by simp [finish]⟩

/-- Every instruction but ENC.INIT continues the encoder's session (R29, R30). -/
theorem Encoder.continues_perform {i : Instr} (hi : isInitOf i .enc = false) (e : Encoder) : e.Continues (e.perform i) := by
  cases i with
  | encInit d => cases hi
  | encByte d =>
    cases hr : e.run with
    | ready => rw [perform_encByte d hr]; exact e.continues_acceptByte d
    | done => rw [perform_encByte_done d hr]; exact e.continues_setErrSeq
  | encEnd d =>
    cases hr : e.run with
    | ready => rw [perform_encEnd d hr]; exact e.continues_finish
    | done => rw [perform_encEnd_done d hr]; exact e.continues_setErrSeq
  | lit _ | copy4 _ | copy8 _ | copy16 _ | decInit _ | decByte _ | decEnd _ => exact .refl e

/-- Every instruction but DEC.INIT continues the decoder's session (R29, R30). -/
theorem Decoder.continues_perform {i : Instr} (hi : isInitOf i .dec = false) (d : Decoder) : d.Continues (d.perform i) := by
  cases i with
  | lit v => exact d.continues_lit v
  | copy4 p => exact d.continues_copy .four p
  | copy8 p => exact d.continues_copy .eight p
  | copy16 p => exact d.continues_copy .sixteen p
  | decInit x => cases hi
  | decByte b =>
    cases hr : d.run with
    | ready => rw [perform_decByte b hr]; exact d.continues_acceptByte b
    | done => rw [perform_decByte_done b hr]; exact d.continues_setErrSeq
  | decEnd x =>
    cases hr : d.run with
    | ready => rw [perform_decEnd x hr]; exact d.continues_finish
    | done => rw [perform_decEnd_done x hr]; exact d.continues_setErrSeq
  | encInit _ | encByte _ | encEnd _ => exact .refl d

theorem Encoder.perform_isInit {i : Instr} (hi : isInitOf i .enc = true) (e : Encoder) : e.perform i = e.init := by
  cases i with
  | encInit d => rfl
  | _ => cases hi

theorem Decoder.perform_isInit {i : Instr} (hi : isInitOf i .dec = true) (d : Decoder) : d.perform i = d.init := by
  cases i with
  | decInit x => rfl
  | _ => cases hi

/-! ### The input counters -/

/-- An accepted ENC.BYTE counts one byte (R141). -/
theorem Encoder.acceptByte_inCount (e : Encoder) (b : Byte) : (e.acceptByte b).inCount = e.inCount + 1 :=
  (e.acceptByte_frame b).inCount

/-- An accepted DEC.BYTE counts one byte (R211). -/
theorem Decoder.acceptByte_inCount (d : Decoder) (b : Byte) : (d.acceptByte b).inCount = d.inCount + 1 := by
  obtain ⟨bytes, ca, ph, h⟩ := d.acceptByte_frame b
  rw [h]

theorem Encoder.finish_inCount (e : Encoder) : e.finish.inCount = e.inCount := by
  obtain ⟨e', h, heq⟩ := e.finish_frame
  rw [heq]
  exact h.inCount

/-- Nothing but INIT and an accepted ENC.BYTE changes `ENC_IN_COUNT` (R29). -/
theorem Encoder.perform_inCount {i : Instr} (hi : isInitOf i .enc = false) (e : Encoder)
    (h : (∀ b, i ≠ .encByte b) ∨ e.run = .done) : (e.perform i).inCount = e.inCount := by
  cases i with
  | encInit d => cases hi
  | encByte b =>
    have hr : e.run = .done := h.resolve_left fun hb => hb b rfl
    rw [perform_encByte_done b hr]
  | encEnd d =>
    cases hr : e.run with
    | ready => rw [perform_encEnd d hr, finish_inCount]
    | done => rw [perform_encEnd_done d hr]
  | lit _ | copy4 _ | copy8 _ | copy16 _ | decInit _ | decByte _ | decEnd _ => rfl

/-- Nothing but INIT and an accepted DEC.BYTE changes `DEC_IN_COUNT` (R29). -/
theorem Decoder.perform_inCount {i : Instr} (hi : isInitOf i .dec = false) (d : Decoder)
    (h : (∀ b, i ≠ .decByte b) ∨ d.run = .done) : (d.perform i).inCount = d.inCount := by
  have hcopy : ∀ L p, (d.copy L p).inCount = d.inCount := fun L p => by rw [copy_update]
  cases i with
  | lit v => rfl
  | copy4 p => exact hcopy .four p
  | copy8 p => exact hcopy .eight p
  | copy16 p => exact hcopy .sixteen p
  | decInit x => cases hi
  | decByte b =>
    have hr : d.run = .done := h.resolve_left fun hb => hb b rfl
    rw [perform_decByte_done b hr]
  | decEnd x =>
    cases hr : d.run with
    | ready => rw [perform_decEnd x hr]; rfl
    | done => rw [perform_decEnd_done x hr]
  | encInit _ | encByte _ | encEnd _ => rfl

/-- Settles O28: each engine's counters are those of `perform`, which INIT sets to 0 and every other instruction
continues. -/
theorem countersCountBytes : Obligations.CountersCountBytes := by
  intro i s t h
  rw [exec_eq] at h
  cases h
  refine ⟨fun hi => ?_, fun hi => ?_, fun hi => ?_, ⟨rfl, rfl, rfl, rfl⟩, fun hi => ?_⟩
  · obtain ⟨bytes, hout, hcount⟩ := (s.enc.continues_perform hi).emitted
    refine ⟨bytes, hout, hcount, ?_, s.enc.perform_inCount hi⟩
    rintro b rfl hr
    exact (congrArg Encoder.inCount (Encoder.perform_encByte b hr)).trans (s.enc.acceptByte_inCount b)
  · simp only [Encoder.perform_isInit hi]
    exact ⟨rfl, rfl, rfl⟩
  · simp only [Decoder.perform_isInit hi]
    exact ⟨rfl, rfl, rfl⟩
  · obtain ⟨bytes, hout, hcount⟩ := (s.dec.continues_perform hi).emitted
    refine ⟨bytes, hout, hcount, ?_, s.dec.perform_inCount hi⟩
    rintro b rfl hr
    exact (congrArg Decoder.inCount (Decoder.perform_decByte b hr)).trans (s.dec.acceptByte_inCount b)

end Sys2Proof.Machine
end

section
/-! PROOF. Steps of the host port: an access performed, a dispatch completed, the reset input (R24, R43, R44, R280), and
what they do to the flags (R30, R255). -/

namespace Sys2Proof.Machine

/-! ### Decoding numbers that fit their format -/

theorem decode_cw10_toNat (cw : CodeWord) : decode .cw10 cw.toNat = .ok (decodeCode cw) := by
  simp [decode, cw.isLt]

theorem decode_cmd32_toNat (w : Word) : decode .cmd32 w.toNat = decodeCommand w := by
  simp [decode, w.isLt]

/-! ### Accesses -/

theorem Access.inInterface_iff (a : Access) :
    a.inInterface = true ↔ a.width = 32 ∧ a.offset % 4 = 0 ∧ a.offset ≤ 0x3C := by
  simp [Access.inInterface, and_assoc]

/-- A write of the interface at offset 0 is the write of `CMD` (R32, R76). -/
theorem Access.eq_commandAccess {a : Access} {w : Word} (ha : a.inInterface = true) (hk : a.kind = .write w)
    (ho : a.offset = 0) : a = ⟨.write w, 0x00, 32⟩ := by
  obtain ⟨hw, _, _⟩ := a.inInterface_iff.mp ha
  cases a
  simp_all

/-! ### One step -/

/-- The oldest access is what the step performs, on the state from which it has been taken (R284, R286). -/
theorem State.First.fetch_eq {s : State} {a : Access} {rest : List Access} (h : s.First a rest) :
    fetch s = performAccess a { s with pending := rest } := by
  obtain ⟨hr, hp, hq⟩ := h
  simp [fetch, hr, hp, hq, State.popAccess]

theorem step_read {s : State} {rest : List Access} {o : Nat} (h : s.First ⟨.read, o, 32⟩ rest) (h4 : o % 4 = 0)
    (ho : o ≤ 0x3C) : step s = .next { s with pending := rest, reads := s.reads ++ [s.readRegister o] } := by
  have ha : Access.inInterface ⟨.read, o, 32⟩ = true := (Access.inInterface_iff _).mpr ⟨rfl, h4, ho⟩
  simp [step, h.fetch_eq, performAccess, ha, State.readTo, State.readRegister_pending]

/-- A write anywhere but `CMD` is ignored (R43, R44). -/
theorem step_write_ignored {s : State} {rest : List Access} {o : Nat} {w : Word} (h : s.First ⟨.write w, o, 32⟩ rest)
    (h4 : o % 4 = 0) (h0 : 0x04 ≤ o) (ho : o ≤ 0x3C) : step s = .next { s with pending := rest } := by
  have ha : Access.inInterface ⟨.write w, o, 32⟩ = true := (Access.inInterface_iff _).mpr ⟨rfl, h4, ho⟩
  simp [step, h.fetch_eq, performAccess, ha, show o ≠ 0 by omega]

/-- In phase DISPATCH the step completes the dispatch of the accumulated code word (R24, R185). -/
theorem step_dispatch {s : State} (hr : s.rst = false) (hp : s.dec.phase = .dispatch) :
    step s = completeDispatch (exec (decodeCode s.dec.ca.dacc) s) := by
  simp [step, fetch, hr, hp]

/-- The reset input comes first (R280, R290). -/
theorem step_rst {s : State} (hr : s.rst = true) : step s = .next s.hardReset := by
  simp [step, fetch, hr]

/-- Settles O7: the accumulated bits are a code word, so the instruction they decode to is the one whose dispatch the step
completes. -/
theorem stepRunsCodeWord : Obligations.StepRunsCodeWord := by
  intro s t i hr hp hdec hexec
  rw [decode_cw10_toNat] at hdec
  cases hdec
  rw [step_dispatch hr hp, hexec]
  rfl

/-- Settles O12: the rule of an aligned register read. -/
theorem registerReadReturnsValue : Obligations.RegisterReadReturnsValue :=
  fun _ _ _ h h4 ho => step_read h h4 ho

/-! ### Flags -/

/-- An instruction that is not INIT of a flag's engine leaves the flag set (R30). -/
theorem exec_keeps_flag {i : Instr} {s t : State} {f : ErrFlag} (h : exec i s = .next t)
    (hi : isInitOf i f.engine = false) (hf : s.flag f = true) : t.flag f = true := by
  rw [exec_eq] at h
  cases h
  cases f with
  | encErrSeq => exact (s.enc.continues_perform hi).errSeq hf
  | encErrCmd => exact (s.enc.continues_perform hi).errCmd hf
  | decErrSeq => exact (s.dec.continues_perform hi).errSeq hf
  | decErrCmd => exact (s.dec.continues_perform hi).errCmd hf
  | decRefOor => exact (s.dec.continues_perform hi).refOor hf

theorem setFlag_keeps_flag {s : State} {f : ErrFlag} (g : ErrFlag) (hf : s.flag f = true) :
    (s.setFlag g).flag f = true := by
  simp [State.setFlag_flag, hf]

/-- The dispatch of a code word leaves every flag set (R30). -/
theorem dispatch_keeps_flag {s : State} {f : ErrFlag} (cw : CodeWord) (hf : s.flag f = true) :
    State.flag { s with dec := (s.dec.dispatch cw).endDispatch } f = true := by
  have h := s.dec.continues_dispatch cw
  cases f with
  | encErrSeq => exact hf
  | encErrCmd => exact hf
  | decErrSeq => exact h.errSeq hf
  | decErrCmd => exact h.errCmd hf
  | decRefOor => exact h.refOor hf

/-- Settles O24: of everything a step can do, only the reset input and a command can clear a flag, and a command only if it
is INIT of the flag's engine. -/
theorem flagsAreSticky : Obligations.FlagsAreSticky := by
  intro s t f hstep hset hclear
  have hcase := step_cases s
  have hlost : t.flag f ≠ true := by simp [hclear]
  generalize step s = o at hcase hstep
  cases hcase with
  | reset hr => exact .inl hr
  | codeWord =>
    cases hstep
    exact absurd (dispatch_keeps_flag _ hset) hlost
  | idle | read | ignored =>
    cases hstep
    exact absurd hset hlost
  | outside => cases hstep
  | reserved =>
    cases hstep
    exact (hlost (setFlag_keeps_flag _ hset)).elim
  | command hr hp a rest w i hq ha hk ho hd =>
    obtain rfl := Access.eq_commandAccess ha hk ho
    refine .inr ⟨rest, w, i, ⟨hr, hp, hq⟩, (decode_cmd32_toNat w).trans hd, ?_⟩
    by_contra hi
    exact hlost (exec_keeps_flag hstep (Bool.eq_false_iff.mpr hi) hset)

end Sys2Proof.Machine
end

section
/-! PROOF. What the registers read as, the values at reset and the bus addresses of the block (R31 to R43, R48, R77). -/

namespace Sys2Proof.Machine

/-! ### Registers as numbers -/

/-- Concatenation as arithmetic: the field on the left counts in units of the width on the right. -/
theorem toNat_append_eq_add {m n : Nat} (x : BitVec m) (y : BitVec n) :
    (x ++ y).toNat = 2 ^ n * x.toNat + y.toNat := by
  rw [BitVec.toNat_append, ← Nat.shiftLeft_add_eq_or_of_lt y.isLt, Nat.shiftLeft_eq, Nat.mul_comm]

theorem RunState.bit_toNat (r : RunState) : r.bit.toNat = if r = .done then 1 else 0 := by
  cases r <;> rfl

theorem State.encStatus_toNat (s : State) :
    s.encStatus.toNat = (if s.enc.run = .done then 1 else 0) + 2 * s.enc.errSeq.toNat + 4 * s.enc.errCmd.toNat
      + 2 ^ 8 * s.enc.la.ls.toNat + 2 ^ 13 * s.enc.pk.cnt.toNat + 2 ^ 16 * s.enc.ew.n.toNat := by
  unfold encStatus
  simp only [toNat_append_eq_add, BitVec.toNat_ofNat, BitVec.toNat_ofBool, RunState.bit_toNat]
  omega

theorem State.encAcc_toNat (s : State) : s.encAcc.toNat = s.enc.pk.acc.toNat := by
  unfold encAcc
  simp only [toNat_append_eq_add, BitVec.toNat_ofNat]
  omega

theorem State.encPtr_toNat (s : State) :
    s.encPtr.toNat = s.enc.ew.wp.toNat + 2 ^ 8 * s.enc.la.ri.toNat + 2 ^ 12 * s.enc.la.wi.toNat := by
  unfold encPtr
  simp only [toNat_append_eq_add, BitVec.toNat_ofNat]
  omega

theorem State.decStatus_toNat (s : State) :
    s.decStatus.toNat = (if s.dec.run = .done then 1 else 0) + 2 * s.dec.errSeq.toNat + 4 * s.dec.errCmd.toNat
      + 8 * s.dec.refOor.toNat + 2 ^ 8 * s.dec.ca.dcnt.toNat + 2 ^ 16 * s.dec.dw.n.toNat := by
  unfold decStatus
  simp only [toNat_append_eq_add, BitVec.toNat_ofNat, BitVec.toNat_ofBool, RunState.bit_toNat]
  omega

theorem State.decAcc_toNat (s : State) : s.decAcc.toNat = s.dec.ca.dacc.toNat := by
  unfold decAcc
  simp only [toNat_append_eq_add, BitVec.toNat_ofNat]
  omega

theorem State.decPtr_toNat (s : State) : s.decPtr.toNat = s.dec.dw.wp.toNat := by
  unfold decPtr
  simp only [toNat_append_eq_add, BitVec.toNat_ofNat]
  omega

theorem State.reset_readRegister (o : Nat) : State.reset.readRegister o = 0 := by
  unfold readRegister
  split <;> rfl

/-- Settles O13, register by register, with the ranges of the between-command invariant (R46). -/
theorem registerMap : Obligations.RegisterMap := by
  refine ⟨fun s => ⟨s.encStatus_toNat, rfl, rfl, s.encAcc_toNat, s.encPtr_toNat, s.decStatus_toNat, rfl, rfl,
    s.decAcc_toNat, s.decPtr_toNat⟩, fun s hinv => ?_, State.reset_readRegister,
    fun s rest o w h h4 h0 ho => step_write_ignored h h4 h0 (by omega)⟩
  obtain ⟨⟨⟨_, hew, _⟩, ⟨_, hls, _⟩, _⟩, ⟨_, hdw, _⟩, ⟨hdcnt, _⟩, _⟩ := hinv
  exact ⟨hls, Nat.le_of_lt_succ s.enc.pk.cnt.isLt, hew, hdcnt, hdw⟩

/-! ### Reserved bits -/

/-- Bits `start` to `start + len - 1` are 0 when the number's digits there are. -/
theorem extractLsb'_eq_zero {x : Word} (start len : Nat) (h : x.toNat / 2 ^ start % 2 ^ len = 0) :
    x.extractLsb' start len = 0 := by
  apply BitVec.eq_of_toNat_eq
  simpa [Nat.shiftRight_eq_div_pow] using h

theorem State.encStatus_reserved (s : State) :
    s.encStatus.extractLsb' 3 5 = 0 ∧ s.encStatus.extractLsb' 25 7 = 0 := by
  have hval := s.encStatus_toNat
  rw [← RunState.bit_toNat] at hval
  have hseq := s.enc.errSeq.toNat_le
  have hcmd := s.enc.errCmd.toNat_le
  exact ⟨extractLsb'_eq_zero 3 5 (by omega), extractLsb'_eq_zero 25 7 (by omega)⟩

theorem State.encAcc_reserved (s : State) : s.encAcc.extractLsb' 8 24 = 0 :=
  extractLsb'_eq_zero 8 24 (by have := s.encAcc_toNat; omega)

theorem State.encPtr_reserved (s : State) : s.encPtr.extractLsb' 16 16 = 0 :=
  extractLsb'_eq_zero 16 16 (by have := s.encPtr_toNat; omega)

theorem State.decStatus_reserved (s : State) : s.decStatus.extractLsb' 4 4 = 0 ∧
    s.decStatus.extractLsb' 12 4 = 0 ∧ s.decStatus.extractLsb' 25 7 = 0 := by
  have hval := s.decStatus_toNat
  rw [← RunState.bit_toNat] at hval
  have hseq := s.dec.errSeq.toNat_le
  have hcmd := s.dec.errCmd.toNat_le
  have href := s.dec.refOor.toNat_le
  exact ⟨extractLsb'_eq_zero 4 4 (by omega), extractLsb'_eq_zero 12 4 (by omega), extractLsb'_eq_zero 25 7 (by omega)⟩

theorem State.decAcc_reserved (s : State) : s.decAcc.extractLsb' 10 22 = 0 :=
  extractLsb'_eq_zero 10 22 (by have := s.decAcc_toNat; omega)

theorem State.decPtr_reserved (s : State) : s.decPtr.extractLsb' 8 24 = 0 :=
  extractLsb'_eq_zero 8 24 (by have := s.decPtr_toNat; omega)

/-- `CMD` and the reserved offsets read 0 (R32, R43). -/
theorem State.readRegister_reserved (s : State) (o : Nat) (ho : o ∈ [0x00, 0x2C, 0x30, 0x34, 0x38, 0x3C]) :
    s.readRegister o = 0 := by
  simp only [List.mem_cons, List.not_mem_nil, or_false] at ho
  rcases ho with rfl | rfl | rfl | rfl | rfl | rfl <;> rfl

/-- Settles O14: the reserved bits are digits 0 of the registers' numbers. -/
theorem reservedReadZeroWritesIgnored : Obligations.ReservedReadZeroWritesIgnored := by
  refine ⟨State.readRegister_reserved, fun s => ?_, fun s rest o w h h4 h0 ho => step_write_ignored h h4 h0 ho⟩
  obtain ⟨henc, henc'⟩ := s.encStatus_reserved
  obtain ⟨hdec, hdec', hdec''⟩ := s.decStatus_reserved
  exact ⟨henc, henc', s.encAcc_reserved, s.encPtr_reserved, hdec, hdec', hdec'', s.decAcc_reserved, s.decPtr_reserved⟩

/-! ### Reset and INIT -/

/-- Settles O17: INIT and the reset input give an engine its reset value with the output stream kept. -/
theorem resetValues : Obligations.ResetValues := by
  refine ⟨by decide, by decide, fun a => ⟨Memory.read_nil a, Memory.read_nil a, Memory.read_nil a⟩,
    fun s d => ⟨?_, ?_⟩, fun s hr => ⟨s.hardReset, step_rst hr, s.enc.init_eq, s.dec.init_eq⟩⟩
  · rw [exec_encInit, Encoder.init_eq]; rfl
  · rw [exec_decInit, Decoder.init_eq]; rfl

/-! ### Bus addresses -/

/-- `CORE_BASE` is 4-byte aligned (R31, log entry 5). -/
theorem coreBase_aligned : Config.coreBase % 4 = 0 := Nat.mul_mod_right 4 _

theorem busAccess_eq_none_iff (k : AccessKind) (addr width : Nat) :
    busAccess k addr width = none ↔ addr < Config.coreBase ∨ Config.coreBase + 64 ≤ addr := by
  simp only [busAccess, ite_eq_right_iff, reduceCtorEq, imp_false, not_and_or, Nat.not_le, Nat.not_lt]

/-- A bus access that reaches the block: its offset from the base is inside the 64 bytes, kind and width are its own. -/
theorem busAccess_some {k : AccessKind} {addr width : Nat} {a : Access} (h : busAccess k addr width = some a) :
    a.offset < 64 ∧ Config.coreBase + a.offset = addr ∧ a.kind = k ∧ a.width = width := by
  unfold busAccess at h
  split at h
  · next hin =>
    cases h
    exact ⟨by dsimp only; omega, Nat.add_sub_cancel' hin.1, rfl, rfl⟩
  · cases h

/-- Settles O16: the base is aligned, so the offset is aligned exactly when the bus address is; an aligned offset below 64
is at most 0x3C. -/
theorem busAddressesOfTheBlock : Obligations.BusAddressesOfTheBlock := by
  intro k addr width
  refine ⟨busAccess_eq_none_iff k addr width, fun a ha => ?_⟩
  obtain ⟨hlt, rfl, hk, hw⟩ := busAccess_some ha
  have hbase := coreBase_aligned
  refine ⟨hk, rfl, ?_⟩
  rw [Access.inInterface_iff, hw]
  omega

end Sys2Proof.Machine
end

section
/-! PROOF. Runs of commands: those the host issues are performed in the order of the writes, and the two engines' commands
interleave freely (R79, R80, R111, R288); an access outside the interface is refused (R76). -/

namespace Sys2Proof.Machine

/-! ### Issued commands -/

/-- The word the host writes for a command decodes to that command (R112). -/
theorem decodeCommand_commandWord {i : Instr} (hi : i.format = .cmd32) : decodeCommand (commandWord i) = .ok i := by
  cases i with
  | lit _ | copy4 _ | copy8 _ | copy16 _ => cases hi
  | encInit _ | encByte _ | encEnd _ | decInit _ | decByte _ | decEnd _ =>
    simp [commandWord, encode, Instr.fields, decodeCommand]

/-- When the oldest access is a write of `CMD` with a command's word, the step is that command (R111). -/
theorem step_command {s : State} {rest : List Access} {w : Word} {i : Instr} (h : s.First (commandAccess w) rest)
    (hd : decodeCommand w = .ok i) : step s = exec i { s with pending := rest } := by
  have ha : (commandAccess w).inInterface = true := (Access.inInterface_iff _).mpr ⟨rfl, rfl, Nat.zero_le _⟩
  simp only [step, h.fetch_eq, performAccess, ha, if_true]
  simp [commandAccess, writeCommand, hd]

theorem Decoder.shiftBit_accumulating {d : Decoder} (x : Bool) (h : d.phase = .accumulating) :
    (d.shiftBit x).phase = .accumulating := by
  unfold shiftBit
  dsimp only
  split
  · exact endDispatch_phase _
  · exact h

/-- A packed byte is taken whole: after it no dispatch is in progress (R24, R185), whatever was accumulated before. -/
theorem Decoder.acceptByte_accumulating {d : Decoder} (b : Byte) (h : d.phase = .accumulating) :
    (d.acceptByte b).phase = .accumulating :=
  List.foldlRecOn (motive := fun d : Decoder => d.phase = .accumulating) _ _ h fun _ hd x _ => shiftBit_accumulating x hd

/-- Between two instructions no dispatch is in progress (R24). -/
theorem Decoder.perform_accumulating (i : Instr) {d : Decoder} (h : d.phase = .accumulating) :
    (d.perform i).phase = .accumulating := by
  have hcopy : ∀ L p, (d.copy L p).phase = .accumulating := fun L p => by rw [copy_update]; exact h
  cases i with
  | lit v => exact h
  | copy4 p => exact hcopy .four p
  | copy8 p => exact hcopy .eight p
  | copy16 p => exact hcopy .sixteen p
  | decInit x => rfl
  | decByte b =>
    cases hr : d.run with
    | ready => rw [perform_decByte b hr]; exact acceptByte_accumulating b h
    | done => rw [perform_decByte_done b hr]; exact h
  | decEnd x =>
    cases hr : d.run with
    | ready => rw [perform_decEnd x hr]; exact h
    | done => rw [perform_decEnd_done x hr]; exact h
  | encInit _ | encByte _ | encEnd _ => exact h

theorem State.Quiet.issue_cons {s : State} (h : s.Quiet) (w : Word) (ws : List Word) :
    (s.issue (w :: ws)).First (commandAccess w) (ws.map commandAccess) := by
  obtain ⟨hr, hp, hq⟩ := h
  exact ⟨hr, hp, by simp [issue, hq]⟩

theorem State.Quiet.exec_next {s t : State} {i : Instr} (h : s.Quiet) (ht : exec i s = .next t) : t.Quiet := by
  obtain ⟨hr, hp, hq⟩ := h
  rw [exec_eq] at ht
  cases ht
  exact ⟨hr, Decoder.perform_accumulating i hp, hq⟩

/-- From a quiet state the step performs the oldest issued command and leaves the others issued (R79, R111). -/
theorem State.Quiet.step_issue {s t : State} {i : Instr} (h : s.Quiet) (hi : i.format = .cmd32) (ws : List Word)
    (ht : exec i s = .next t) : step (s.issue (commandWord i :: ws)) = .next (t.issue ws) := by
  rw [step_command (h.issue_cons _ ws) (decodeCommand_commandWord hi), exec_eq]
  rw [exec_eq] at ht
  cases ht
  obtain ⟨_, _, hq⟩ := h
  simp [issue, hq]

/-- Settles O11, by induction on the list of commands: each step performs one and leads to a quiet state with the others
issued. -/
theorem issuedCommandsRunInOrder : Obligations.IssuedCommandsRunInOrder := by
  intro s is hs his
  induction is generalizing s with
  | nil => simp [stepMany, execAll, State.issue]
  | cons i is ih =>
    obtain ⟨hi, his⟩ := List.forall_mem_cons.mp his
    have ht := exec_eq i s
    simp only [List.length_cons, List.map_cons, stepMany, execAll, hs.step_issue hi _ ht, ht]
    exact ih _ (hs.exec_next ht) his

/-! ### Interleaving -/

/-- The encoder after a list of instructions is the encoder after its encoder instructions (R80). -/
theorem Encoder.foldl_perform_filter (is : List Instr) (e : Encoder) :
    (is.filter fun i => engineOf i = .enc).foldl (fun e i => Encoder.perform i e) e
      = is.foldl (fun e i => Encoder.perform i e) e := by
  rw [List.foldl_filter]
  congr 1
  funext e i
  cases h : engineOf i with
  | enc => rfl
  | dec => exact (perform_dec h e).symm

/-- The decoder after a list of instructions is the decoder after its decoder instructions (R80). -/
theorem Decoder.foldl_perform_filter (is : List Instr) (d : Decoder) :
    (is.filter fun i => engineOf i = .dec).foldl (fun d i => Decoder.perform i d) d
      = is.foldl (fun d i => Decoder.perform i d) d := by
  rw [List.foldl_filter]
  congr 1
  funext d i
  cases h : engineOf i with
  | enc => exact (perform_enc h d).symm
  | dec => rfl

/-- Settles O27: a list of instructions is a function of each engine, to which the other engine's instructions add nothing. -/
theorem interleavingIsFree : Obligations.InterleavingIsFree := by
  intro is s
  exact ⟨_, _, _, execAll_eq is s, execAll_eq _ s, execAll_eq _ s, (Encoder.foldl_perform_filter is s.enc).symm,
    (Decoder.foldl_perform_filter is s.dec).symm⟩

/-! ### Accesses outside the interface -/

/-- Settles O15: such an access fails the check of `performAccess` (R76). -/
theorem outsideAccessRefused : Obligations.OutsideAccessRefused := by
  intro s rest a h hout
  have ha : ¬a.inInterface = true := by
    rw [Access.inInterface_iff]
    omega
  simp only [step, h.fetch_eq, performAccess, if_neg ha]

end Sys2Proof.Machine
end

section
/-! PROOF. The decoder's window after a code word, by window index (R62, R64, R214 to R221). -/

namespace Sys2Proof.Machine

/-- R62, R64: the entries after an append, full window or not. -/
theorem Window.contents_append (w : Window) (b : Byte) (h : w.n.toNat ≤ 256) :
    (w.append b).contents = (if w.n.toNat = 256 then w.contents.tail else w.contents) ++ [b] := by
  split
  · next hfull => exact w.contents_append_full b hfull
  · next hfree => exact w.contents_append_growing b (by omega)

/-- Settles O48: LIT appends its byte to the window. -/
theorem litWindowEntries : Obligations.LitWindowEntries := by
  intro s t v hn h
  rw [exec_lit] at h
  cases h
  exact s.dec.dw.contents_append v hn

/-- Each of the three copy instructions is `Copy(L, p)` for the length it stands for (R216 to R218). -/
theorem exec_copy_of_mem {p : Byte} {len : Nat} {i : Instr}
    (h : (len, i) ∈ [(4, .copy4 p), (8, .copy8 p), (16, .copy16 p)]) :
    ∃ L, len = copyBytes L ∧ ∀ s, exec i s = .next { s with dec := s.dec.copy L p } := by
  simp only [List.mem_cons, Prod.mk.injEq, List.not_mem_nil, or_false] at h
  rcases h with ⟨rfl, rfl⟩ | ⟨rfl, rfl⟩ | ⟨rfl, rfl⟩
  · exact ⟨.four, rfl, exec_copy4 p⟩
  · exact ⟨.eight, rfl, exec_copy8 p⟩
  · exact ⟨.sixteen, rfl, exec_copy16 p⟩

/-- R219, R221: a back-reference inside the valid window outputs the entries it names, as they stood at dispatch, and leaves
REF_OOR as it was. -/
theorem Decoder.copy_valid (d : Decoder) (L : CopyLength) (p : Byte) (hn : d.dw.n.toNat ≤ 256)
    (hp : p.toNat + copyBytes L ≤ d.dw.n.toNat) :
    d.copy L p = d.outputAll ((List.range (copyBytes L)).map fun k => d.dw.read (p.toNat + k)) := by
  have hbytes : copiedBytes (copyBytes L) (startSlot d.dw p) d.dw
      = (List.range (copyBytes L)).map fun k => d.dw.read (p.toNat + k) := copiedBytes_valid d.dw p.toNat _ hn hp
  have href : malformed d.dw L p = false := by
    rw [Bool.eq_false_iff, ne_eq, malformed_iff]
    omega
  have hcheck : d.checkRef L p = d := by simp [checkRef, href]
  rw [copy_eq, hcheck, hbytes]

/-- Settles O50: a copy inside the valid window only outputs the entries it names. -/
theorem validCopyReadsWindow : Obligations.ValidCopyReadsWindow := by
  intro s p len i hi hn hp
  obtain ⟨L, rfl, hexec⟩ := exec_copy_of_mem hi
  refine ⟨_, hexec s, ?_⟩
  rw [s.dec.copy_valid L p hn hp, Decoder.outputAll_eq]
  exact ⟨rfl, rfl, rfl⟩

end Sys2Proof.Machine
end

section
/-! PROOF. Encodings: decoding and encoding are inverse to each other in both formats, and the words of R103 and R112
(R100 to R103, R110 to R114). -/

namespace Sys2Proof.Machine

/-! ### Decode after encode -/

theorem decodeCode_litCode (v : Byte) : decodeCode (litCode v) = .lit v := by
  simp [decodeCode, litCode]

theorem decodeCode_copyCode (L : CopyLength) (p : Byte) :
    decodeCode (copyCode L p) = match L with | .four => .copy4 p | .eight => .copy8 p | .sixteen => .copy16 p := by
  cases L <;> simp [decodeCode, copyCode, copyTag]

/-- The code word an instruction of that format is encoded as decodes to the instruction (R100, R101). -/
theorem exists_codeWord {i : Instr} (hi : i.format = .cw10) :
    ∃ cw : CodeWord, encode i = cw.toNat ∧ decodeCode cw = i := by
  cases i with
  | lit v => exact ⟨litCode v, rfl, decodeCode_litCode v⟩
  | copy4 p => exact ⟨copyCode .four p, rfl, decodeCode_copyCode .four p⟩
  | copy8 p => exact ⟨copyCode .eight p, rfl, decodeCode_copyCode .eight p⟩
  | copy16 p => exact ⟨copyCode .sixteen p, rfl, decodeCode_copyCode .sixteen p⟩
  | encInit _ | encByte _ | encEnd _ | decInit _ | decByte _ | decEnd _ => cases hi

/-- Every encoding fits a command word, so writing it to `CMD` drops no bit (R112). -/
theorem commandWord_toNat (i : Instr) : (commandWord i).toNat = encode i := by
  have hlt : encode i < 2 ^ 32 := by
    unfold encode
    split
    · next c _ => exact c.word.isLt.trans (by decide)
    · next c _ => exact c.word.isLt
  rw [commandWord, BitVec.toNat_ofNat, Nat.mod_eq_of_lt hlt]

theorem decode_encode (i : Instr) : decode i.format (encode i) = .ok i := by
  cases hf : i.format with
  | cw10 =>
    obtain ⟨cw, henc, hdec⟩ := exists_codeWord hf
    rw [henc, decode_cw10_toNat, hdec]
  | cmd32 => rw [← commandWord_toNat, decode_cmd32_toNat, decodeCommand_commandWord hf]

theorem decodeTableWord_of_decode {f : Format} {nbits w : Nat} {i : Instr} (hf : tableFormat nbits = some f)
    (hd : decode f w = .ok i) : decodeTableWord nbits w = some i := by
  simp only [decodeTableWord, hf, hd, Except.toOption]

/-- Settles O1: an opcode table word is read in the format its number of bits names, which is the instruction's own. -/
theorem decodeOfEncode : Obligations.DecodeOfEncode := by
  intro i
  have hdec := decode_encode i
  refine ⟨hdec, ?_⟩
  cases hf : i.format with
  | cw10 => exact decodeTableWord_of_decode (f := .cw10) rfl (hf ▸ hdec)
  | cmd32 => exact decodeTableWord_of_decode (f := .cmd32) rfl (hf ▸ hdec)

/-! ### Encode after decode -/

/-- A code word's instruction keeps both fields of the word (R100, R101). -/
theorem fields_decodeCode (cw : CodeWord) : (decodeCode cw).fields = .inl ⟨codeTag cw, codePayload cw⟩ := by
  have hlast : ∀ t : BitVec 2, t ≠ 0b00#2 → t ≠ 0b01#2 → t ≠ 0b10#2 → t = 0b11#2 := by decide
  unfold decodeCode
  split_ifs with h0 h1 h2
  · rw [h0]; rfl
  · rw [h1]; rfl
  · rw [h2]; rfl
  · rw [hlast _ h0 h1 h2]; rfl

theorem format_encode_of_codeFields {i : Instr} {c : CodeFields} (h : i.fields = .inl c) :
    i.format = .cw10 ∧ encode i = c.word.toNat := by
  refine ⟨?_, by simp only [encode, h]⟩
  cases i with
  | lit _ | copy4 _ | copy8 _ | copy16 _ => rfl
  | encInit _ | encByte _ | encEnd _ | decInit _ | decByte _ | decEnd _ => cases h

theorem format_encode_of_commandFields {i : Instr} {c : CommandFields} (h : i.fields = .inr c) :
    i.format = .cmd32 ∧ encode i = c.word.toNat := by
  refine ⟨?_, by simp only [encode, h]⟩
  cases i with
  | lit _ | copy4 _ | copy8 _ | copy16 _ => cases h
  | encInit _ | encByte _ | encEnd _ | decInit _ | decByte _ | decEnd _ => rfl

theorem exists_of_decode_cw10 {n : Nat} {i : Instr} (h : decode .cw10 n = .ok i) :
    ∃ cw : CodeWord, cw.toNat = n ∧ decodeCode cw = i := by
  by_cases hn : n < 2 ^ 10
  · refine ⟨BitVec.ofNat 10 n, Nat.mod_eq_of_lt hn, ?_⟩
    simpa only [decode, if_pos hn, Except.ok.injEq] using h
  · simp only [decode, if_neg hn, reduceCtorEq] at h

theorem exists_of_decode_cmd32 {n : Nat} {i : Instr} (h : decode .cmd32 n = .ok i) :
    ∃ w : Word, w.toNat = n ∧ decodeCommand w = .ok i := by
  by_cases hn : n < 2 ^ 32
  · refine ⟨BitVec.ofNat 32 n, Nat.mod_eq_of_lt hn, ?_⟩
    simpa only [decode, if_pos hn] using h
  · simp only [decode, if_neg hn, reduceCtorEq] at h

/-- The INIT command of an engine (R112). -/
def initOf : Engine → Byte → Instr
  | .enc => .encInit
  | .dec => .decInit

/-- The BYTE command of an engine (R112). -/
def byteOf : Engine → Byte → Instr
  | .enc => .encByte
  | .dec => .decByte

/-- The END command of an engine (R112). -/
def endOf : Engine → Byte → Instr
  | .enc => .encEnd
  | .dec => .decEnd

@[simp] theorem fields_initOf (g : Engine) (d : Byte) : (initOf g d).fields = .inr ⟨0#20, g, 0b001#3, d⟩ := by
  cases g <;> rfl
@[simp] theorem fields_byteOf (g : Engine) (d : Byte) : (byteOf g d).fields = .inr ⟨0#20, g, 0b010#3, d⟩ := by
  cases g <;> rfl
@[simp] theorem fields_endOf (g : Engine) (d : Byte) : (endOf g d).fields = .inr ⟨0#20, g, 0b011#3, d⟩ := by
  cases g <;> rfl

/-- A command word with an instruction's fields decodes to the instruction (R110, R112). -/
theorem decodeCommand_of_fields {w : Word} {i : Instr} (h : i.fields = .inr (commandFields w)) :
    decodeCommand w = .ok i := by
  obtain ⟨hformat, henc⟩ := format_encode_of_commandFields h
  rw [CommandFields.word_fields, ← commandWord_toNat] at henc
  rw [← BitVec.eq_of_toNat_eq henc, decodeCommand_commandWord hformat]

/-- A reserved word is refused (R113). -/
theorem decodeCommand_reserved {w : Word} (h : Reserved w) : ∃ e, decodeCommand w = .error e := by
  have hops : ∀ op : BitVec 3, op ∈ [0b000#3, 0b100#3, 0b101#3, 0b110#3, 0b111#3] →
      op ≠ 0b001#3 ∧ op ≠ 0b010#3 ∧ op ≠ 0b011#3 := by decide
  unfold decodeCommand
  by_cases hr : commandRsvd w = 0
  · obtain ⟨h1, h2, h3⟩ := hops (commandOp w) (h.resolve_left (not_not.mpr hr))
    rw [if_neg (not_not.mpr hr)]
    cases commandEngine w with
    | enc => exact ⟨_, by simp only [h1, h2, h3, if_false]; rfl⟩
    | dec => exact ⟨_, by simp only [h1, h2, h3, if_false]; rfl⟩
  · exact ⟨_, if_pos hr⟩

/-- A word that is not reserved has RSVD 0 and the OP of INIT, BYTE or END (R113). -/
theorem rsvd_op_of_not_reserved {w : Word} (h : ¬Reserved w) :
    commandRsvd w = 0 ∧ (commandOp w = 0b001#3 ∨ commandOp w = 0b010#3 ∨ commandOp w = 0b011#3) := by
  have hops : ∀ op : BitVec 3, op ∉ [0b000#3, 0b100#3, 0b101#3, 0b110#3, 0b111#3] →
      op = 0b001#3 ∨ op = 0b010#3 ∨ op = 0b011#3 := by decide
  obtain ⟨hr, hop⟩ := not_or.mp h
  exact ⟨not_not.mp hr, hops _ hop⟩

/-- The command a word that is not reserved issues, by its OP (R112). -/
theorem decodeCommand_of_op {w : Word} (h : ¬Reserved w) :
    (commandOp w = 0b001#3 ∧ decodeCommand w = .ok (initOf (commandEngine w) (commandData w))) ∨
    (commandOp w = 0b010#3 ∧ decodeCommand w = .ok (byteOf (commandEngine w) (commandData w))) ∨
    (commandOp w = 0b011#3 ∧ decodeCommand w = .ok (endOf (commandEngine w) (commandData w))) := by
  obtain ⟨hr, hop⟩ := rsvd_op_of_not_reserved h
  rcases hop with hop | hop | hop
  · exact .inl ⟨hop, decodeCommand_of_fields (by simp [commandFields, hr, hop])⟩
  · exact .inr (.inl ⟨hop, decodeCommand_of_fields (by simp [commandFields, hr, hop])⟩)
  · exact .inr (.inr ⟨hop, decodeCommand_of_fields (by simp [commandFields, hr, hop])⟩)

/-- The instruction a command word decodes to keeps every field of the word (R110, R112, R113). -/
theorem fields_of_decodeCommand {w : Word} {i : Instr} (h : decodeCommand w = .ok i) :
    i.fields = .inr (commandFields w) := by
  have hres : ¬Reserved w := by
    intro hres
    obtain ⟨e, he⟩ := decodeCommand_reserved hres
    cases he.symm.trans h
  obtain ⟨hr, -⟩ := rsvd_op_of_not_reserved hres
  rcases decodeCommand_of_op hres with ⟨hop, hd⟩ | ⟨hop, hd⟩ | ⟨hop, hd⟩
  all_goals
    cases h.symm.trans hd
    simp [commandFields, hr, hop]

/-- Settles O2: the decoded instruction keeps the word's fields, of which the word is made. -/
theorem encodeOfDecode : Obligations.EncodeOfDecode := by
  intro f n i h
  cases f with
  | cw10 =>
    obtain ⟨cw, rfl, rfl⟩ := exists_of_decode_cw10 h
    have hfields := format_encode_of_codeFields (fields_decodeCode cw)
    rwa [CodeFields.word_fields] at hfields
  | cmd32 =>
    obtain ⟨w, rfl, hd⟩ := exists_of_decode_cmd32 h
    have hfields := format_encode_of_commandFields (fields_of_decodeCommand hd)
    rwa [CommandFields.word_fields] at hfields

/-! ### The numbers of the words -/

/-- A byte below a fixed upper part, as the spec writes it. -/
theorem or_byte {a : Nat} (ha : a % 2 ^ 8 = 0) (b : Byte) : a ||| b.toNat = a + b.toNat := by
  have hshift : (a / 2 ^ 8) <<< 8 = a := by rw [Nat.shiftLeft_eq]; omega
  rw [← hshift, Nat.shiftLeft_add_eq_or_of_lt b.isLt]

/-- Every instruction is its row's number with the operand in the low byte (R103, R112). -/
theorem encode_eq_tableRow (i : Instr) : encode i = (Laws.tableRow i).2 ||| (Laws.operand i).toNat := by
  have hrow : (Laws.tableRow i).2 % 2 ^ 8 = 0 := by cases i <;> simp [Laws.tableRow]
  rw [or_byte hrow]
  cases i with
  | lit b | copy4 b | copy8 b | copy16 b => exact Laws.encode_code _ b
  | encInit b | encByte b | encEnd b | decInit b | decByte b | decEnd b => exact Laws.encode_command _ _ b

theorem decode_tableRow (i : Instr) : decode i.format ((Laws.tableRow i).2 ||| (Laws.operand i).toNat) = .ok i :=
  encode_eq_tableRow i ▸ decode_encode i

/-- Settles O3: the rows of the four code words, and R103's examples. -/
theorem codeWordNumbers : Obligations.CodeWordNumbers :=
  ⟨fun v => ⟨encode_eq_tableRow (.lit v), encode_eq_tableRow (.copy4 v), encode_eq_tableRow (.copy8 v),
    encode_eq_tableRow (.copy16 v), decode_tableRow (.lit v), decode_tableRow (.copy4 v), decode_tableRow (.copy8 v),
    decode_tableRow (.copy16 v)⟩, rfl, rfl, rfl⟩

/-- Settles O4: the rows of the six commands; no meaning of INIT or END reads DATA. -/
theorem commandWordNumbers : Obligations.CommandWordNumbers :=
  ⟨fun d => ⟨encode_eq_tableRow (.encInit d), encode_eq_tableRow (.encByte d), encode_eq_tableRow (.encEnd d),
    encode_eq_tableRow (.decInit d), encode_eq_tableRow (.decByte d), encode_eq_tableRow (.decEnd d),
    decode_tableRow (.encInit d), decode_tableRow (.encByte d), decode_tableRow (.encEnd d),
    decode_tableRow (.decInit d), decode_tableRow (.decByte d), decode_tableRow (.decEnd d)⟩,
    fun _ _ _ => ⟨rfl, rfl, rfl, rfl⟩⟩

/-- Settles O5: six words are rows of instructions with their operands; the other two are reserved (R113). -/
theorem specWordsDecode : Obligations.SpecWordsDecode :=
  ⟨decode_tableRow (.lit 0x41), decode_tableRow (.copy4 0xFC), decode_tableRow (.copy8 0x00),
    decode_tableRow (.copy16 0x10), decode_tableRow (.encByte 0x41), decode_tableRow (.decByte 0x10), rfl, rfl⟩

end Sys2Proof.Machine
end

section
/-! PROOF. Command words and code words as steps: the instruction a word names, reserved words and the order of the checks
of a `CMD` write (R111, R113, R253, log entry 8). -/

namespace Sys2Proof.Machine

/-- A command is one of the engine ENG names (R110, R112). -/
theorem engineOf_of_decodeCommand {w : Word} {i : Instr} (h : decodeCommand w = .ok i) :
    engineOf i = commandEngine w := by
  have hfields := fields_of_decodeCommand h
  cases i with
  | lit _ | copy4 _ | copy8 _ | copy16 _ => cases hfields
  | encInit _ | encByte _ | encEnd _ | decInit _ | decByte _ | decEnd _ =>
    exact congrArg CommandFields.eng (Sum.inr.inj hfields)

/-- Settles O6: the rule of a `CMD` write whose word decodes, and the engine of its command. -/
theorem stepRunsCommand : Obligations.StepRunsCommand := by
  intro s rest w i h hdec
  rw [decode_cmd32_toNat] at hdec
  exact ⟨step_command h hdec, engineOf_of_decodeCommand hdec⟩

/-! ### Placed words -/

theorem State.withFetchWord_command (s : State) (i : Instr) :
    (s.withFetchWord 32 (encode i)).First (commandAccess (commandWord i)) s.pending := ⟨rfl, rfl, rfl⟩

/-- A dispatch reads neither the accumulator nor the phase, and its end sets both (R185, R213). -/
theorem Decoder.endDispatch_dispatch (d : Decoder) (c : CodeAcc) (ph : Phase) (cw : CodeWord) :
    (Decoder.dispatch { d with ca := c, phase := ph } cw).endDispatch = (d.dispatch cw).endDispatch := by
  rw [dispatch_eq, dispatch_eq d]
  rfl

/-- Settles O8: a placed command is the oldest access; a placed code word is dispatched and its
dispatch ended. -/
theorem placedWordRunsNext : Obligations.PlacedWordRunsNext := by
  intro s i
  cases hf : i.format with
  | cmd32 => exact step_command (s.withFetchWord_command i) (decodeCommand_commandWord hf)
  | cw10 =>
    obtain ⟨cw, henc, rfl⟩ := exists_codeWord hf
    refine ⟨_, exec_decodeCode cw _, ?_⟩
    have hdacc : (s.withFetchWord 16 cw.toNat).dec.ca.dacc = cw :=
      (BitVec.ofNat_toNat 10 cw).trans (BitVec.setWidth_eq cw)
    have hend := s.dec.endDispatch_dispatch (s.withFetchWord 16 cw.toNat).dec.ca .dispatch cw
    rw [henc, step_dispatch rfl rfl, hdacc, exec_decodeCode]
    exact congrArg (fun d : Decoder => Host.Outcome.next { s with rst := false, dec := d }) hend

/-! ### The checks of a write of `CMD` -/

theorem fetch_commandAccess {s : State} {rest : List Access} {w : Word} (h : s.First (commandAccess w) rest) :
    fetch s = writeCommand w { s with pending := rest } := by
  have ha : (commandAccess w).inInterface = true := (Access.inInterface_iff _).mpr ⟨rfl, rfl, Nat.zero_le _⟩
  rw [h.fetch_eq, performAccess, if_pos ha]
  rfl

/-- A reserved word sets ERR_CMD of the engine ENG names and has no other effect (R113). -/
theorem step_reserved {s : State} {rest : List Access} {w : Word} (h : s.First (commandAccess w) rest)
    (hw : Reserved w) : step s = .next (State.setFlag { s with pending := rest } (errCmdOf (commandEngine w))) := by
  obtain ⟨e, he⟩ := decodeCommand_reserved hw
  simp only [step, fetch_commandAccess h, writeCommand, he]

/-- A word that is neither reserved nor INIT is its engine's BYTE or END (R112, R113). -/
theorem decodeCommand_of_not_init {w : Word} (hw : ¬Reserved w) (hop : commandOp w ≠ 0b001#3) :
    decodeCommand w = .ok (if commandOp w = 0b010#3 then byteOf (commandEngine w) (commandData w)
      else endOf (commandEngine w) (commandData w)) := by
  rcases decodeCommand_of_op hw with ⟨h1, _⟩ | ⟨h2, hd⟩ | ⟨h3, hd⟩
  · exact absurd h1 hop
  · rw [hd, if_pos h2]
  · rw [hd, if_neg (by rw [h3]; decide)]

theorem decodeCommand_of_init {w : Word} (hw : ¬Reserved w) (hop : commandOp w = 0b001#3) :
    decodeCommand w = .ok (initOf (commandEngine w) (commandData w)) := by
  rcases decodeCommand_of_op hw with ⟨_, hd⟩ | ⟨h2, _⟩ | ⟨h3, _⟩
  · exact hd
  · exact absurd (hop.symm.trans h2) (by decide)
  · exact absurd (hop.symm.trans h3) (by decide)

/-- Settles O9: a reserved word decodes to nothing; any other is its engine's INIT, BYTE or END by OP, of which only INIT is
performed in DONE. -/
theorem commandCheckOrder : Obligations.CommandCheckOrder := by
  intro s rest w h
  dsimp only
  refine ⟨fun hw => ?_, fun hw he => ?_, fun hw he => ?_⟩
  · rw [step_reserved h hw, commandEngine]
    split <;> rfl
  · have henc : commandEngine w = .enc := by rw [commandEngine, he]; rfl
    refine ⟨fun hop => ?_, fun hop hr => ?_, fun hop _ => ?_⟩
    · rw [step_command h (decodeCommand_of_init hw hop), henc]; rfl
    · rw [step_command h (decodeCommand_of_not_init hw hop), henc]
      split
      · exact exec_encByte_done _ hr
      · exact exec_encEnd_done _ hr
    · rw [step_command h (decodeCommand_of_not_init hw hop), henc]; rfl
  · have hdec : commandEngine w = .dec := by rw [commandEngine, he]; rfl
    refine ⟨fun hop => ?_, fun hop hr => ?_, fun hop _ => ?_⟩
    · rw [step_command h (decodeCommand_of_init hw hop), hdec]; rfl
    · rw [step_command h (decodeCommand_of_not_init hw hop), hdec]
      split
      · exact exec_decByte_done _ hr
      · exact exec_decEnd_done _ hr
    · rw [step_command h (decodeCommand_of_not_init hw hop), hdec]; rfl

end Sys2Proof.Machine
end

section
/-! PROOF. Streams of code words: the bits of the packed bytes, what an encoding session emits and what a decoding session
makes of the bits it is fed (R104, R107, R151, R157, R224). -/

namespace Sys2Proof.Machine

/-! ### Bits of packed streams -/

/-- Element `s` of a concatenation of lists of `n` elements each is element `s mod n` of list `s div n`. -/
theorem getElem?_flatMap_of_range {α β : Type} {n : Nat} (hn : 0 < n) {f : α → List β} {g : α → Nat → β}
    (hf : ∀ a, f a = (List.range n).map (g a)) (l : List α) (s : Nat) :
    (l.flatMap f)[s]? = l[s / n]?.map fun a => g a (s % n) := by
  induction l generalizing s with
  | nil => simp
  | cons a l ih =>
    rw [List.flatMap_cons, List.getElem?_append, hf, List.length_map, List.length_range]
    split
    · next hs => simp [hs, Nat.div_eq_of_lt hs, Nat.mod_eq_of_lt hs]
    · next hs =>
      have hsn : s = s - n + n := by omega
      rw [ih, ← Nat.mod_eq_sub_mod (by omega), ← List.getElem?_cons_succ (a := a), ← Nat.add_div_right _ hn, ← hsn]

/-- Stream bit `s` is bit `7 - (s mod 8)` of packed byte `s div 8` (R104). -/
theorem getElem?_flatMap_byteBits (l : List Byte) (s : Nat) :
    (l.flatMap byteBits)[s]? = l[s / 8]?.map fun b => b.getLsbD (7 - s % 8) :=
  getElem?_flatMap_of_range (by decide) byteBits_eq l s

/-- Stream bit `s` is bit `9 - (s mod 10)` of code word `s div 10` (R104). -/
theorem getElem?_flatMap_codeBits (cws : List CodeWord) (s : Nat) :
    (cws.flatMap codeBits)[s]? = cws[s / 10]?.map fun cw => cw.getLsbD (9 - s % 10) :=
  getElem?_flatMap_of_range (by decide) codeBits_eq cws s

/-- Settles O40: the packed bytes have the code words' bits, with padding after them. -/
theorem streamBitMapping : Obligations.StreamBitMapping := by
  intro cws j i hj hi
  dsimp only
  rw [← getElem?_flatMap_byteBits, packStream, packBits_bits,
    List.getElem?_append_left (by rw [flatMap_codeBits_length]; omega), getElem?_flatMap_codeBits,
    show (10 * j + (9 - i)) / 10 = j by omega, show 9 - (10 * j + (9 - i)) % 10 = i by omega,
    List.getElem?_eq_getElem hj, Option.map_some]

/-! ### What an encoding session emits -/

/-- After PackFlush the bits packed since the bytes `o` are emitted in packed form, whole bytes (R104, R183). -/
theorem Encoder.packFlush_out {e : Encoder} {o : List Byte} {bits : List Bool}
    (h : e.stream = o.flatMap byteBits ++ bits) : e.packFlush.out = o ++ packBits bits := by
  have hlen := e.stream_length
  rw [h, List.length_append, flatMap_byteBits_length] at hlen
  have hcnt := e.pk.cnt.isLt
  have hpad : (8 - e.pk.cnt.toNat) % 8 = (8 - bits.length % 8) % 8 := by omega
  have hflush := e.packFlush_stream
  have hbits : e.packFlush.pk.bits = [] := List.eq_nil_of_length_eq_zero (by simp)
  rw [Encoder.stream, hbits, List.append_nil, h, hpad, List.append_assoc, ← packBits_bits,
    ← List.flatMap_append] at hflush
  exact flatMap_byteBits_injective hflush

/-- ENCODE is a session of the encoder: INIT, the bytes fed, END (R116). -/
theorem Encoder.perform_encodeCommands (input : List Byte) (e : Encoder) :
    (encodeCommands input).foldl (fun e i => Encoder.perform i e) e = (e.init.feed input).finish := by
  obtain ⟨_, _, hfed⟩ := Encoder.feed_fed input e.Inv_init rfl
  rw [encodeCommands, List.foldl_append, List.foldl_cons]
  change Encoder.perform (.encEnd 0) ((input.map Instr.encByte).foldl _ e.init) = _
  rw [perform_encBytes input e.Inv_init rfl, perform_encEnd 0 hfed.run]

/-- A session appends the packed form of the code words of its decisions and, for the bytes left in the lookahead, literals
(R104, R151, R152). -/
theorem Encoder.finish_feed_out (e : Encoder) (input : List Byte) : ∃ cws,
    (e.init.feed input).finish.out = e.out ++ packStream cws ∧ cws.length ≤ input.length ∧
      (input.length < 16 → cws = input.map litCode) := by
  obtain ⟨cws, bytes, hfed⟩ := Encoder.feed_fed input e.Inv_init rfl
  obtain ⟨e', hcov, hfin⟩ := (e.init.feed input).finish_eq
  have hqueue : input = bytes ++ (e.init.feed input).la.contents := hfed.queue
  have hstream : e'.stream = e.out.flatMap byteBits
      ++ (cws ++ (e.init.feed input).la.contents.map litCode).flatMap codeBits := by
    have hinit : e.init.stream = e.out.flatMap byteBits := List.append_nil _
    rw [hcov.stream, hfed.stream, hinit, List.flatMap_append, List.append_assoc]
  refine ⟨_, (congrArg Encoder.out hfin).trans (packFlush_out hstream), ?_, fun hshort => ?_⟩
  · have hlen := congrArg List.length hqueue
    have hfewer := hfed.fewer
    rw [List.length_append] at hlen
    rw [List.length_append, List.length_map]
    omega
  · have hls : e.init.la.ls.toNat = 0 := rfl
    obtain ⟨hcws, hbytes⟩ := hfed.short (by omega)
    rw [hbytes, List.nil_append] at hqueue
    rw [hcws, List.nil_append, ← hqueue]

/-- Settles O42: the encoder of an ENCODE is that of a session, which ends in DONE. -/
theorem encoderEmitsPackedCodeWords : Obligations.EncoderEmitsPackedCodeWords := by
  intro s input
  obtain ⟨cws, hout, hlen, hshort⟩ := s.enc.finish_feed_out input
  refine ⟨_, cws, execAll_eq _ s, ?_, ?_, hlen, hshort⟩
  · dsimp only
    rw [Encoder.perform_encodeCommands]
    rfl
  · dsimp only
    rw [Encoder.perform_encodeCommands, hout]

/-! ### What a decoding session dispatches -/

/-- Instructions of the decoder leave the rest of the state alone (R20, R80). -/
theorem execAll_dec {is : List Instr} (his : ∀ i ∈ is, engineOf i = .dec) (s : State) :
    execAll is s = .next { s with dec := is.foldl (fun d i => Decoder.perform i d) s.dec } := by
  have hnone : is.filter (fun i => engineOf i = .enc) = [] :=
    List.filter_eq_nil_iff.mpr fun i hi => by simp [his i hi]
  rw [execAll_eq, ← Encoder.foldl_perform_filter, hnone, List.foldl_nil]

theorem engineOf_decodeCode (cw : CodeWord) : engineOf (decodeCode cw) = .dec := by
  unfold decodeCode
  split_ifs <;> rfl

theorem execAll_codeWords (cws : List CodeWord) (s : State) :
    execAll (cws.map decodeCode) s = .next { s with dec := s.dec.dispatchAll cws } := by
  have hdec : ∀ i ∈ cws.map decodeCode, engineOf i = .dec := by
    simp [engineOf_decodeCode]
  rw [execAll_dec hdec, Decoder.perform_codeWords]

theorem Decoder.foldl_acceptByte_run (d : Decoder) (packed : List Byte) :
    (packed.foldl Decoder.acceptByte d).run = d.run := by
  induction packed generalizing d with
  | nil => rfl
  | cons b packed ih =>
    obtain ⟨bytes, ca, ph, hframe⟩ := d.acceptByte_frame b
    rw [List.foldl_cons, ih, hframe]

/-- Bytes fed to a decoder in READY, and DEC.END (R211, R212). -/
theorem execAll_decBytes_end {s : State} (packed : List Byte) (x : Byte) (hr : s.dec.run = .ready) :
    execAll (packed.map .decByte ++ [.decEnd x]) s
      = .next { s with dec := (packed.foldl Decoder.acceptByte s.dec).finish } := by
  have hdec : ∀ i ∈ packed.map Instr.decByte ++ [.decEnd x], engineOf i = .dec := by
    simp [or_imp, forall_and, engineOf]
  have hrun : (packed.foldl Decoder.acceptByte s.dec).run = .ready := (s.dec.foldl_acceptByte_run packed).trans hr
  rw [execAll_dec hdec, List.foldl_append, Decoder.perform_decBytes packed hr, List.foldl_cons, List.foldl_nil,
    Decoder.perform_decEnd x hrun]

/-- Settles O53: from an empty accumulator the fed bytes dispatch the code words among their bits, and DEC.END empties the
accumulator of the others. -/
theorem decoderFraming : Obligations.DecoderFraming := by
  intro s packed cws rest hs hbits hrest
  have hr : s.dec.run = .ready := by rw [hs]; rfl
  have hph : s.dec.phase = .accumulating := by rw [hs]; rfl
  have hca : s.dec.ca = { dacc := 0, dcnt := 0 } := by rw [hs]; rfl
  have hcount : s.dec.inCount = 0 := by rw [hs]; rfl
  obtain ⟨ca', -, -, hfeed⟩ := s.dec.feed_eq packed cws rest hca hph hbits hrest
  refine ⟨_, _, execAll_decBytes_end packed 0 hr, execAll_codeWords cws s, ?_⟩
  obtain ⟨bytes, bad, hall⟩ := s.dec.dispatchAll_eq cws
  rw [hfeed, hall]
  simp [Decoder.finish, hca, hcount]

end Sys2Proof.Machine
end

section
/-! PROOF. The encoder's commands in any state: INIT, the sixteenth byte and its decision, the drain, and the rejection of
commands in DONE (40_encoder.md, 41_bit_packing.md section 1). -/

namespace Sys2Proof.Machine

/-! ### What a decision does -/

/-- A code word is packed and the `k` oldest bytes move from the lookahead to the window; nothing else changes but the packer
and the output (R148, R149). `Covers` without what a decoder makes of the code word, so of windows and lookaheads of any
size. -/
structure Encoder.Takes (e e' : Encoder) (cw : CodeWord) (k : Nat) : Prop where
  stream : e'.stream = e.stream ++ codeBits cw
  window : e'.ew = e.ew.appendAll (e.la.oldest k)
  lookahead : e'.la = e.la.popN k
  frame : Encoder.ActFrame e e'

theorem Encoder.literalAction_takes (e : Encoder) : e.Takes e.literalAction (litCode e.la.front) 1 := by
  have hpack := Encoder.packCode_frame { e with la := e.la.pop } (litCode e.la.front)
  have hstream := Encoder.packCode_stream { e with la := e.la.pop } (litCode e.la.front)
  have hframe := e.literalAction_frame
  unfold Encoder.literalAction at hframe ⊢
  dsimp only at hframe ⊢
  generalize Encoder.packCode { e with la := e.la.pop } (litCode e.la.front) = g at hpack hstream hframe ⊢
  refine ⟨hstream, ?_, ?_, hframe⟩
  · rw [Lookahead.oldest_succ]
    exact congrArg (Window.append · e.la.front) hpack.ew
  · exact hpack.la

theorem Encoder.matchAction_takes (e : Encoder) (L : CopyLength) (p : Nat) :
    e.Takes (e.matchAction L p) (copyCode L (BitVec.ofNat 8 p)) (copyBytes L) := by
  have hpack := e.packCode_frame (copyCode L (BitVec.ofNat 8 p))
  have hstream := e.packCode_stream (copyCode L (BitVec.ofNat 8 p))
  have hframe := e.matchAction_frame L p
  unfold Encoder.matchAction at hframe ⊢
  rw [Encoder.moveBytes_eq] at hframe ⊢
  generalize e.packCode (copyCode L (BitVec.ofNat 8 p)) = g at hpack hstream hframe ⊢
  refine ⟨hstream, ?_, ?_, hframe⟩
  · dsimp only
    rw [hpack.ew, hpack.la]
  · dsimp only
    rw [hpack.la]

/-- Every decision packs one code word, whose tag tells how many bytes leave the lookahead (R143, R150). -/
theorem Encoder.decision_takes (e : Encoder) : ∃ (tag : BitVec 2) (payload : Byte) (k : Nat),
    e.Takes e.decision (tag ++ payload) k ∧ (tag, k) ∈ [(0b00#2, 1), (0b01#2, 4), (0b10#2, 8), (0b11#2, 16)] := by
  rcases e.decision_cases with ⟨L, p, h, -, -⟩ | ⟨h, -⟩
  · refine ⟨copyTag L, BitVec.ofNat 8 p, copyBytes L, h ▸ e.matchAction_takes L p, ?_⟩
    cases L <;> decide
  · exact ⟨0b00#2, e.la.front, 1, h ▸ e.literalAction_takes, by decide⟩

theorem copyBytes_injective {L L' : CopyLength} (h : copyBytes L = copyBytes L') : L = L' := by
  revert h
  cases L <;> cases L' <;> decide

/-- The longest length that matches is taken, at its smallest index (R146, R147). -/
theorem Encoder.decision_eq_matchAction {e : Encoder} {L : CopyLength} {p : Nat} (hp : e.RunMatches (copyBytes L) p)
    (hmin : ∀ q < p, ¬e.RunMatches (copyBytes L) q)
    (hlonger : ∀ L', copyBytes L < copyBytes L' → ∀ q, ¬e.RunMatches (copyBytes L') q) :
    e.decision = e.matchAction L p := by
  have hsearch : e.search (copyBytes L) = some p := (e.search_eq_some _ p).mpr ⟨hp, hmin⟩
  rcases e.decision_cases with ⟨L', p', h, hsearch', hlonger'⟩ | ⟨-, hnone⟩
  · have hp' : e.RunMatches (copyBytes L') p' := ((e.search_eq_some _ p').mp hsearch').1
    have hle : ¬copyBytes L < copyBytes L' := fun hlt => hlonger L' hlt p' hp'
    have hge : ¬copyBytes L' < copyBytes L := fun hlt => hlonger' L hlt p hp
    obtain rfl : L = L' := copyBytes_injective (by omega)
    obtain rfl : p = p' := Option.some.inj (hsearch.symm.trans hsearch')
    exact h
  · exact absurd hp (hnone L p)

/-- A literal is taken when no length matches (R149). -/
theorem Encoder.decision_eq_literalAction {e : Encoder} (hnone : ∀ L q, ¬e.RunMatches (copyBytes L) q) :
    e.decision = e.literalAction := by
  rcases e.decision_cases with ⟨L, p, -, hsearch, -⟩ | ⟨h, -⟩
  · exact absurd ((e.search_eq_some _ p).mp hsearch).1 (hnone L p)
  · exact h

/-- A length and its tag as the rows of R148 pair them. -/
theorem exists_copyLength_of_mem {len : Nat} {tag : BitVec 2} (h : (len, tag) ∈ [(4, 0b01#2), (8, 0b10#2), (16, 0b11#2)]) :
    ∃ L, len = copyBytes L ∧ tag = copyTag L := by
  simp only [List.mem_cons, Prod.mk.injEq, List.not_mem_nil, or_false] at h
  rcases h with h | h | h
  · exact ⟨.four, h⟩
  · exact ⟨.eight, h⟩
  · exact ⟨.sixteen, h⟩

theorem copyBytes_mem (L : CopyLength) : copyBytes L ∈ [4, 8, 16] := by cases L <;> decide

/-! ### ENC.BYTE -/

/-- A byte that does not fill the lookahead is pushed and nothing is decided (R142). -/
theorem Encoder.acceptByte_of_ne {e : Encoder} (d : Byte) (h : e.la.ls.toNat ≠ 15) : e.acceptByte d = e.push d := by
  have hls : ¬(e.push d).la.ls.toNat = 16 := by
    change ¬(e.la.ls + 1).toNat = 16
    rw [BitVec.toNat_add, toNat_one5]
    omega
  exact if_neg hls

/-- The byte that fills the lookahead is pushed and a decision is made (R142). -/
theorem Encoder.acceptByte_of_eq {e : Encoder} (d : Byte) (h : e.la.ls.toNat = 15) :
    e.acceptByte d = (e.push d).decision := by
  have hls : (e.push d).la.ls.toNat = 16 := by rw [e.push_ls d (by omega), h]
  exact if_pos hls

/-- The lookahead once the sixteenth byte is in and `k` bytes have left (R69, R70). -/
theorem Lookahead.popN_push {l : Lookahead} (d : Byte) {k : Nat} (h : l.ls.toNat = 15) (hk : k ≤ 16) :
    (l.push d).popN k = { Q := l.Q.write l.wi.toNat d, ri := l.ri + BitVec.ofNat 4 k, wi := l.wi + 1,
                          ls := BitVec.ofNat 5 (16 - k) } := by
  have hpush : (l.push d).ls.toNat = 16 := by rw [l.push_ls_toNat d (by omega), h]
  have hls : ((l.push d).popN k).ls = BitVec.ofNat 5 (16 - k) := by
    apply BitVec.eq_of_toNat_eq
    rw [Lookahead.popN_ls _ k (by omega), BitVec.toNat_ofNat]
    omega
  rw [← hls]
  rfl

/-- Settles O31: below the sixteenth byte `acceptByte` is `push`. -/
theorem encByteAccumulates : Obligations.EncByteAccumulates := by
  intro s d hr hls
  rw [exec_encByte_ready d hr, Encoder.acceptByte_of_ne d (by omega)]
  rfl

/-- Settles O32: the decision is the match action of that length and index. -/
theorem encByteTakesMatch : Obligations.EncByteTakesMatch := by
  intro s d len p tag hr hls e hmem hp hmin hlonger
  obtain ⟨L, rfl, rfl⟩ := exists_copyLength_of_mem hmem
  have hL := copyBytes_mem L
  have hdec : e.decision = e.matchAction L p := by
    refine Encoder.decision_eq_matchAction hp hmin fun L' hlt => hlonger (copyBytes L') ?_ hlt
    cases L' with
    | four => cases L <;> simp at hlt
    | eight | sixteen => decide
  have htakes := e.matchAction_takes L p
  refine ⟨_, exec_encByte_ready d hr, rfl, ?_⟩
  rw [Encoder.acceptByte_of_eq d hls, hdec]
  refine ⟨htakes.stream, htakes.window, ?_, htakes.frame.inCount, htakes.frame.run.trans hr, htakes.frame.errSeq,
    htakes.frame.errCmd⟩
  rw [htakes.lookahead]
  exact Lookahead.popN_push d hls (by cases L <;> decide)

/-- Settles O33: the decision is the literal action. -/
theorem encByteTakesLiteral : Obligations.EncByteTakesLiteral := by
  intro s d hr hls e hnone
  have hdec : e.decision = e.literalAction :=
    Encoder.decision_eq_literalAction fun L => hnone (copyBytes L) (copyBytes_mem L)
  have htakes := e.literalAction_takes
  rw [Lookahead.front_eq_peek] at htakes
  refine ⟨_, exec_encByte_ready d hr, rfl, ?_⟩
  rw [Encoder.acceptByte_of_eq d hls, hdec]
  refine ⟨htakes.stream, htakes.window, ?_, htakes.frame.inCount, htakes.frame.run.trans hr, htakes.frame.errSeq,
    htakes.frame.errCmd⟩
  rw [htakes.lookahead]
  exact Lookahead.popN_push d hls (by decide)

/-- Settles O34: below the sixteenth byte the byte is pushed; at the sixteenth one decision follows. -/
theorem oneDecisionPerByte : Obligations.OneDecisionPerByte := by
  intro s d hr _
  refine ⟨_, exec_encByte_ready d hr, fun hlt => ?_, fun hls => ?_⟩
  · rw [Encoder.acceptByte_of_ne d (by omega)]
    exact ⟨rfl, s.enc.push_ls d (by omega)⟩
  · obtain ⟨tag, payload, k, htakes, hk⟩ := (s.enc.push d).decision_takes
    refine ⟨tag, payload, ?_⟩
    rw [Encoder.acceptByte_of_eq d hls]
    refine ⟨htakes.stream, ?_⟩
    have hpush := s.enc.push_ls d (by omega)
    simp only [List.mem_cons, Prod.mk.injEq, List.not_mem_nil, or_false] at hk
    rcases hk with ⟨rfl, rfl⟩ | ⟨rfl, rfl⟩ | ⟨rfl, rfl⟩ | ⟨rfl, rfl⟩
    all_goals
      rw [htakes.lookahead, Lookahead.popN_ls _ _ (by omega), hpush, hls]
      rfl

/-- ENC.BYTE leaves of the lookahead's storage what the push leaves (R69, R70). -/
theorem Encoder.acceptByte_Q (e : Encoder) (d : Byte) : (e.acceptByte d).la.Q = e.la.Q.write e.la.wi.toNat d := by
  by_cases hls : e.la.ls.toNat = 15
  · obtain ⟨tag, payload, k, htakes, -⟩ := (e.push d).decision_takes
    rw [acceptByte_of_eq d hls, htakes.lookahead]
    rfl
  · rw [acceptByte_of_ne d hls]
    rfl

/-- The decision on a full lookahead appends to the window as many bytes as leave the lookahead (R148, R149). -/
theorem Encoder.acceptByte_ew {e : Encoder} (d : Byte) (hls : e.la.ls.toNat = 15) :
    (e.acceptByte d).ew = e.ew.appendAll ((e.push d).la.oldest (16 - (e.acceptByte d).la.ls.toNat)) := by
  obtain ⟨tag, payload, k, htakes, hk⟩ := (e.push d).decision_takes
  have hk16 : k ≤ 16 := by
    simp only [List.mem_cons, Prod.mk.injEq, List.not_mem_nil, or_false] at hk
    omega
  have hpush := e.push_ls d (by omega)
  have hleft : 16 - (e.push d).decision.la.ls.toNat = k := by
    rw [htakes.lookahead, Lookahead.popN_ls _ _ (by omega)]
    omega
  rw [acceptByte_of_eq d hls, hleft, htakes.window]
  rfl

/-- Settles O58: the push writes slot `wi`, and the window changes by appends of the bytes that leave. -/
theorem encByteStorageFrame : Obligations.EncByteStorageFrame := by
  intro s t d a h hr
  rw [exec_encByte_ready d hr] at h
  cases h
  have hframe := s.enc.acceptByte_frame d
  refine ⟨rfl, ?_, fun hls => ?_, fun hls ha => ?_, hframe.run, hframe.errSeq, hframe.errCmd⟩
  · rw [Encoder.acceptByte_Q, Memory.read_write_eq]
  · rw [Encoder.acceptByte_of_ne d hls]
    rfl
  · rw [Encoder.acceptByte_ew d hls]
    exact Window.appendAll_read_ne _ _ a (by rwa [Lookahead.oldest_length])

/-! ### ENC.END -/

theorem Encoder.finish_la (e : Encoder) : e.finish.la = e.la.popN e.la.ls.toNat := by
  obtain ⟨e', hcov, hfin⟩ := e.finish_eq
  rw [hfin, ← e.la.contents_length, ← hcov.lookahead]
  exact e'.packFlush_frame.la

theorem Encoder.finish_ew (e : Encoder) : e.finish.ew = e.ew.appendAll e.la.contents := by
  obtain ⟨e', hcov, hfin⟩ := e.finish_eq
  rw [hfin, ← hcov.window]
  exact e'.packFlush_frame.ew

theorem Encoder.finish_cnt (e : Encoder) : e.finish.pk.cnt = 0 := Encoder.packFlush_pk _

/-- The drain emits the pending bits and the literals in packed form, whole bytes (R152, R183). -/
theorem Encoder.finish_out (e : Encoder) :
    e.finish.out = e.out ++ packBits (e.pk.bits ++ (e.la.contents.map litCode).flatMap codeBits) := by
  obtain ⟨e', hcov, hfin⟩ := e.finish_eq
  rw [hfin]
  refine packFlush_out ?_
  rw [hcov.stream, Encoder.stream, List.append_assoc]

/-- The bits of all bytes emitted once the session has ended: the stream, the literals and zero padding (R152, R183). -/
theorem Encoder.finish_out_bits (e : Encoder) :
    e.finish.out.flatMap byteBits = e.stream ++ (e.la.contents.map litCode).flatMap codeBits
      ++ List.replicate ((8 - (e.pk.cnt.toNat + 10 * e.la.ls.toNat) % 8) % 8) false := by
  rw [finish_out, List.flatMap_append, packBits_bits, List.length_append, Packer.bits_length, flatMap_codeBits_length,
    List.length_map, Lookahead.contents_length, Encoder.stream]
  simp only [List.append_assoc]

/-- A bit that leaves no bit pending has just emitted a byte and cleared the accumulator (R180). -/
theorem Encoder.packBit_acc (e : Encoder) (x : Bool) (h : (e.packBit x).pk.cnt = 0) : (e.packBit x).pk.acc = 0 := by
  unfold Encoder.packBit at h ⊢
  dsimp only at h ⊢
  split at h
  · next h8 => rw [if_pos h8]
  · next h8 =>
    have hcnt := congrArg BitVec.toNat h
    have hlt := e.pk.cnt.isLt
    rw [BitVec.toNat_add, show BitVec.toNat (1 : BitVec 3) = 1 from rfl] at hcnt
    change (e.pk.cnt.toNat + 1) % 8 = 0 at hcnt
    change ¬e.pk.cnt.toNat + 1 = 8 at h8
    omega

theorem Encoder.packCode_acc (e : Encoder) (cw : CodeWord) (h : (e.packCode cw).pk.cnt = 0) :
    (e.packCode cw).pk.acc = 0 := by
  have hlast : codeBits cw = (codeBits cw).dropLast ++ [cw.getLsbD 0] := rfl
  unfold Encoder.packCode at h ⊢
  rw [hlast, List.foldl_append, List.foldl_cons, List.foldl_nil] at h ⊢
  exact packBit_acc _ _ h

theorem Encoder.literalAction_acc (e : Encoder) (h : e.literalAction.pk.cnt = 0) : e.literalAction.pk.acc = 0 := by
  have hacc := Encoder.packCode_acc { e with la := e.la.pop } (litCode e.la.front)
  unfold Encoder.literalAction at h ⊢
  dsimp only at h ⊢
  generalize Encoder.packCode { e with la := e.la.pop } (litCode e.la.front) = g at hacc h ⊢
  exact hacc h

/-- A drain of at least one byte that leaves no bit pending leaves the accumulator clear (R180, R152). -/
theorem Encoder.drain_acc {k : Nat} (hk : 0 < k) (e : Encoder) (h : (Encoder.drain k e).pk.cnt = 0) :
    (Encoder.drain k e).pk.acc = 0 := by
  induction k generalizing e with
  | zero => cases hk
  | succ k ih =>
    cases k with
    | zero => exact e.literalAction_acc h
    | succ k => exact ih (Nat.succ_pos k) e.literalAction h

theorem Encoder.packFlush_acc {e : Encoder} (h : e.pk.cnt = 0 → e.pk.acc = 0) : e.packFlush.pk.acc = 0 := by
  unfold Encoder.packFlush
  split
  · rfl
  · next hcnt => exact h (BitVec.eq_of_toNat_eq (Nat.eq_zero_of_not_pos hcnt))

/-- A session that ends with something pending ends with a clear accumulator (R183). -/
theorem Encoder.finish_acc {e : Encoder} (h : 0 < e.pk.cnt.toNat + e.la.ls.toNat) : e.finish.pk.acc = 0 := by
  refine packFlush_acc fun hcnt => ?_
  rcases Nat.eq_zero_or_pos e.la.ls.toNat with hls | hls
  · rw [hls] at hcnt
    have hzero : e.pk.cnt.toNat = 0 := congrArg BitVec.toNat hcnt
    omega
  · exact drain_acc hls e hcnt

/-- A session that ends with nothing pending only ends (R184). -/
theorem Encoder.finish_of_nothing_pending {e : Encoder} (h : e.pk.cnt.toNat + e.la.ls.toNat = 0) :
    e.finish = { e with run := .done } := by
  have hls : e.la.ls.toNat = 0 := by omega
  have hflush : e.packFlush = e := if_neg (by omega)
  unfold Encoder.finish
  rw [hls, Encoder.drain, hflush]

/-- Settles O36: the drain covers the lookahead by literals, and PackFlush pads the rest. -/
theorem encEndDrains : Obligations.EncEndDrains := by
  intro s d hr
  obtain ⟨e', hframe, hfin⟩ := s.enc.finish_frame
  refine ⟨_, exec_encEnd_ready d hr, rfl, rfl, s.enc.finish_cnt, ?_, ?_, ?_, ?_, s.enc.finish_ew, ?_, s.enc.finish_inCount,
    (congrArg Encoder.errSeq hfin).trans hframe.errSeq, (congrArg Encoder.errCmd hfin).trans hframe.errCmd,
    Encoder.finish_acc, fun hnone => ?_⟩
  · rw [s.enc.finish_la]
    apply BitVec.eq_of_toNat_eq
    rw [Lookahead.popN_ls _ _ (Nat.le_refl _), Nat.sub_self]
    rfl
  · rw [s.enc.finish_la]; rfl
  · rw [s.enc.finish_la]; rfl
  · rw [s.enc.finish_la]; rfl
  · rw [s.enc.finish_out_bits, List.flatMap_map]
    rfl
  · rw [Encoder.finish_of_nothing_pending hnone]
    exact ⟨rfl, rfl, rfl⟩

/-- Settles O59: the pops leave the lookahead's storage alone, and the window changes by appends of its bytes. -/
theorem encEndStorageFrame : Obligations.EncEndStorageFrame := by
  intro s t d a h hr
  rw [exec_encEnd_ready d hr] at h
  cases h
  dsimp only
  rw [s.enc.finish_la, s.enc.finish_ew, Window.appendAll_wp, Lookahead.contents_length]
  refine ⟨rfl, fun ha => ?_, rfl⟩
  exact Window.appendAll_read_ne _ _ a (by rwa [Lookahead.contents_length])

/-! ### INIT and DONE -/

/-- Settles O29: the meanings of INIT, and the rows of their command words. -/
theorem initResult : Obligations.InitResult := fun s d =>
  ⟨exec_encInit d s, exec_decInit d s, Memory.read_nil, encode_eq_tableRow (.encInit d), encode_eq_tableRow (.decInit d)⟩

/-- Settles O30: in DONE, BYTE and END set the flag. -/
theorem doneRejectsByteAndEnd : Obligations.DoneRejectsByteAndEnd := fun _ d =>
  ⟨fun hr => ⟨exec_encByte_done d hr, exec_encEnd_done d hr⟩, fun hr => ⟨exec_decByte_done d hr, exec_decEnd_done d hr⟩⟩

end Sys2Proof.Machine
end

section
/-! PROOF. The decoder's side of bit packing: a byte that completes no code word, a byte that completes one, and the bits
DEC.END discards (R185, R186, R188, R211, R212). -/

namespace Sys2Proof.Machine

/-- Settles O43: the meaning of DEC.END in each run state, and the row of its command word. -/
theorem decEndResult : Obligations.DecEndResult := fun _ d =>
  ⟨encode_eq_tableRow (.decEnd d), exec_decEnd_ready d, exec_decEnd_done d⟩

/-! ### A byte that completes no code word -/

/-- With at most one bit held, none of the eight bits is a tenth bit (R185). -/
theorem Decoder.acceptByte_short {d : Decoder} (b : Byte) (h : d.ca.dcnt.toNat ≤ 1) :
    d.acceptByte b = { d with
      inCount := d.inCount + 1
      ca := { dacc := (d.ca.dacc <<< 8) ||| b.setWidth 10, dcnt := d.ca.dcnt + 8 } } := by
  have hnone : ∀ j < (byteBits b).length, (d.ca.dcnt.toNat + j + 1) % 16 ≠ 10 := by
    rw [byteBits_length]
    omega
  have hall := d.ca.shift_take b 8 le_rfl
  rw [List.take_of_length_le (Nat.le_of_eq (byteBits_length b)), Nat.sub_self, BitVec.ushiftRight_zero] at hall
  rw [acceptByte_eq, feedBits_shift _ _ hnone, hall]
  rfl

/-- Settles O44: DEC.BYTE in READY counts the byte and shifts in its bits. -/
theorem decByteAccumulates : Obligations.DecByteAccumulates := by
  intro s b hr h
  rw [exec_decByte_ready b hr, Decoder.acceptByte_short b h]

/-! ### A byte that completes a code word -/

/-- Bits of which the last is the tenth dispatch the code word they complete, whatever the phase before (R186). -/
theorem Decoder.feedBits_tenth {bits : List Bool} {d : Decoder} (h : d.ca.dcnt.toNat + bits.length = 10)
    (hpos : 0 < bits.length) :
    d.feedBits bits = (d.dispatch (bits.foldl CodeAcc.shift d.ca).dacc).endDispatch := by
  induction bits generalizing d with
  | nil => cases hpos
  | cons x bits ih =>
    rw [List.length_cons] at h
    rw [feedBits, List.foldl_cons, List.foldl_cons]
    by_cases h9 : d.ca.dcnt.toNat = 9
    · obtain rfl : bits = [] := List.eq_nil_of_length_eq_zero (by omega)
      exact shiftBit_tenth d x h9
    · have hshift := d.ca.shift_dcnt x (by omega)
      rw [shiftBit_short d x (by omega)]
      refine (ih (d := { d with ca := d.ca.shift x }) (by dsimp only; omega) (by omega)).trans ?_
      exact endDispatch_dispatch d _ d.phase _

/-- The bits of a byte after its `k` highest are the highest bits of the byte shifted left by `k`. -/
theorem drop_byteBits (b : Byte) {k : Nat} (hk : k ≤ 8) : (byteBits b).drop k = (byteBits (b <<< k)).take (8 - k) := by
  refine List.ext_getElem (by simp) fun i hi _ => ?_
  rw [List.length_drop, byteBits_length] at hi
  simp only [byteBits_eq, List.getElem_drop, List.getElem_take, List.getElem_map, List.getElem_range,
    BitVec.getLsbD_shiftLeft]
  rw [show 8 - 1 - (k + i) = 8 - 1 - i - k by omega]
  simp only [show 8 - 1 - i < 8 by omega, show ¬8 - 1 - i < k by omega, decide_true, decide_false, Bool.not_false,
    Bool.true_and]

/-- The low bits of a byte shifted into an empty accumulator are held as a number (R28, R185). -/
theorem CodeAcc.shift_drop (b : Byte) {k : Nat} (hk : k ≤ 8) :
    ((byteBits b).drop k).foldl CodeAcc.shift { dacc := 0, dcnt := 0 }
      = { dacc := BitVec.ofNat 10 (b.toNat % 2 ^ (8 - k)), dcnt := BitVec.ofNat 4 (8 - k) } := by
  have hlow : ((b <<< k) >>> k).toNat = b.toNat % 2 ^ (8 - k) := by
    have hpow : 2 ^ 8 = 2 ^ (8 - k) * 2 ^ k := by rw [← Nat.pow_add, Nat.sub_add_cancel hk]
    rw [BitVec.toNat_ushiftRight, BitVec.toNat_shiftLeft, Nat.shiftLeft_eq, Nat.shiftRight_eq_div_pow, hpow,
      Nat.mul_mod_mul_right, Nat.mul_div_cancel _ (Nat.two_pow_pos k)]
  rw [drop_byteBits b hk, shift_take _ _ _ (Nat.sub_le 8 k), Nat.sub_sub_self hk, ← hlow, BitVec.ofNat_toNat]
  simp only [BitVec.ofNat_eq_ofNat, BitVec.zero_shiftLeft, BitVec.zero_or, BitVec.zero_add]

/-- A byte whose `k` highest bits complete a code word dispatches it with the byte counted, and then holds the byte's other
bits (R185, R186). -/
theorem Decoder.acceptByte_completes {d : Decoder} (b : Byte) {k : Nat} (hph : d.phase = .accumulating)
    (h : d.ca.dcnt.toNat + k = 10) (h1 : 1 ≤ k) (h8 : k ≤ 8) :
    d.acceptByte b = { Decoder.dispatch { d with inCount := d.inCount + 1 }
        ((d.ca.dacc <<< k) ||| (b >>> (8 - k)).setWidth 10) with
      ca := { dacc := BitVec.ofNat 10 (b.toNat % 2 ^ (8 - k)), dcnt := BitVec.ofNat 4 (8 - k) } } := by
  have hlen : ((byteBits b).take k).length = k := by rw [List.length_take, byteBits_length, Nat.min_eq_left h8]
  have hrest : ∀ j < ((byteBits b).drop k).length, (0 + j + 1) % 16 ≠ 10 := by
    rw [List.length_drop, byteBits_length]
    omega
  have hfirst := feedBits_tenth (bits := (byteBits b).take k) (d := { d with inCount := d.inCount + 1 })
    (by rwa [hlen]) (by rwa [hlen])
  rw [CodeAcc.shift_take _ _ _ h8] at hfirst
  calc d.acceptByte b
      = (Decoder.feedBits { d with inCount := d.inCount + 1 } ((byteBits b).take k)).feedBits ((byteBits b).drop k) := by
        rw [← feedBits_append, List.take_append_drop]
        rfl
    _ = _ := by
        rw [hfirst, feedBits_shift _ _ hrest, endDispatch_ca, CodeAcc.shift_drop b h8, endDispatch, dispatch_eq, ← hph]

/-- Settles O45: the completed code word's meaning is its dispatch. -/
theorem decByteDispatches : Obligations.DecByteDispatches := by
  intro s b k hr hph h h1 h8
  refine ⟨_, _, decode_cw10_toNat _, exec_decodeCode _ _, ?_⟩
  rw [exec_decByte_ready b hr, Decoder.acceptByte_completes b hph h h1 h8]

end Sys2Proof.Machine
end

section
/-! PROOF. The dispatch of code words: what LIT and the copies output, what they and DEC.BYTE leave alone, where the policy
`fault` would stop, and which streams are well-formed (R211, R213 to R220). -/

namespace Sys2Proof.Machine

/-! ### What a code word outputs -/

/-- Settles O47: LIT outputs its byte. -/
theorem litResult : Obligations.LitResult := fun _ v => ⟨(encode_eq_tableRow (.lit v)).trans (Nat.zero_or _), rfl⟩

/-- The slot a back-reference starts reading at is `p` slots after the oldest entry's (R63, R215). -/
theorem startSlot_eq (w : Window) (p : Byte) : startSlot w p = w.wp - w.n.setWidth 8 + p := by
  rw [startSlot, Window.slot, Window.oldest, BitVec.ofNat_toNat, BitVec.setWidth_eq]

/-- Each of the three copy instructions is the code word of a copy length (R101, R103). -/
theorem exists_copyCode_of_mem {p : Byte} {len tag : Nat} {i : Instr}
    (h : (len, tag, i) ∈ [(4, 0b01, .copy4 p), (8, 0b10, .copy8 p), (16, 0b11, .copy16 p)]) :
    ∃ L, len = copyBytes L ∧ tag = (copyTag L).toNat ∧ i = decodeCode (copyCode L p) := by
  simp only [decodeCode_copyCode]
  simp only [List.mem_cons, Prod.mk.injEq, List.not_mem_nil, or_false] at h
  rcases h with h | h | h
  · exact ⟨.four, h⟩
  · exact ⟨.eight, h⟩
  · exact ⟨.sixteen, h⟩

/-- Decoding a code word loses none of its bits (R100, R101). -/
theorem encode_decodeCode (cw : CodeWord) : encode (decodeCode cw) = cw.toNat := by
  rw [encode, fields_decodeCode]
  exact congrArg BitVec.toNat (CodeFields.word_fields cw)

/-- Settles O49: the bytes a copy outputs are read one by one, each after the earlier ones have been appended. -/
theorem copyResult : Obligations.CopyResult := by
  intro s p len tag i hi
  obtain ⟨L, rfl, rfl, rfl⟩ := exists_copyCode_of_mem hi
  refine ⟨?_, copiedBytes (copyBytes L) (startSlot s.dec.dw p) s.dec.dw, copiedBytes_length _ _ _, ?_, fun k hk => ?_⟩
  · rw [encode_decodeCode, copyCode, Laws.encode_code, Nat.mul_comm]
  · rw [exec_decodeCode, Decoder.dispatch_copyCode, Decoder.copy_update, malformed]
  · rw [copiedBytes_getElem, startSlot_eq]

/-! ### What is left alone -/

/-- Each instruction of a code word is the dispatch of a word that outputs as many bytes as listed, whatever the window (R214
to R218). -/
theorem exists_codeBytes_of_mem {p : Byte} {len : Nat} {i : Instr}
    (h : (len, i) ∈ [(1, .lit p), (4, .copy4 p), (8, .copy8 p), (16, .copy16 p)]) :
    ∃ cw, i = decodeCode cw ∧ ∀ w, (codeBytes cw w).length = len := by
  have hcopy (L : CopyLength) (w : Window) : (codeBytes (copyCode L p) w).length = copyBytes L := by
    cases L <;> simp [codeBytes, copyCode, copyTag]
  simp only [List.mem_cons, Prod.mk.injEq, List.not_mem_nil, or_false] at h
  rcases h with ⟨rfl, rfl⟩ | ⟨rfl, rfl⟩ | ⟨rfl, rfl⟩ | ⟨rfl, rfl⟩
  · exact ⟨litCode p, (decodeCode_litCode p).symm, fun w => by simp [codeBytes, litCode]⟩
  · exact ⟨copyCode .four p, (decodeCode_copyCode .four p).symm, hcopy .four⟩
  · exact ⟨copyCode .eight p, (decodeCode_copyCode .eight p).symm, hcopy .eight⟩
  · exact ⟨copyCode .sixteen p, (decodeCode_copyCode .sixteen p).symm, hcopy .sixteen⟩

/-- Settles O57: a dispatch appends its bytes to the window, and appends write from `wp` on. -/
theorem codeWordStorageFrame : Obligations.CodeWordStorageFrame := by
  intro s t p len i a hi h
  obtain ⟨cw, rfl, hlen⟩ := exists_codeBytes_of_mem hi
  rw [exec_decodeCode, Decoder.dispatch_eq] at h
  cases h
  rw [← hlen s.dec.dw]
  exact ⟨rfl, Window.appendAll_wp _ _, Window.appendAll_read_ne _ _ a⟩

/-- Settles O60: in READY the byte is counted, and the bytes it emits are appended to the window. -/
theorem decByteStorageFrame : Obligations.DecByteStorageFrame := by
  intro s t b a h hr
  obtain ⟨bytes, ca, ph, hframe⟩ := s.dec.acceptByte_frame b
  rw [exec_decByte_ready b hr, hframe] at h
  cases h
  refine ⟨rfl, rfl, rfl, rfl, rfl, fun ha => Window.appendAll_read_ne _ bytes a fun j hj => ha j ?_⟩
  simpa using hj

/-! ### The policy for malformed references (R219, D13) -/

/-- Under `fault` a step stops exactly if it dispatches a malformed reference (R219). -/
theorem underPolicy_fault {bad : Bool} {P : Prop} (hbad : bad = true ↔ P) (t : State) :
    (P → underPolicy .fault bad t = .fault .malformedRef) ∧ (¬P → underPolicy .fault bad t = .next t) := by
  rw [← hbad]
  cases bad with
  | true => exact ⟨fun _ => rfl, fun h => absurd rfl h⟩
  | false => exact ⟨nofun, fun _ => rfl⟩

theorem execDecByteUnder_done {s : State} (policy : MalformedRefPolicy) (b : Byte) (h : s.dec.run = .done) :
    execDecByteUnder policy b s = .next (s.setFlag .decErrSeq) := by
  simp only [execDecByteUnder, h]

theorem execDecByteUnder_ready {s : State} (policy : MalformedRefPolicy) (b : Byte) (h : s.dec.run = .ready) :
    execDecByteUnder policy b s
      = underPolicy policy (s.dec.dispatchesMalformed b) { s with dec := s.dec.acceptByte b } := by
  simp only [execDecByteUnder, h]

/-- Each of the three copy instructions is the copy under the model's policy of the length it stands for (R216 to R218). -/
theorem exec_eq_execCopyUnder_of_mem {L : CopyLength} {len : Nat} {p : Byte} {i : Instr}
    (h : (L, len, i) ∈ [(.four, 4, .copy4 p), (.eight, 8, .copy8 p), (.sixteen, 16, .copy16 p)]) (s : State) :
    len = copyBytes L ∧ exec i s = execCopyUnder Config.malformedRefPolicy L p s := by
  simp only [List.mem_cons, Prod.mk.injEq, List.not_mem_nil, or_false] at h
  rcases h with ⟨rfl, rfl, rfl⟩ | ⟨rfl, rfl, rfl⟩ | ⟨rfl, rfl, rfl⟩ <;> exact ⟨rfl, rfl⟩

/-- Settles O51: what decides under `fault` is `p + L > DW.n`, of the copy itself or of the code word the byte completes. -/
theorem faultPolicyStopsOnlyAtMalformed : Obligations.FaultPolicyStopsOnlyAtMalformed := by
  constructor
  · intro L len p i s hi
    obtain ⟨rfl, hexec⟩ := exec_eq_execCopyUnder_of_mem hi s
    obtain ⟨hstop, hgo⟩ := underPolicy_fault (malformed_iff s.dec.dw L p) { s with dec := s.dec.copy L p }
    exact ⟨_, hexec, hexec, rfl, hstop, fun hle => hgo (Nat.not_lt.2 hle)⟩
  · intro b s
    cases hr : s.dec.run with
    | done =>
      exact ⟨_, exec_decByte_done b hr, rfl, execDecByteUnder_done _ b hr, nofun, fun _ => execDecByteUnder_done _ b hr⟩
    | ready =>
      obtain ⟨hstop, hgo⟩ := underPolicy_fault (s.dec.dispatchesMalformed_iff b) { s with dec := s.dec.acceptByte b }
      rw [← execDecByteUnder_ready _ b hr] at hstop hgo
      exact ⟨_, exec_decByte_ready b hr, rfl, execDecByteUnder_ready _ b hr, fun _ => hstop,
        fun h => hgo (h.resolve_left nofun)⟩

/-! ### Well-formed streams (R219, R220) -/

/-- DECODE of a stream: INIT, the bytes fed, and the end of the session (R210 to R212). -/
theorem execAll_decodeCommands (packed : List Byte) (s : State) :
    execAll (decodeCommands packed) s
      = .next { s with dec := (packed.foldl Decoder.acceptByte s.dec.init).finish } :=
  execAll_decBytes_end (s := { s with dec := s.dec.init }) packed 0 rfl

/-- INIT clears REF_OOR, so of the code words dispatched after it exactly a malformed one leaves it set (R210, R219). -/
theorem Decoder.dispatchAll_init_refOor (d e : Decoder) (cws : List CodeWord) :
    (d.init.dispatchAll cws).refOor = false ↔ Decoder.dispatchesWellFormed cws e.init = true :=
  (dispatchAll_refOor cws d.init e.init rfl).trans (and_iff_right rfl)

/-- A stream is well-formed exactly if its code words, dispatched from INIT, leave REF_OOR clear (R219, R220). -/
theorem wellFormedStream_iff_refOor (d : Decoder) {packed : List Byte} {cws : List CodeWord} {rest : List Bool}
    (hbits : packed.flatMap byteBits = cws.flatMap codeBits ++ rest) (hrest : rest.length < 10) :
    WellFormedStream packed = true ↔ (d.init.dispatchAll cws).refOor = false := by
  rw [WellFormedStream, hbits, codeGroups_eq cws rest hrest]
  exact (d.dispatchAll_init_refOor Decoder.reset cws).symm

/-- No dispatch of a list is malformed when none of its code words is one for the window the earlier ones leave (R219). -/
theorem Decoder.dispatchesWellFormed_iff (cws : List CodeWord) (d : Decoder) :
    Decoder.dispatchesWellFormed cws d = true ↔
      ∀ (j : Nat) (hj : j < cws.length), codeMalformed cws[j] (d.dispatchAll (cws.take j)).dw = false := by
  induction cws generalizing d with
  | nil => simp [dispatchesWellFormed]
  | cons cw cws ih =>
    rw [dispatchesWellFormed, Bool.and_eq_true, Bool.not_eq_true', ih]
    constructor
    · rintro ⟨hfirst, hlater⟩ j hj
      cases j with
      | zero => exact hfirst
      | succ j => exact hlater j (Nat.lt_of_succ_lt_succ hj)
    · intro h
      exact ⟨h 0 (Nat.zero_lt_succ _), fun j hj => h (j + 1) (Nat.succ_lt_succ hj)⟩

theorem codeMalformed_eq_false_iff (cw : CodeWord) (w : Window) : codeMalformed cw w = false ↔
    ∀ (len : Nat) (p : Byte), (len, decodeCode cw) ∈ [(4, .copy4 p), (8, .copy8 p), (16, .copy16 p)] →
      p.toNat + len ≤ w.n.toNat := by
  simp only [Bool.eq_false_iff, ne_eq, codeMalformed_iff, not_exists, not_and, Nat.not_lt]

/-- Code words as instructions after DEC.INIT (R107, R210, R213). -/
theorem execAll_decInit_codeWords (x : Byte) (cws : List CodeWord) (s : State) :
    execAll (.decInit x :: cws.map decodeCode) s = .next { s with dec := s.dec.init.dispatchAll cws } :=
  execAll_codeWords cws { s with dec := s.dec.init }

/-- Settles O52: only the dispatches of the stream's code words can set REF_OOR, and each does exactly if its reference is
malformed. -/
theorem wellFormedStreamsRaiseNoFlag : Obligations.WellFormedStreamsRaiseNoFlag := by
  constructor
  · intro s packed
    obtain ⟨cws, rest, hbits, hrest⟩ := exists_codeWords (packed.flatMap byteBits)
    obtain ⟨ca, -, -, hfeed⟩ := s.dec.init.feed_eq packed cws rest rfl rfl hbits hrest
    refine ⟨_, execAll_decodeCommands packed s, ?_⟩
    rw [hfeed]
    exact (wellFormedStream_iff_refOor s.dec hbits hrest).symm
  · intro s x packed cws rest hbits hrest
    rw [wellFormedStream_iff_refOor s.dec hbits hrest, Decoder.dispatchAll_init_refOor s.dec s.dec,
      Decoder.dispatchesWellFormed_iff]
    simp only [codeMalformed_eq_false_iff, execAll_decInit_codeWords, Host.Outcome.next.injEq]
    constructor
    · rintro h j hj len p u hmem rfl
      exact h j hj len p hmem
    · intro h j hj len p hmem
      exact h j hj len p _ hmem rfl

end Sys2Proof.Machine
end

section
/-! PROOF. Errors and idling: what sets each flag, that every instruction leaves both engines to INIT, and a step with
nothing to do (R30, R250, R251, R261). -/

namespace Sys2Proof.Machine

/-! ### The flags of the encoder after an instruction -/

theorem Encoder.acceptByte_errSeq (e : Encoder) (b : Byte) : (e.acceptByte b).errSeq = e.errSeq :=
  (e.acceptByte_frame b).errSeq

theorem Encoder.acceptByte_errCmd (e : Encoder) (b : Byte) : (e.acceptByte b).errCmd = e.errCmd :=
  (e.acceptByte_frame b).errCmd

theorem Encoder.finish_errSeq (e : Encoder) : e.finish.errSeq = e.errSeq := by
  obtain ⟨e', h, heq⟩ := e.finish_frame
  rw [heq]
  exact h.errSeq

theorem Encoder.finish_errCmd (e : Encoder) : e.finish.errCmd = e.errCmd := by
  obtain ⟨e', h, heq⟩ := e.finish_frame
  rw [heq]
  exact h.errCmd

/-- The encoder's flags after an instruction: ERR_SEQ is set by BYTE and END in DONE, ERR_CMD by none, and INIT clears both
(R30, R113, R251). -/
theorem Encoder.perform_flags (i : Instr) (e : Encoder) :
    ((e.perform i).errSeq = true ↔ isInitOf i .enc = false ∧
      (e.errSeq = true ∨ e.run = .done ∧ ((∃ d, i = .encByte d) ∨ ∃ d, i = .encEnd d))) ∧
    ((e.perform i).errCmd = true ↔ isInitOf i .enc = false ∧ e.errCmd = true) := by
  cases i with
  | encInit d => simp [perform, init, isInitOf]
  | encByte d =>
    cases hr : e.run with
    | ready => simp [perform_encByte d hr, acceptByte_errSeq, acceptByte_errCmd, isInitOf]
    | done => simp [perform_encByte_done d hr, isInitOf]
  | encEnd d =>
    cases hr : e.run with
    | ready => simp [perform_encEnd d hr, finish_errSeq, finish_errCmd, isInitOf]
    | done => simp [perform_encEnd_done d hr, isInitOf]
  | lit _ | copy4 _ | copy8 _ | copy16 _ | decInit _ | decByte _ | decEnd _ => simp [perform, isInitOf]

/-! ### The flags of the decoder after an instruction -/

theorem Decoder.acceptByte_errSeq (d : Decoder) (b : Byte) : (d.acceptByte b).errSeq = d.errSeq := by
  obtain ⟨bytes, ca, ph, h⟩ := d.acceptByte_frame b
  rw [h]

theorem Decoder.acceptByte_errCmd (d : Decoder) (b : Byte) : (d.acceptByte b).errCmd = d.errCmd := by
  obtain ⟨bytes, ca, ph, h⟩ := d.acceptByte_frame b
  rw [h]

/-- An accepted DEC.BYTE sets REF_OOR exactly if the code word it completes is malformed (R186, R219). -/
theorem Decoder.acceptByte_refOor (d : Decoder) (b : Byte) :
    (d.acceptByte b).refOor = true ↔ d.refOor = true ∨ d.CompletesMalformed b := by
  obtain ⟨bytes, ca, ph, h⟩ := d.acceptByte_frame b
  rw [h, Bool.or_eq_true, dispatchesMalformed_iff]

theorem Decoder.copy_errSeq (d : Decoder) (L : CopyLength) (p : Byte) : (d.copy L p).errSeq = d.errSeq := by
  rw [copy_update]

theorem Decoder.copy_errCmd (d : Decoder) (L : CopyLength) (p : Byte) : (d.copy L p).errCmd = d.errCmd := by
  rw [copy_update]

/-- A copy sets REF_OOR exactly if `p + L > DW.n` (R219). -/
theorem Decoder.copy_refOor (d : Decoder) (L : CopyLength) (p : Byte) :
    (d.copy L p).refOor = true ↔ d.refOor = true ∨ d.dw.n.toNat < p.toNat + copyBytes L := by
  rw [copy_update, Bool.or_eq_true, malformed_iff]

/-- The decoder's flags after an instruction: ERR_SEQ is set by BYTE and END in DONE, ERR_CMD by none, REF_OOR by a malformed
back-reference, whether it is a copy or completed by a DEC.BYTE in READY, and INIT clears all three (R30, R113, R251). -/
theorem Decoder.perform_flags (i : Instr) (d : Decoder) :
    ((d.perform i).errSeq = true ↔ isInitOf i .dec = false ∧
      (d.errSeq = true ∨ d.run = .done ∧ ((∃ b, i = .decByte b) ∨ ∃ x, i = .decEnd x))) ∧
    ((d.perform i).errCmd = true ↔ isInitOf i .dec = false ∧ d.errCmd = true) ∧
    ((d.perform i).refOor = true ↔ isInitOf i .dec = false ∧ (d.refOor = true ∨
      (∃ p, i = .copy4 p ∧ d.dw.n.toNat < p.toNat + 4) ∨ (∃ p, i = .copy8 p ∧ d.dw.n.toNat < p.toNat + 8) ∨
      (∃ p, i = .copy16 p ∧ d.dw.n.toNat < p.toNat + 16) ∨
      ∃ b, i = .decByte b ∧ d.run = .ready ∧ d.CompletesMalformed b)) := by
  cases i with
  | decInit x => simp [perform, init, isInitOf]
  | decByte b =>
    cases hr : d.run with
    | ready => simp [perform_decByte b hr, acceptByte_errSeq, acceptByte_errCmd, acceptByte_refOor, isInitOf]
    | done => simp [perform_decByte_done b hr, isInitOf]
  | decEnd x =>
    cases hr : d.run with
    | ready => simp [perform_decEnd x hr, finish, isInitOf]
    | done => simp [perform_decEnd_done x hr, isInitOf]
  | copy4 _ | copy8 _ | copy16 _ => simp [perform, copy_errSeq, copy_errCmd, copy_refOor, isInitOf]
  | lit _ => simp [perform, lit, isInitOf]
  | encInit _ | encByte _ | encEnd _ => simp [perform, isInitOf]

/-- Settles O25: each flag is that of its engine's `perform`. -/
theorem flagCauses : Obligations.FlagCauses := by
  intro i s t h
  rw [exec_eq] at h
  cases h
  obtain ⟨heseq, hecmd⟩ := s.enc.perform_flags i
  exact ⟨heseq, hecmd, s.dec.perform_flags i⟩

/-! ### Going on and holding still -/

/-- Settles O19: without reset, dispatch or access, `fetch` finds nothing to perform. -/
theorem idleHoldsState : Obligations.IdleHoldsState := by
  rintro s ⟨hr, hp, hq⟩
  simp only [step, fetch, hr, hp, hq, Bool.false_eq_true, if_false]

/-- Settles O20: every instruction answers a next state, and INIT gives its result in every state. -/
theorem everyInstructionGoesOn : Obligations.EveryInstructionGoesOn := by
  intro i s
  refine ⟨_, exec_eq i s, fun d => ?_⟩
  obtain ⟨henc, hdec, -⟩ := initResult { s with enc := s.enc.perform i, dec := s.dec.perform i } d
  exact ⟨henc, hdec⟩

end Sys2Proof.Machine
end

section
/-! PROOF. The reset input: the engines it leaves and the accesses it discards (R280). -/

namespace Sys2Proof.Machine

@[simp] theorem State.hardReset_pending (s : State) :
    s.hardReset.pending = s.pending.filter fun a => !a.isCommand := rfl

/-- The reset input discards the commands not yet performed and no other access (R280, log entry 2). -/
theorem State.mem_hardReset_pending {s : State} {a : Access} :
    a ∈ s.hardReset.pending ↔ a ∈ s.pending ∧ a.isCommand = false := by
  rw [hardReset_pending, List.mem_filter, Bool.not_eq_true']

/-- Settles O18: INIT and the reset input both replace an engine by its `init`. -/
theorem resetInput : Obligations.ResetInput := by
  intro s hr
  refine ⟨s.hardReset, step_rst hr, fun d u v henc hdec => ?_, s.enc.init_eq, s.dec.init_eq,
    fun a ha => (State.mem_hardReset_pending.mp ha).2⟩
  rw [exec_encInit] at henc
  rw [exec_decInit] at hdec
  cases henc
  cases hdec
  exact ⟨s.hardReset_enc, s.hardReset_dec⟩

end Sys2Proof.Machine
end

section
/-! PROOF. What every step keeps: the between-command invariants, the parity of the pending bits, and that it sets at most
one flag (R46, R183, R187, R253). -/

namespace Sys2Proof.Machine

/-! ### What a step does to the engines -/

/-- The engines a step can lead to (R113, R185, R253, R280): `StepCase` without the port. -/
inductive EngineStep (s : State) : Encoder → Decoder → Prop where
  | held : EngineStep s s.enc s.dec
  | reset : EngineStep s s.enc.init s.dec.init
  | reserved (g : Engine) : EngineStep s (s.setFlag (errCmdOf g)).enc (s.setFlag (errCmdOf g)).dec
  | codeWord (h : s.dec.phase = .dispatch) : EngineStep s s.enc (s.dec.dispatch s.dec.ca.dacc).endDispatch
  | command (i : Instr) : EngineStep s (s.enc.perform i) (s.dec.perform i)

theorem engineStep_of_step {s t : State} (h : step s = .next t) : EngineStep s t.enc t.dec := by
  have hcase := step_cases s
  generalize step s = o at hcase h
  cases hcase with
  | reset => cases h; exact .reset
  | codeWord _ hp => cases h; exact .codeWord hp
  | idle | read | ignored => cases h; exact .held
  | outside => cases h
  | reserved _ _ _ rest w =>
    cases h
    cases commandEngine w with
    | enc => exact .reserved .enc
    | dec => exact .reserved .dec
  | command _ _ _ _ _ i =>
    rw [exec_eq] at h
    cases h
    exact .command i

/-! ### The between-command invariants -/

/-- Every instruction keeps what holds of the encoder between commands (R46). -/
theorem Encoder.Inv_perform (i : Instr) {e : Encoder} (h : e.Inv) : (e.perform i).Inv := by
  cases i with
  | encInit d => exact e.Inv_init
  | encByte d =>
    cases hr : e.run with
    | ready => rw [perform_encByte d hr]; exact Inv_acceptByte d h hr
    | done => rw [perform_encByte_done d hr]; exact h
  | encEnd d =>
    cases hr : e.run with
    | ready => rw [perform_encEnd d hr]; exact Inv_finish h
    | done => rw [perform_encEnd_done d hr]; exact h
  | lit _ | copy4 _ | copy8 _ | copy16 _ | decInit _ | decByte _ | decEnd _ => exact h

/-- Every instruction keeps what holds of the decoder between commands (R46). -/
theorem Decoder.Inv_perform (i : Instr) {d : Decoder} (h : d.Inv) : (d.perform i).Inv := by
  have hlit (v : Byte) : (d.lit v).Inv := d.dispatch_litCode v ▸ Inv_dispatch _ h
  have hcopy (L : CopyLength) (p : Byte) : (d.copy L p).Inv := d.dispatch_copyCode L p ▸ Inv_dispatch _ h
  cases i with
  | lit v => exact hlit v
  | copy4 p => exact hcopy .four p
  | copy8 p => exact hcopy .eight p
  | copy16 p => exact hcopy .sixteen p
  | decInit x => exact d.Inv_init
  | decByte b =>
    cases hr : d.run with
    | ready => rw [perform_decByte b hr]; exact Inv_acceptByte b h hr
    | done => rw [perform_decByte_done b hr]; exact h
  | decEnd x =>
    cases hr : d.run with
    | ready => rw [perform_decEnd x hr]; exact Inv_finish h
    | done => rw [perform_decEnd_done x hr]; exact h
  | encInit _ | encByte _ | encEnd _ => exact h

/-- Settles O21: an engine is kept, initialised, flagged or performs an instruction; between commands no dispatch is in
progress. -/
theorem stepKeepsInv : Obligations.StepKeepsInv := by
  rintro s ⟨e, d, _, _, _⟩ ⟨henc, hdec⟩ h
  cases engineStep_of_step h with
  | held => exact ⟨henc, hdec⟩
  | reset => exact ⟨s.enc.Inv_init, s.dec.Inv_init⟩
  | reserved g => cases g <;> exact ⟨henc, hdec⟩
  | codeWord hp =>
    obtain ⟨-, -, hph, -⟩ := hdec
    exact absurd (hph.symm.trans hp) (by decide)
  | command i => exact ⟨Encoder.Inv_perform i henc, Decoder.Inv_perform i hdec⟩

/-- Settles O22: each engine's invariant holds at its reset value. -/
theorem resetMeetsInv : Obligations.ResetMeetsInv := ⟨Encoder.Inv_reset, Decoder.reset.Inv_init⟩

/-! ### The numbers of pending bits -/

/-- Packing whole code words keeps the parity of the packer's count (R183). -/
theorem Encoder.cnt_parity_of_stream {e e' : Encoder} {cws : List CodeWord}
    (h : e'.stream = e.stream ++ cws.flatMap codeBits) : e'.pk.cnt.toNat % 2 = e.pk.cnt.toNat % 2 := by
  have hlen := congrArg List.length h
  rw [List.length_append, flatMap_codeBits_length, stream_length, stream_length] at hlen
  omega

/-- Every instruction keeps the number of the packer's pending bits even (R183). -/
theorem Encoder.cnt_even_perform (i : Instr) {e : Encoder} (h : e.Inv) (heven : e.pk.cnt.toNat % 2 = 0) :
    (e.perform i).pk.cnt.toNat % 2 = 0 := by
  cases i with
  | encInit d => rfl
  | encByte d =>
    cases hr : e.run with
    | ready =>
      obtain ⟨cws, bytes, hfed⟩ := acceptByte_fed d h hr
      rw [perform_encByte d hr, cnt_parity_of_stream hfed.stream, heven]
    | done => rw [perform_encByte_done d hr, heven]
  | encEnd d =>
    cases hr : e.run with
    | ready => rw [perform_encEnd d hr, finish_cnt]; rfl
    | done => rw [perform_encEnd_done d hr, heven]
  | lit _ | copy4 _ | copy8 _ | copy16 _ | decInit _ | decByte _ | decEnd _ => exact heven

/-- Every instruction keeps the number of accumulated bits even (R187). -/
theorem Decoder.dcnt_even_perform (i : Instr) {d : Decoder} (h : d.Inv) (heven : d.ca.dcnt.toNat % 2 = 0) :
    (d.perform i).ca.dcnt.toNat % 2 = 0 := by
  have hcopy (L : CopyLength) (p : Byte) : (d.copy L p).ca.dcnt.toNat % 2 = 0 := by rw [copy_update, heven]
  cases i with
  | lit v => exact heven
  | copy4 p => exact hcopy .four p
  | copy8 p => exact hcopy .eight p
  | copy16 p => exact hcopy .sixteen p
  | decInit x => rfl
  | decByte b =>
    cases hr : d.run with
    | ready =>
      obtain ⟨-, hca, hph, -⟩ := h
      obtain ⟨cws, ca, -, -, -, hdcnt, haccept⟩ := d.acceptByte_cases b hca hph
      rw [perform_decByte b hr, haccept, hdcnt]
      omega
    | done => rw [perform_decByte_done b hr, heven]
  | decEnd x =>
    cases hr : d.run with
    | ready => rw [perform_decEnd x hr]; rfl
    | done => rw [perform_decEnd_done x hr, heven]
  | encInit _ | encByte _ | encEnd _ => exact heven

/-- Settles O23: code words are packed whole, ten bits each, and a byte leaves `(ACC_BITS + 8) mod 10` bits. -/
theorem pendingBitsStayEven : Obligations.PendingBitsStayEven := by
  refine ⟨⟨rfl, rfl⟩, ?_⟩
  rintro s ⟨e, d, _, _, _⟩ ⟨henc, hdec⟩ ⟨hcnt, hdcnt⟩ h
  cases engineStep_of_step h with
  | held => exact ⟨hcnt, hdcnt⟩
  | reset => exact ⟨rfl, rfl⟩
  | reserved g => cases g <;> exact ⟨hcnt, hdcnt⟩
  | codeWord => exact ⟨hcnt, rfl⟩
  | command i => exact ⟨Encoder.cnt_even_perform i henc hcnt, Decoder.dcnt_even_perform i hdec hdcnt⟩

/-! ### Flags -/

/-- The only flag an instruction can set: ERR_SEQ of the engine that rejects it, or REF_OOR (R226, R253). -/
theorem exec_raises {i : Instr} {s t : State} (h : exec i s = .next t) :
    ∃ r, ∀ f, t.flag f = true → s.flag f = true ∨ f = r := by
  obtain ⟨-, hecmd⟩ := s.enc.perform_flags i
  obtain ⟨hdseq, hdcmd, -⟩ := s.dec.perform_flags i
  cases hi : engineOf i with
  | enc =>
    obtain rfl := exec_enc_next hi h
    refine ⟨.encErrSeq, fun f hf => ?_⟩
    cases f with
    | encErrSeq => exact .inr rfl
    | encErrCmd => exact .inl (hecmd.mp hf).2
    | decErrSeq | decErrCmd | decRefOor => exact .inl hf
  | dec =>
    obtain rfl := exec_dec_next hi h
    by_cases hrej : s.dec.run = .done ∧ ((∃ b, i = .decByte b) ∨ ∃ x, i = .decEnd x)
    · refine ⟨.decErrSeq, fun f hf => ?_⟩
      have hset : s.dec.perform i = { s.dec with errSeq := true } := by
        obtain ⟨hr, ⟨b, rfl⟩ | ⟨x, rfl⟩⟩ := hrej
        · exact Decoder.perform_decByte_done b hr
        · exact Decoder.perform_decEnd_done x hr
      rw [hset] at hf
      cases f with
      | decErrSeq => exact .inr rfl
      | encErrSeq | encErrCmd | decErrCmd | decRefOor => exact .inl hf
    · refine ⟨.decRefOor, fun f hf => ?_⟩
      cases f with
      | decRefOor => exact .inr rfl
      | decErrSeq => exact .inl ((hdseq.mp hf).2.resolve_right hrej)
      | decErrCmd => exact .inl (hdcmd.mp hf).2
      | encErrSeq | encErrCmd => exact .inl hf

/-- A step sets at most one flag (R253). -/
theorem step_raises {s t : State} (h : step s = .next t) : ∃ r, ∀ f, t.flag f = true → s.flag f = true ∨ f = r := by
  have hcase := step_cases s
  generalize step s = o at hcase h
  cases hcase with
  | reset =>
    cases h
    exact ⟨.encErrSeq, fun f hf => by cases f <;> cases hf⟩
  | codeWord =>
    cases h
    refine ⟨.decRefOor, fun f hf => ?_⟩
    rw [Decoder.dispatch_eq] at hf
    cases f with
    | decRefOor => exact .inr rfl
    | encErrSeq | encErrCmd | decErrSeq | decErrCmd => exact .inl hf
  | idle | read | ignored =>
    cases h
    exact ⟨.encErrSeq, fun f hf => .inl hf⟩
  | outside => cases h
  | reserved _ _ _ rest w =>
    cases h
    refine ⟨errCmdOf (commandEngine w), fun f hf => ?_⟩
    rw [State.setFlag_flag] at hf
    split at hf
    · next hfr => exact .inr hfr
    · exact .inl hf
  | command _ _ _ rest => exact exec_raises (s := { s with pending := rest }) h

/-! ### The code word a byte completes -/

/-- Between commands a byte completes one code word if with it there are ten bits, and none otherwise (R185 to R187). -/
theorem Decoder.acceptByte_one {d : Decoder} (b : Byte) (hca : d.ca.Inv) (hph : d.phase = .accumulating) :
    ∃ ca : CodeAcc, ca.dcnt.toNat = (d.ca.dcnt.toNat + 8) % 10 ∧
      ((d.ca.dcnt.toNat + 8 < 10 ∧ d.acceptByte b = { d with ca := ca, inCount := d.inCount + 1 }) ∨
       (10 ≤ d.ca.dcnt.toNat + 8 ∧ ∃ cw, d.acceptByte b = { d.dispatch cw with ca := ca, inCount := d.inCount + 1 })) := by
  obtain ⟨cws, ca, -, -, hlen, hdcnt, haccept⟩ := d.acceptByte_cases b hca hph
  obtain ⟨hmax, -⟩ := hca
  refine ⟨ca, hdcnt, ?_⟩
  rcases Nat.lt_or_ge (d.ca.dcnt.toNat + 8) 10 with hlt | hge
  · obtain rfl : cws = [] := List.eq_nil_of_length_eq_zero (by omega)
    exact .inl ⟨hlt, haccept⟩
  · obtain ⟨cw, rfl⟩ := List.length_eq_one_iff.mp (show cws.length = 1 by omega)
    exact .inr ⟨hge, cw, haccept⟩

/-- A malformed back-reference outputs as many bytes as any other (R219). -/
theorem codeBytes_length_of_malformed {cw : CodeWord} {w : Window} (h : codeMalformed cw w = true) :
    (codeBytes cw w).length ∈ [4, 8, 16] := by
  unfold codeMalformed at h
  unfold codeBytes
  split_ifs at h ⊢ <;> simp

/-- Settles O10: a step has one flag it may set, and REF_OOR is set by a dispatch, which outputs the bytes of its copy. -/
theorem noCommandSetsTwoFlags : Obligations.NoCommandSetsTwoFlags := by
  constructor
  · intro s t f g h hf hf' hg hg'
    obtain ⟨r, hr⟩ := step_raises h
    exact ((hr f hf').resolve_left (by simp [hf])).trans ((hr g hg').resolve_left (by simp [hg])).symm
  · intro s t b hinv hr h hclear hset
    obtain ⟨-, hca, hph, -⟩ := hinv
    rw [exec_decByte_ready b hr] at h
    cases h
    obtain ⟨ca, -, ⟨-, haccept⟩ | ⟨-, cw, haccept⟩⟩ := Decoder.acceptByte_one b hca hph
    · rw [haccept] at hset
      exact absurd hset (by simp [hclear])
    · rw [haccept, Decoder.dispatch_eq] at hset ⊢
      refine ⟨codeBytes cw s.dec.dw, rfl, codeBytes_length_of_malformed ?_⟩
      simpa [hclear] using hset

end Sys2Proof.Machine
end

section
/-! PROOF. The decoder's side of packed streams: how many bytes a byte emits, how long a packed stream is, and that its
padding forms no code word (R105, R106, R187, R189). -/

namespace Sys2Proof.Machine

/-! ### Bytes fed from INIT -/

/-- Bytes fed after DEC.INIT (R210, R211). -/
theorem execAll_decInit_decBytes (x : Byte) (packed : List Byte) (s : State) :
    execAll (.decInit x :: packed.map .decByte) s
      = .next { s with dec := packed.foldl Decoder.acceptByte s.dec.init } := by
  have hdec : ∀ i ∈ Instr.decInit x :: packed.map .decByte, engineOf i = .dec := by simp [engineOf]
  rw [execAll_dec hdec, List.foldl_cons, ← Decoder.perform_decBytes packed (d := s.dec.init) rfl]
  rfl

theorem Decoder.acceptByte_run (d : Decoder) (b : Byte) : (d.acceptByte b).run = d.run := by
  obtain ⟨bytes, ca, ph, hframe⟩ := d.acceptByte_frame b
  rw [hframe]

theorem Decoder.Inv_foldl_acceptByte (packed : List Byte) {d : Decoder} (h : d.Inv) (hr : d.run = .ready) :
    (packed.foldl Decoder.acceptByte d).Inv := by
  induction packed generalizing d with
  | nil => exact h
  | cons b packed ih =>
    rw [List.foldl_cons]
    exact ih (Inv_acceptByte b h hr) ((d.acceptByte_run b).trans hr)

/-- After `m` bytes from INIT, ACC_BITS is `8m mod 10` (R187). -/
theorem Decoder.foldl_acceptByte_init_dcnt (d : Decoder) (packed : List Byte) :
    (packed.foldl Decoder.acceptByte d.init).ca.dcnt.toNat = 8 * packed.length % 10 := by
  obtain ⟨cws, rest, hbits, hrest⟩ := exists_codeWords (packed.flatMap byteBits)
  obtain ⟨ca, -, hca, hfeed⟩ := d.init.feed_eq packed cws rest rfl rfl hbits hrest
  have hlen := congrArg List.length hbits
  rw [List.length_append, flatMap_byteBits_length, flatMap_codeBits_length] at hlen
  rw [hfeed]
  dsimp only
  rw [← CodeAcc.bits_length, hca]
  omega

/-- A byte fed between commands emits nothing below ten bits, and the 1, 4, 8 or 16 bytes of one code word from ten on
(R187). -/
theorem Decoder.acceptByte_emission {d : Decoder} (b : Byte) (h : d.Inv) : ∃ bytes,
    (d.acceptByte b).out = d.out ++ bytes ∧ (d.acceptByte b).ca.dcnt.toNat = (d.ca.dcnt.toNat + 8) % 10 ∧
      (d.ca.dcnt.toNat + 8 < 10 → bytes.length = 0) ∧ (10 ≤ d.ca.dcnt.toNat + 8 → bytes.length ∈ [1, 4, 8, 16]) := by
  obtain ⟨-, hca, hph, -⟩ := h
  obtain ⟨ca, hdcnt, ⟨hlt, haccept⟩ | ⟨hge, cw, haccept⟩⟩ := acceptByte_one b hca hph
  · rw [haccept]
    exact ⟨[], (List.append_nil _).symm, hdcnt, fun _ => rfl, fun hge => absurd hlt (by omega)⟩
  · rw [haccept, dispatch_eq]
    exact ⟨codeBytes cw d.dw, rfl, hdcnt, fun hlt => absurd hlt (by omega), fun _ => by simpa using codeBytes_length cw d.dw⟩

/-- Settles O46: a byte emits what the code word it completes outputs, and from INIT the bits count in tens. -/
theorem decByteEmission : Obligations.DecByteEmission := by
  constructor
  · intro s b h hr
    have hexec := exec_decByte_ready b hr
    obtain ⟨bytes, hemit⟩ := Decoder.acceptByte_emission b h
    generalize s.dec.acceptByte b = d at hexec hemit
    exact ⟨_, bytes, hexec, hemit⟩
  · intro s x packed b
    have hfed := execAll_decInit_decBytes x packed s
    have hr := s.dec.init.foldl_acceptByte_run packed
    have hinv := Decoder.Inv_foldl_acceptByte packed s.dec.Inv_init rfl
    have hdcnt := s.dec.foldl_acceptByte_init_dcnt packed
    generalize packed.foldl Decoder.acceptByte s.dec.init = d at hfed hr hinv hdcnt
    obtain ⟨bytes, hout, -, hnone, hsome⟩ := Decoder.acceptByte_emission b hinv
    refine ⟨_, _, hfed, hdcnt, exec_decByte_ready b hr, ?_⟩
    dsimp only
    rw [hout, List.length_append, Nat.lt_add_right_iff_pos]
    rw [hdcnt] at hnone hsome
    rcases Nat.lt_or_ge (8 * packed.length % 10 + 8) 10 with hlt | hge
    · have := hnone hlt
      omega
    · have hpos : 0 < bytes.length := by
        have := hsome hge
        simp at this
        omega
      omega

/-! ### Packed code words -/

/-- The bits of a packed stream are its code words' bits and fewer than eight zeros (R105, R106). -/
theorem packStream_bits (cws : List CodeWord) : (packStream cws).flatMap byteBits
    = cws.flatMap codeBits ++ List.replicate ((8 - 10 * cws.length % 8) % 8) false := by
  rw [packStream, packBits_bits, flatMap_codeBits_length]

/-- Settles O41: ten bits a code word, padded to whole bytes. -/
theorem streamLengthAndPadding : Obligations.StreamLengthAndPadding := by
  intro cws
  refine ⟨?_, packStream_bits cws, ?_⟩
  · rw [packStream, packBits_length, flatMap_codeBits_length]
  · simp only [List.mem_cons, List.not_mem_nil, or_false]
    omega

/-- A packed stream fed from INIT: its code words are dispatched, and the padding stays in the accumulator (R107, R189). -/
theorem Decoder.feed_packStream (d : Decoder) (cws : List CodeWord) : ∃ ca : CodeAcc, ca.Inv ∧
    ca.bits = List.replicate ((8 - 10 * cws.length % 8) % 8) false ∧
    (packStream cws).foldl Decoder.acceptByte d.init
      = { d.init.dispatchAll cws with ca := ca, inCount := BitVec.ofNat 32 (packStream cws).length } := by
  have hpad : (8 - 10 * cws.length % 8) % 8 < 10 := by omega
  obtain ⟨ca, hinv, hbits, hfeed⟩ := d.init.feed_eq (packStream cws) cws _ rfl rfl (packStream_bits cws) (by simpa using hpad)
  exact ⟨ca, hinv, hbits, by rw [hfeed]; simp [Decoder.init]⟩

/-- An accumulator whose bits are zeros holds the number 0 (R28, R46). -/
theorem CodeAcc.dacc_eq_zero {c : CodeAcc} {n : Nat} (h : c.Inv) (hbits : c.bits = List.replicate n false) : c.dacc = 0 := by
  obtain ⟨-, hlt⟩ := h
  apply BitVec.eq_of_getLsbD_eq
  intro i _
  simp only [BitVec.ofNat_eq_ofNat, BitVec.getLsbD_zero]
  rcases Nat.lt_or_ge i c.dcnt.toNat with hi | hi
  · have hmem : c.dacc.getLsbD i ∈ c.bits :=
      List.mem_map.mpr ⟨c.dcnt.toNat - 1 - i, List.mem_range.mpr (by omega), by congr 1; omega⟩
    exact List.eq_of_mem_replicate (hbits ▸ hmem)
  · exact Nat.testBit_lt_two_pow (Nat.lt_of_lt_of_le hlt (Nat.pow_le_pow_right (by decide) hi))

/-- Settles O54: the padding is fewer than ten bits, all zero. -/
theorem paddingFormsNoCodeWord : Obligations.PaddingFormsNoCodeWord := by
  intro s x cws
  obtain ⟨ca, hinv, hbits, hfeed⟩ := s.dec.feed_packStream cws
  refine ⟨_, _, execAll_decInit_decBytes x _ s, execAll_decInit_codeWords x cws s, ?_⟩
  rw [hfeed]
  refine ⟨rfl, rfl, rfl, rfl, CodeAcc.dacc_eq_zero hinv hbits, ?_⟩
  rw [← CodeAcc.bits_length, hbits, List.length_replicate]

end Sys2Proof.Machine
end

section
/-! PROOF. What the encoder packs and emits: valid references, output bounds, the account of the accepted bytes, and that
nothing emitted earlier plays a part (R47, R154 to R156). -/

namespace Sys2Proof.Machine

/-! ### References -/

theorem copyTag_injective {L L' : CopyLength} (h : copyTag L = copyTag L') : L = L' := by
  revert h
  cases L <;> cases L' <;> decide

theorem copyTag_ne_zero (L : CopyLength) : copyTag L ≠ 0b00#2 := by cases L <;> decide

theorem four_le_copyBytes (L : CopyLength) : 4 ≤ copyBytes L := by cases L <;> decide

/-- A code word has one tag and one payload (R100). -/
theorem CodeFields.word_injective {c c' : CodeFields} (h : c.word = c'.word) : c = c' := by
  have htag := congrArg codeTag h
  have hpayload := congrArg codePayload h
  rw [codeTag_word, codeTag_word] at htag
  rw [codePayload_word, codePayload_word] at hpayload
  cases c
  cases c'
  exact (CodeFields.mk.injEq ..).mpr ⟨htag, hpayload⟩

/-- An ENC.BYTE that packs a code word packs the one of a decision (R142). -/
theorem Encoder.acceptByte_eq_decision {e : Encoder} {d : Byte} {cw : CodeWord}
    (h : (e.acceptByte d).stream = e.stream ++ codeBits cw) : e.acceptByte d = (e.push d).decision := by
  by_cases hls : e.la.ls.toNat = 15
  · exact acceptByte_of_eq d hls
  · rw [acceptByte_of_ne d hls] at h
    have hlen := congrArg List.length (List.self_eq_append_right.mp h)
    cases hlen

/-- Settles O35: the code word is a decision's; a literal has another tag, and the search answers matches inside the
window. -/
theorem emittedReferencesAreValid : Obligations.EmittedReferencesAreValid := by
  intro s t d len tag p hr hn h hmem hstream
  obtain ⟨L, rfl, rfl⟩ := exists_copyLength_of_mem hmem
  rw [exec_encByte_ready d hr] at h
  cases h
  have hdec := Encoder.acceptByte_eq_decision hstream
  dsimp only at hstream
  rw [hdec] at hstream
  have hpack {e' : Encoder} {c : CodeFields} {k : Nat} (heq : (s.enc.push d).decision = e')
      (htakes : (s.enc.push d).Takes e' c.word k) : c = ⟨copyTag L, p⟩ := by
    rw [heq, htakes.stream] at hstream
    exact CodeFields.word_injective (codeBits_injective (List.append_cancel_left hstream))
  rcases (s.enc.push d).decision_cases with ⟨L', q, heq, hsearch, -⟩ | ⟨heq, -⟩
  · have hfields := hpack heq ((s.enc.push d).matchAction_takes L' q)
    obtain ⟨htag, rfl⟩ := CodeFields.mk.inj hfields
    obtain rfl := copyTag_injective htag
    obtain ⟨⟨hq, -⟩, -⟩ := ((s.enc.push d).search_eq_some _ q).mp hsearch
    have hfit : q + copyBytes L' ≤ s.enc.ew.n.toNat := hq
    have hfour := four_le_copyBytes L'
    rw [BitVec.toNat_ofNat]
    omega
  · have hfields := hpack heq (s.enc.push d).literalAction_takes
    exact absurd (congrArg CodeFields.tag hfields).symm (copyTag_ne_zero L)

/-! ### How much is emitted -/

/-- The bytes emitted for a code word: the pending bits and ten more, in eights (R180, R181). -/
theorem Encoder.emitted_length {e e' : Encoder} {bytes : List Byte} {bits : List Bool} (hout : e'.out = e.out ++ bytes)
    (hstream : e'.stream = e.stream ++ bits) : 8 * bytes.length + e'.pk.cnt.toNat = e.pk.cnt.toNat + bits.length := by
  have hlen := congrArg List.length hstream
  rw [List.length_append, stream_length, stream_length, hout, List.length_append] at hlen
  omega

/-- Settles O37: ENC.BYTE packs ten bits or none; ENC.END packs ten for each of at most fifteen bytes, and pads. -/
theorem encoderOutputBounds : Obligations.EncoderOutputBounds := by
  intro s d hr hls
  constructor
  · obtain ⟨bytes, hout, -⟩ := (s.enc.acceptByte_frame d).emitted
    refine ⟨_, bytes, exec_encByte_ready d hr, hout, fun hlt => ?_, fun heq => ?_⟩
    · rw [Encoder.acceptByte_of_ne d (by omega)] at hout
      exact congrArg List.length (List.self_eq_append_right.mp hout)
    · obtain ⟨tag, payload, k, htakes, -⟩ := (s.enc.push d).decision_takes
      rw [Encoder.acceptByte_of_eq d heq] at hout
      have hcount := Encoder.emitted_length hout htakes.stream
      have hcnt := (s.enc.push d).pk.cnt.isLt
      have hcnt' := (s.enc.push d).decision.pk.cnt.isLt
      rw [codeBits_length] at hcount
      omega
  · refine ⟨_, _, exec_encEnd_ready d hr, s.enc.finish_out, ?_⟩
    have hcnt := s.enc.pk.cnt.isLt
    rw [packBits_length, List.length_append, Packer.bits_length, flatMap_codeBits_length, List.length_map,
      Lookahead.contents_length]
    omega

/-! ### Sessions -/

/-- ENC.INIT and bytes fed (R140, R141). -/
theorem Encoder.perform_encInit_encBytes (x : Byte) (input : List Byte) (e : Encoder) :
    (Instr.encInit x :: input.map .encByte).foldl (fun e i => Encoder.perform i e) e = e.init.feed input := by
  rw [List.foldl_cons]
  exact perform_encBytes input e.Inv_init rfl

/-- Settles O38: the bytes that left the lookahead went to the window, which was empty at INIT. -/
theorem encoderAccountsForEveryByte : Obligations.EncoderAccountsForEveryByte := by
  intro s x input
  obtain ⟨cws, bytes, hfed⟩ := Encoder.feed_fed input s.enc.Inv_init rfl
  obtain ⟨-, ⟨-, hls, -⟩, -⟩ := hfed.inv
  have hqueue : input = bytes ++ (s.enc.init.feed input).la.contents := hfed.queue
  have hwindow : (s.enc.init.feed input).ew = Window.empty.appendAll bytes := hfed.window
  refine ⟨_, bytes, execAll_eq _ s, ?_⟩
  dsimp only
  rw [Encoder.perform_encInit_encBytes]
  refine ⟨hqueue, hwindow, ?_, hls, ?_⟩
  · rw [hwindow, Window.appendAll_n _ _ (by decide)]
    exact congrArg (min · 256) (Nat.zero_add _)
  · have hlen := congrArg List.length hqueue
    rw [List.length_append, Lookahead.contents_length] at hlen
    rw [hfed.inCount, hlen]
    exact BitVec.zero_add _

/-- INIT keeps of an encoder what it has emitted, and nothing else (R140). -/
theorem Encoder.init_eq_prependOut (e : Encoder) : e.init = Encoder.reset.prependOut e.out := by
  simp [init, reset, prependOut, Window.empty, Lookahead.empty]

theorem Encoder.feed_prependOut (o : List Byte) (input : List Byte) (e : Encoder) :
    (e.prependOut o).feed input = (e.feed input).prependOut o := by
  induction input generalizing e with
  | nil => rfl
  | cons b input ih =>
    rw [feed, feed, List.foldl_cons, List.foldl_cons, acceptByte_prependOut]
    exact ih _

/-- What a session emits is what it emits from reset (R156). -/
theorem Encoder.session_out (e : Encoder) (input : List Byte) :
    (e.init.feed input).finish.out = e.out ++ (Encoder.reset.feed input).finish.out := by
  rw [init_eq_prependOut, feed_prependOut, finish_prependOut]
  rfl

/-- Settles O39: from any state a session appends the bytes it emits from reset. -/
theorem encoderIsDeterministic : Obligations.EncoderIsDeterministic := by
  intro s s' input
  refine ⟨_, _, (Encoder.reset.feed input).finish.out, execAll_eq _ s, execAll_eq _ s', ?_, ?_⟩ <;>
  · dsimp only
    rw [Encoder.perform_encodeCommands, Encoder.session_out]

end Sys2Proof.Machine
end

section
/-! PROOF. Encoder and decoder together: a decoder that dispatches what the encoder packs keeps the same window and outputs
the bytes packed, so that DECODE of what ENCODE emits emits the input (R222, R223). -/

namespace Sys2Proof.Machine

/-! ### Windows in step -/

/-- Literals output their bytes (R214). -/
theorem Decoder.dispatchAll_literals (d : Decoder) (bytes : List Byte) :
    d.dispatchAll (bytes.map litCode) = d.outputAll bytes := by
  induction bytes generalizing d with
  | nil => rfl
  | cons b bytes ih => rw [List.map_cons, dispatchAll_cons, dispatch_litCode, ih]; rfl

/-- Streams of code words that differ in their padding only are the same code words (R104, R107). -/
theorem codeWords_eq_of_padded {cws cws' : List CodeWord} {pad pad' : List Bool} (hpad : pad.length < 10)
    (hpad' : pad'.length < 10) (h : cws.flatMap codeBits ++ pad = cws'.flatMap codeBits ++ pad') : cws = cws' := by
  rw [← codeGroups_eq cws pad hpad, h, codeGroups_eq cws' pad' hpad']

/-- ENC.END packs the lookahead's bytes as literals and no other code words (R151, R152). -/
theorem Encoder.finish_codeWords {e : Encoder} {cws : List CodeWord} {pad : Nat} (hpad : pad < 8)
    (h : e.finish.out.flatMap byteBits = e.stream ++ cws.flatMap codeBits ++ List.replicate pad false) :
    cws = e.la.contents.map litCode := by
  rw [finish_out_bits, List.append_assoc, List.append_assoc] at h
  refine (codeWords_eq_of_padded ?_ ?_ (List.append_cancel_left h)).symm <;>
  · rw [List.length_replicate]
    omega

/-- Settles O55: the code words are those that cover the bytes leaving the lookahead, and a decoder with the same window
outputs these bytes. -/
theorem windowsStayIdentical : Obligations.WindowsStayIdentical := by
  constructor
  · intro s t u x cw hinv hr hdw h hstream
    rw [exec_encByte_ready x hr] at h
    cases h
    obtain ⟨cws, bytes, hfed⟩ := Encoder.acceptByte_fed x hinv hr
    obtain rfl : cws = [cw] := by
      refine codeWords_eq_of_padded (pad := []) (pad' := []) (by decide) (by decide) ?_
      simpa using List.append_cancel_left (hfed.stream.symm.trans hstream)
    have hout : u.dec.dispatch cw = u.dec.outputAll bytes := hfed.agrees u.dec hdw
    refine ⟨_, bytes, exec_decodeCode cw u, ?_⟩
    rw [hout, Decoder.outputAll_eq, hdw]
    exact ⟨hfed.window.symm, rfl, rfl, hfed.queue⟩
  · intro s t u x cws pad hinv hr hdw h hpad hbits
    rw [exec_encEnd_ready x hr] at h
    cases h
    obtain rfl := Encoder.finish_codeWords hpad hbits
    refine ⟨List.length_map _, s.enc.finish_ew, fun k _ => ⟨_, execAll_codeWords _ u, ?_⟩⟩
    rw [← List.map_take, Decoder.dispatchAll_literals, Decoder.outputAll_eq, hdw]
    exact ⟨rfl, rfl, rfl⟩

/-! ### The round trip -/

theorem Decoder.dispatchAll_append (d : Decoder) (cws cws' : List CodeWord) :
    d.dispatchAll (cws ++ cws') = (d.dispatchAll cws).dispatchAll cws' := List.foldl_append

/-- A session emits the packed form of code words that, dispatched on an empty window, output the bytes fed (R222). -/
theorem Encoder.session_agrees (e : Encoder) (input : List Byte) : ∃ cws,
    (e.init.feed input).finish.out = e.out ++ packStream cws ∧
      ∀ d : Decoder, d.dw = Window.empty → d.dispatchAll cws = d.outputAll input := by
  obtain ⟨cws, bytes, hfed⟩ := feed_fed input e.Inv_init rfl
  obtain ⟨e', hcov, hfin⟩ := (e.init.feed input).finish_eq
  have hqueue : input = bytes ++ (e.init.feed input).la.contents := hfed.queue
  have hinit : e.init.stream = e.out.flatMap byteBits := List.append_nil _
  refine ⟨cws ++ (e.init.feed input).la.contents.map litCode, ?_, fun d hd => ?_⟩
  · refine (congrArg Encoder.out hfin).trans (packFlush_out ?_)
    rw [hcov.stream, hfed.stream, hinit, List.flatMap_append, List.append_assoc]
  · rw [Decoder.dispatchAll_append, hfed.agrees d hd, Decoder.dispatchAll_literals, ← Decoder.outputAll_append, ← hqueue]

/-- The counters of a session count the bytes fed and the bytes emitted (R29). -/
theorem Encoder.session_counts (e : Encoder) (input : List Byte) {packed : List Byte}
    (h : (e.init.feed input).finish.out = e.out ++ packed) :
    (e.init.feed input).finish.inCount = BitVec.ofNat 32 input.length ∧
      (e.init.feed input).finish.outCount = BitVec.ofNat 32 packed.length := by
  obtain ⟨cws, bytes, hfed⟩ := feed_fed input e.Inv_init rfl
  obtain ⟨first, hfirst, hcount⟩ := hfed.emitted
  obtain ⟨last, hlast, hcount'⟩ := (e.init.feed input).continues_finish.emitted
  have hpacked : packed = first ++ last := by
    rw [hlast, hfirst, List.append_assoc] at h
    exact (List.append_cancel_left h).symm
  constructor
  · rw [finish_inCount, hfed.inCount]
    exact BitVec.zero_add _
  · rw [hcount', hcount, hpacked, List.length_append, BitVec.ofNat_add]
    exact congrArg (· + _) (BitVec.zero_add _)

/-- Settles O56: the session's code words, dispatched from INIT, output the input, and the padding forms no code word. -/
theorem roundTrip : Obligations.RoundTrip := by
  intro s input
  obtain ⟨cws, hout, hagrees⟩ := s.enc.session_agrees input
  obtain ⟨hin, hcount⟩ := s.enc.session_counts input hout
  refine ⟨_, packStream cws, execAll_eq _ s, ?_, fun u => ⟨_, execAll_decodeCommands _ u, ?_⟩⟩
  · dsimp only
    rw [Encoder.perform_encodeCommands, hout]
  · obtain ⟨ca, -, -, hfeed⟩ := u.dec.feed_packStream cws
    dsimp only
    rw [Encoder.perform_encodeCommands, hin, hcount, hfeed, hagrees u.dec.init rfl, Decoder.outputAll_eq]
    exact ⟨rfl, rfl, BitVec.zero_add _, rfl⟩

end Sys2Proof.Machine
end
